-- ==== Sys2Proof/Syntax.lean ====
section
/-!
DEFINITION. The ten commands of 30_encoding.md R71, one constructor per row of spec/opcode_table.json. A command word
carries no operand (30_encoding.md R72): FMOD and FDEM read register ARG when they run.
-/

namespace Sys2Proof

/-- The commands, in the order of the opcode map (30_encoding.md R71). -/
inductive Instr where
  /-- CFG, configure and freeze: 40_config_plan.md R100. -/
  | cfg
  /-- TNORM, text normalisation: 41_bit_encoder.md R110. -/
  | tnorm
  /-- T2B, text to raw bit stream: 41_bit_encoder.md R111. -/
  | t2b
  /-- REPX, repetition code expander: 41_bit_encoder.md R112. -/
  | repx
  /-- FMOD, modulate one frame: 42_frame_modulator.md R124. -/
  | fmod
  /-- CMOD, modulate the whole carousel: 43_carousel_modulator.md R133. -/
  | cmod
  /-- FDEM, demodulate one window: 44_frame_demodulator.md R146. -/
  | fdem
  /-- CDEM, demodulate the carousel: 45_carousel_demodulator.md R151. -/
  | cdem
  /-- REPC, repetition code collapser: 46_bit_decoder.md R160. -/
  | repc
  /-- B2T, bit stream to text: 46_bit_decoder.md R161. -/
  | b2t
deriving DecidableEq, Repr

end Sys2Proof
end

