-- ==== Sys2Proof/Word.lean ====
section
/-!
DEFINITION. The widths of the values the block moves: a register word (10_state.md R21), one symbol of BITS (R41),
one sample of WAVE (R42) and one numerator of PLAN (R39).
-/

namespace Sys2Proof

/-- A register, or one character of TXT as its code point (10_state.md R21, R40). -/
abbrev Word := BitVec 32

/-- One binary symbol (10_state.md R41). -/
abbrev Bit := BitVec 1

/-- One 16-bit two's complement sample (10_state.md R42). -/
abbrev Sample := BitVec 16

/-- One 64-bit unsigned numerator of the frequency plan (10_state.md R39). -/
abbrev Numerator := BitVec 64

end Sys2Proof
end

