-- ==== Sys2Proof/Decode.lean ====
section
/-!
DEFINITION. The command word CMD32 (30_encoding.md R70, R71, R73): decoding, total on all 2^32 words, and the encoder.
-/

namespace Sys2Proof

/-- Why a word is no legal command (30_encoding.md R73). -/
inductive Reject where
  /-- Bits 31:8 are not all zero. -/
  | mbzNotZero
  /-- Bits 31:8 are zero and bits 7:0 are none of the ten operation codes. -/
  | unknownOpcode
deriving DecidableEq, Repr

/-- Field OPC, bits 7:0 (30_encoding.md R70). -/
def opcField (v : Word) : BitVec 8 := v.extractLsb' 0 8

/-- Field MBZ, bits 31:8 (30_encoding.md R70). -/
def mbzField (v : Word) : BitVec 24 := v.extractLsb' 8 24

/-- The opcode map of 30_encoding.md R71. -/
def decodeOpc (opc : Nat) : Option Instr :=
  match opc with
  | 0x01 => some .cfg
  | 0x10 => some .tnorm
  | 0x11 => some .t2b
  | 0x12 => some .repx
  | 0x13 => some .fmod
  | 0x14 => some .cmod
  | 0x20 => some .fdem
  | 0x21 => some .cdem
  | 0x22 => some .repc
  | 0x23 => some .b2t
  | _ => none

/-- The command a word stands for, or why it stands for none (30_encoding.md R73). Decoding never depends on state
(30_encoding.md R70). -/
def decode (v : Word) : Except Reject Instr :=
  if mbzField v ≠ 0 then .error .mbzNotZero
  else
    match decodeOpc (opcField v).toNat with
    | some i => .ok i
    | none => .error .unknownOpcode

/-- Field OPC of a command (30_encoding.md R71). -/
def Instr.opcode : Instr → BitVec 8
  | .cfg => 0x01
  | .tnorm => 0x10
  | .t2b => 0x11
  | .repx => 0x12
  | .fmod => 0x13
  | .cmod => 0x14
  | .fdem => 0x20
  | .cdem => 0x21
  | .repc => 0x22
  | .b2t => 0x23

/-- The word of a command: OPC in bits 7:0 below 24 zero bits (30_encoding.md R70). -/
def encode (i : Instr) : Word := (0 : BitVec 24) ++ i.opcode

/-- The word a table row's bits make: `nbits` bits of `w`, every bit above them zero; `none` if they are wider than the
one word a command has (30_encoding.md R70). -/
def tableWord (nbits w : Nat) : Option Word :=
  let bits := w % 2 ^ nbits
  if bits < 2 ^ 32 then some (BitVec.ofNat 32 bits) else none

/-- What the decoder reads from an instruction whose bits are `w`, numbered as spec/opcode_table.json numbers them. -/
def decodeTableWord (nbits w : Nat) : Option Instr :=
  match tableWord nbits w with
  | none => none
  | some v =>
    match decode v with
    | .ok i => some i
    | .error _ => none

end Sys2Proof
end

