-- ==== Sys2Proof/Config.lean ====
section
/-!
DEFINITION. What an instance fixes (00_scope.md R5) and what the spec leaves free (93_implementation_defined.md U4, U5).
-/

namespace Sys2Proof

/-- A positive real number, `num / (den · sin (2π · turnNum / turnDen))`, as plain data; a quarter turn makes it the
quotient `num / den`. What PRE_AMP decides is on which side of the quantiser's ties each sample lies, and the ties lie
at numbers of this form: every real number in (0, 1] gives the samples one of these numbers gives, whatever the
registers hold (DEDUCED, log 2; proved as `amplitude_covers` under Sys2Proof/Laws). -/
structure Amplitude where
  num : Nat
  den : Nat
  turnNum : Nat
  turnDen : Nat
deriving DecidableEq, Repr

/-- The rational amplitude `num / den`. -/
def Amplitude.ratio (num den : Nat) : Amplitude := ⟨num, den, 1, 4⟩

/-- The open instance parameters of 00_scope.md R5, and BIT_CAP: constants of one built block, which the host cannot
change. They are a component of `State` that no step writes, so that a statement about every state holds for every
instance (DESIGN CHOICE, log 1). ACT_THR is the rational `actThrNum / actThrDen`. -/
structure Instance where
  /-- N_MAX, the largest CHANNEL_COUNT the instance accepts. -/
  nMax : Nat
  /-- TXT_MAX, capacity of TXT in characters. -/
  txtMax : Nat
  /-- BIT_MAX, capacity of BITS in bits. -/
  bitMax : Nat
  /-- WAVE_MAX, capacity of WAVE in samples. -/
  waveMax : Nat
  /-- BIT_CAP, the cap on accumulated demodulated bits. -/
  bitCap : Nat
  /-- Numerator of ACT_THR. -/
  actThrNum : Nat
  /-- Denominator of ACT_THR. -/
  actThrDen : Nat
  /-- PRE_AMP, the amplitude of the preamble tone. -/
  preAmp : Amplitude
deriving DecidableEq, Repr

namespace Config

/-- The reference values of 00_scope.md R5. -/
def reference : Instance where
  nMax := 256
  txtMax := 1024
  bitMax := 16384
  waveMax := 4194304
  bitCap := 10000
  actThrNum := 1
  actThrDen := 100
  preAmp := .ratio 1 1

/-- Numerator of DET_FRAC = 3/10 (00_scope.md R5, not open). -/
def detNum : Nat := 3

/-- Denominator of DET_FRAC = 3/10. -/
def detDen : Nat := 10

/-- Q_SCALE, the multiplier of the output quantiser (00_scope.md R5, fixed by D12). -/
def qScale : Nat := 32767

/-- DQ_DIV, the divisor of the input de-quantiser (00_scope.md R5, fixed by D14). -/
def dqDiv : Nat := 32768

/-- WS, the characters TNORM treats as whitespace (00_scope.md R5, fixed by D21). -/
def ws : List Word := [0x09, 0x0A, 0x0B, 0x0C, 0x0D, 0x20]

/-- What an element of a buffer holds that nothing has written since the spec last left it unspecified
(20_memory.md R59, 93_implementation_defined.md U4, U5): a free value of width `w`, one for each space id (20_memory.md
R50), each generation of the buffer, each count of cuts the index has seen in it and each index. It has no body: nothing
can be proved of it (DESIGN CHOICE, log 6). -/
opaque freeElement (w space gen cuts index : Nat) : BitVec w

end Config

end Sys2Proof
end

