-- ==== Sys2Proof/Machine/State.lean ====
section
/-!
DEFINITION. The state of one instance: the registers of 10_state.md R21, the table PLAN (R39) and the buffers TXT, BITS,
WAVE (R40 to R42), as plain data; the host's moves (20_memory.md R58); and the machine right after reset
(70_reset_and_hazards.md R190).
-/

namespace Sys2Proof.Machine

/-- STATUS.STATE (10_state.md R24, R46). The value 3 never occurs (93_implementation_defined.md U10). -/
inductive Mode where
  /-- 0, after reset: the configuration registers can be written and only CFG does work. -/
  | unconfigured
  /-- 1, after a CFG that accepted the configuration. -/
  | ready
  /-- 2, after a CFG that rejected the configuration. -/
  | failed
deriving DecidableEq, Repr

/-- The error codes of 60_exceptions.md R170. -/
inductive ErrCode where
  /-- 0: the command completed. -/
  | eNone
  /-- 1: the word written to CMD is not a legal command. -/
  | eIllegal
  /-- 2: CFG outside UNCONFIGURED, or any other command outside READY. -/
  | eState
  /-- 3: the configuration fails a check of CFG. -/
  | eConfig
  /-- 4: a character above 255 in TXT. -/
  | eDomain
  /-- 5: chunk index not below the chunk count, or window not inside the waveform. -/
  | eArg
  /-- 6: the result would not fit its destination buffer. -/
  | eCapacity
deriving DecidableEq, Repr

/-- The four buffer spaces of 20_memory.md R50 (REG, space 0, is reached by the register moves). -/
inductive Space where
  /-- Space 1. -/
  | txt
  /-- Space 2. -/
  | bits
  /-- Space 3. -/
  | wave
  /-- Space 4, read only. -/
  | plan
deriving DecidableEq, Repr

/-- The host's moves (20_memory.md R58). The data word of a write has the 32 bits of a register; a buffer write keeps
the low bits its element has (20_memory.md R54). -/
inductive HostMove where
  /-- Reset (70_reset_and_hazards.md R190). -/
  | reset
  /-- WriteReg(index, v); a write to CMD, index 0, runs a command. -/
  | writeReg (index : Nat) (v : Word)
  /-- ReadReg(index). -/
  | readReg (index : Nat)
  /-- WriteBuf(space, index, v). -/
  | writeBuf (space : Space) (index : Nat) (v : Word)
  /-- ReadBuf(space, index). -/
  | readBuf (space : Space) (index : Nat)
deriving DecidableEq, Repr

/-- What a host read returns (20_memory.md R54): a 32-bit word from REG, TXT, BITS and WAVE, a 64-bit word from PLAN
(DEDUCED, log 5). -/
inductive HostData where
  | word (v : Word)
  | numerator (v : Numerator)
deriving DecidableEq, Repr

/-- One buffer space of elements of width `w`. `cells` lists the elements that something has written since the spec last
left them unspecified, as (index, element) pairs with strictly rising indices; an index it does not list reads as a
free value (20_memory.md R59; log 6, log 8). `gen` counts the events that left the whole buffer unspecified, and `cuts`
holds the lengths that its length register was lowered to since the last of them (log 7). -/
structure Buf (w : Nat) where
  gen : Nat
  cuts : List Nat
  cells : List (Nat × BitVec w)
deriving DecidableEq, Repr

/-- The four buffer spaces (20_memory.md R50). -/
structure Memory where
  txt : Buf 32
  bits : Buf 1
  wave : Buf 16
  plan : Buf 64
deriving DecidableEq, Repr

/-- The state of one instance (10_state.md R20). CMD stores nothing (R22) and has no field. -/
structure State where
  /-- STATUS.STATE, bits 1:0 (10_state.md R24). -/
  mode : Mode
  /-- STATUS.NOSIG, bit 2: the last CDEM produced no bits. -/
  nosig : Bool
  /-- STATUS.CAPHIT, bit 3: the last CDEM stopped because its output exceeded BIT_CAP. -/
  caphit : Bool
  /-- STATUS.SHORT, bit 4: the last CDEM inspected no window because WAVE was too short. -/
  short : Bool
  /-- STATUS.LAST, bits 11:8: the error code of the last command. -/
  last : ErrCode
  /-- ARG, register 1 (10_state.md R23). -/
  arg : Word
  /-- ERRS, register 3, sticky (10_state.md R25). -/
  errs : Word
  /-- INFO, register 4 (10_state.md R26). -/
  info : Word
  /-- TXT_LEN, register 5 (10_state.md R38). -/
  txtLen : Word
  /-- BITS_LEN, register 6 (10_state.md R38). -/
  bitsLen : Word
  /-- WAVE_LEN, register 7 (10_state.md R38). -/
  waveLen : Word
  /-- SAMPLE_RATE, register 8 (10_state.md R27). -/
  sampleRate : Word
  /-- CHANNEL_COUNT, register 9 (10_state.md R28). -/
  channelCount : Word
  /-- FREQ_MIN, register 10 (10_state.md R29). -/
  freqMin : Word
  /-- FREQ_MAX, register 11 (10_state.md R30). -/
  freqMax : Word
  /-- FRAME_LEN, register 12 (10_state.md R31). -/
  frameLen : Word
  /-- REPEAT_COUNT, register 13 (10_state.md R32). -/
  repeatCount : Word
  /-- PRE_FREQ, register 14 (10_state.md R33). -/
  preFreq : Word
  /-- PRE_LEN, register 15 (10_state.md R34). -/
  preLen : Word
  /-- GAP_LEN, register 16 (10_state.md R35). -/
  gapLen : Word
  /-- CGAP_LEN, register 17 (10_state.md R36). -/
  cgapLen : Word
  /-- PLAN_DEN, register 18 (10_state.md R39). -/
  planDen : Word
  /-- TXT, BITS, WAVE and PLAN (10_state.md R39 to R42). -/
  mem : Memory
  /-- The MODEL's own: the instance parameters (00_scope.md R5), which no step changes (log 1). -/
  inst : Instance
  /-- The MODEL's own: the host's moves still to come, the next one first (47_common_laws.md R166; log 4). -/
  pending : List HostMove
  /-- The MODEL's own: what the latest host read returned (log 5). -/
  reply : Option HostData
deriving DecidableEq, Repr

/-- Why the machine would stop with a fault: never. Decoding is total on all words and every command has exactly one
outcome, success or one error code (30_encoding.md R73, R78), so there is no constructor. -/
inductive Fault
deriving DecidableEq, Repr

/-- Why an instruction has no meaning in the model. -/
inductive Refusal where
  /-- Raised by an arm of `exec` whose command has no meaning yet; safe, it stops. No arm raises it. -/
  | notModelled (mnemonic : String)
deriving DecidableEq, Repr

/-- A buffer none of whose elements is specified. -/
def Buf.unwritten (w gen : Nat) : Buf w := ⟨gen, [], []⟩

/-- The machine right after reset (70_reset_and_hazards.md R190): every register 0, STATE = UNCONFIGURED, LAST = E_NONE,
the elements of every buffer unspecified. The model's own fields: the reference instance (log 1), no move to come
(log 4), no read made (log 5), generation 0 of every buffer and no cut in it (log 6). -/
def State.reset : State where
  mode := .unconfigured
  nosig := false
  caphit := false
  short := false
  last := .eNone
  arg := 0
  errs := 0
  info := 0
  txtLen := 0
  bitsLen := 0
  waveLen := 0
  sampleRate := 0
  channelCount := 0
  freqMin := 0
  freqMax := 0
  frameLen := 0
  repeatCount := 0
  preFreq := 0
  preLen := 0
  gapLen := 0
  cgapLen := 0
  planDen := 0
  mem := ⟨.unwritten 32 0, .unwritten 1 0, .unwritten 16 0, .unwritten 64 0⟩
  inst := Config.reference
  pending := []
  reply := none

end Sys2Proof.Machine
end

