-- ==== Sys2Proof/Machine/Flags.lean ====
section
/-!
DEFINITION. The condition flags of the block: the fields of STATUS (10_state.md R24) and the sticky bits of ERRS (R25).
No arithmetic command sets any other flag (10_state.md R44).
-/

namespace Sys2Proof.Machine

/-- The number of an error code (60_exceptions.md R170). -/
def ErrCode.code : ErrCode → Nat
  | .eNone => 0
  | .eIllegal => 1
  | .eState => 2
  | .eConfig => 3
  | .eDomain => 4
  | .eArg => 5
  | .eCapacity => 6

/-- The value of STATUS.STATE (10_state.md R24). -/
def Mode.code : Mode → Nat
  | .unconfigured => 0
  | .ready => 1
  | .failed => 2

/-- STATUS as the host reads it: STATE in bits 1:0, NOSIG bit 2, CAPHIT bit 3, SHORT bit 4, LAST in bits 11:8, every
other bit 0 (10_state.md R24). -/
def State.statusWord (s : State) : Word :=
  BitVec.ofNat 32 (s.mode.code + 4 * s.nosig.toNat + 8 * s.caphit.toNat + 16 * s.short.toNat + 256 * s.last.code)

/-- A word with bit `n` set and every other bit 0. -/
def bitWord (n : Nat) : Word := 1#32 <<< n

/-- ERRS.HOSTACC is bit 8 (10_state.md R25). -/
def hostAccBit : Nat := 8

/-- ERRS.LOCKWR is bit 9 (10_state.md R25). -/
def lockWrBit : Nat := 9

/-- The bits of ERRS that something sets: 1 to 6, 8 and 9 (10_state.md R25). The others read as 0. -/
def errsDefined : Word := 0x37E

/-- Sets sticky bit `n` of ERRS; no other bit changes (10_state.md R25). -/
def State.setErr (s : State) (n : Nat) : State := { s with errs := s.errs ||| bitWord n }

/-- A host access out of range, unimplemented or read-only sets ERRS.HOSTACC and nothing else (60_exceptions.md R175). -/
def State.hostAcc (s : State) : State := s.setErr hostAccBit

/-- A host write to a locked register sets ERRS.LOCKWR and nothing else (10_state.md R37, 60_exceptions.md R175). -/
def State.lockWr (s : State) : State := s.setErr lockWrBit

/-- The three flags of a CDEM that passed the state check (45_carousel_demodulator.md R151, R153): `outLen` is the
number of bits it produced. -/
def State.setWalkFlags (s : State) (wLen pLen fLen outLen : Nat) : State :=
  { s with
    short := decide ((wLen : Int) - pLen ≤ fLen)
    nosig := decide (outLen = 0)
    caphit := decide (s.inst.bitCap < outLen) }

end Sys2Proof.Machine
end

