-- ==== Sys2Proof/Machine/Ops.lean ====
section
/-!
DEFINITION. The named operations over buffers and registers: element reads and writes (20_memory.md R54 to R59), whole
destinations (R55), an error (60_exceptions.md R173), a completion and the state check (30_encoding.md R78).
-/

namespace Sys2Proof.Machine

/-- The space ids of 20_memory.md R50. -/
def Space.id : Space → Nat
  | .txt => 1
  | .bits => 2
  | .wave => 3
  | .plan => 4

/-- What an unwritten element of a buffer in space `sp` reads as: a free value, another one after every cut at or below
the element (log 6, log 7). -/
def Buf.free {w : Nat} (sp : Space) (b : Buf w) (i : Nat) : BitVec w :=
  Config.freeElement w sp.id b.gen (b.cuts.countP (· ≤ i)) i

/-- The element a list of cells holds for index `i`. -/
def cellAt {w : Nat} (i : Nat) : List (Nat × BitVec w) → Option (BitVec w)
  | [] => none
  | (j, v) :: t => if j = i then some v else cellAt i t

/-- MemRead(S, i) (00_scope.md R9): element `i` of a buffer. -/
def Buf.get {w : Nat} (sp : Space) (b : Buf w) (i : Nat) : BitVec w := (cellAt i b.cells).getD (b.free sp i)

/-- The elements `i … i + n − 1`, the unlisted ones given by `free`, from cells whose indices rise strictly. -/
def elements {w : Nat} (free : Nat → BitVec w) : Nat → Nat → List (Nat × BitVec w) → List (BitVec w)
  | i, n, [] => (List.range' i n).map free
  | i, n, (j, v) :: t =>
    if j < i then elements free i n t
    else if j - i < n then (List.range' i (j - i)).map free ++ v :: elements free (j + 1) (n - (j - i) - 1) t
    else (List.range' i n).map free

/-- The sequence `S[0 : n)` (00_scope.md R9). -/
def Buf.take {w : Nat} (sp : Space) (b : Buf w) (n : Nat) : List (BitVec w) := elements (b.free sp) 0 n b.cells

/-- Puts `v` at index `i` of a list of cells, keeping the indices strictly rising. -/
def putCell {w : Nat} (i : Nat) (v : BitVec w) : List (Nat × BitVec w) → List (Nat × BitVec w)
  | [] => [(i, v)]
  | (j, u) :: t => if i < j then (i, v) :: (j, u) :: t else if i = j then (i, v) :: t else (j, u) :: putCell i v t

/-- MemWrite(S, i, v) (00_scope.md R9): element `i` changes, no other does. -/
def Buf.set {w : Nat} (b : Buf w) (i : Nat) (v : BitVec w) : Buf w := { b with cells := putCell i v b.cells }

/-- A destination written whole (20_memory.md R55): elements `0 … |xs| − 1` are those of `xs`, and every element from
index `|xs|` up is unspecified (20_memory.md R59, D38): a free value of a new generation (log 6, log 7). -/
def Buf.replace {w : Nat} (b : Buf w) (xs : List (BitVec w)) : Buf w :=
  ⟨b.gen + 1, [], xs.zipIdx.map fun x => (x.2, x.1)⟩

/-- The buffer when the host moves its length register from `old` to `new`: a lower length leaves every element from
`new` up unspecified (20_memory.md R59, 93_implementation_defined.md U4; log 7), any other leaves every element as it
is. -/
def Buf.relength {w : Nat} (b : Buf w) (old new : Nat) : Buf w :=
  if new < old then ⟨b.gen, new :: b.cuts, b.cells.filter fun c => c.1 < new⟩ else b

/-- The buffer after reset: every element unspecified (70_reset_and_hazards.md R190). -/
def Buf.forget {w : Nat} (b : Buf w) : Buf w := .unwritten w (b.gen + 1)

/-- The canonical form of a buffer's cells: indices strictly rising, so that equal contents are equal data. -/
abbrev Buf.wf {w : Nat} (b : Buf w) : Prop := (b.cells.map Prod.fst).Pairwise (· < ·)

/-- The canonical form of the four buffers. -/
abbrev Memory.wf (m : Memory) : Prop := m.txt.wf ∧ m.bits.wf ∧ m.wave.wf ∧ m.plan.wf

/-- `TXT <- xs` (00_scope.md R9): the elements and TXT_LEN. -/
def State.putText (s : State) (xs : List Word) : State :=
  { s with mem := { s.mem with txt := s.mem.txt.replace xs }, txtLen := BitVec.ofNat 32 xs.length }

/-- `BITS <- xs` (00_scope.md R9): the elements and BITS_LEN. -/
def State.putBits (s : State) (xs : List Bit) : State :=
  { s with mem := { s.mem with bits := s.mem.bits.replace xs }, bitsLen := BitVec.ofNat 32 xs.length }

/-- `WAVE <- xs` (00_scope.md R9): the elements and WAVE_LEN. -/
def State.putWave (s : State) (xs : List Sample) : State :=
  { s with mem := { s.mem with wave := s.mem.wave.replace xs }, waveLen := BitVec.ofNat 32 xs.length }

/-- The host's write of TXT_LEN (10_state.md R38). -/
def State.setTextLen (s : State) (v : Word) : State :=
  { s with mem := { s.mem with txt := s.mem.txt.relength s.txtLen.toNat v.toNat }, txtLen := v }

/-- The host's write of BITS_LEN (10_state.md R38). -/
def State.setBitsLen (s : State) (v : Word) : State :=
  { s with mem := { s.mem with bits := s.mem.bits.relength s.bitsLen.toNat v.toNat }, bitsLen := v }

/-- The host's write of WAVE_LEN (10_state.md R38). -/
def State.setWaveLen (s : State) (v : Word) : State :=
  { s with mem := { s.mem with wave := s.mem.wave.relength s.waveLen.toNat v.toNat }, waveLen := v }

/-- PLAN_DEN and the entries of PLAN (40_config_plan.md R100); entries past them are unspecified (U5). -/
def State.putPlan (s : State) (den : Nat) (xs : List Numerator) : State :=
  { s with mem := { s.mem with plan := s.mem.plan.replace xs }, planDen := BitVec.ofNat 32 den }

/-- `raise E_X(info)` (60_exceptions.md R173), the block's one way to take an exception: STATUS.LAST, ERRS[code] and
INFO, and nothing more. Control goes nowhere, and there is no return (R174). -/
def State.raise (s : State) (e : ErrCode) (info : Word) : State := { s.setErr e.code with last := e, info := info }

/-- Completion without an error (30_encoding.md R78, step 5): LAST becomes E_NONE and INFO the value the rule names. -/
def State.complete (s : State) (info : Word) : State := { s with last := .eNone, info := info }

/-- The state check of every command but CFG (30_encoding.md R78, step 3): in READY the rule `k` runs, elsewhere the
command ends with E_STATE. -/
def State.whenReady (s : State) (k : State → State) : State :=
  match s.mode with
  | .ready => k s
  | .unconfigured | .failed => s.raise .eState 0

/-- The state check of CFG (30_encoding.md R78, step 3). -/
def State.whenUnconfigured (s : State) (k : State → State) : State :=
  match s.mode with
  | .unconfigured => k s
  | .ready | .failed => s.raise .eState 0

/-- A word written to CMD that is no legal command (30_encoding.md R73): E_ILLEGAL, in every STATE, INFO the word. -/
def State.illegalCommand (s : State) (v : Word) : State := s.raise .eIllegal v

end Sys2Proof.Machine
end

