-- ==== Sys2Proof/Machine/Operands.lean ====
section
/-!
DEFINITION. What a command reads: the operand register (30_encoding.md R72), the frozen configuration by the shorthands
of 00_scope.md R9, and the source sequences `S[0 : S_LEN)`.
-/

namespace Sys2Proof.Machine

/-- The operand of FMOD and FDEM: ARG as an unsigned natural, never extended by sign, scaled or shifted
(30_encoding.md R72). -/
def State.argNat (s : State) : Nat := s.arg.toNat

/-- `fs` = SAMPLE_RATE. -/
def State.fs (s : State) : Nat := s.sampleRate.toNat

/-- `N` = CHANNEL_COUNT. -/
def State.nChan (s : State) : Nat := s.channelCount.toNat

/-- `F` = FRAME_LEN. -/
def State.fLen (s : State) : Nat := s.frameLen.toNat

/-- `R` = REPEAT_COUNT. -/
def State.rCount (s : State) : Nat := s.repeatCount.toNat

/-- `P` = PRE_LEN. -/
def State.pLen (s : State) : Nat := s.preLen.toNat

/-- `G` = GAP_LEN. -/
def State.gLen (s : State) : Nat := s.gapLen.toNat

/-- `C` = CGAP_LEN. -/
def State.cLen (s : State) : Nat := s.cgapLen.toNat

/-- `fp` = PRE_FREQ. -/
def State.fp (s : State) : Nat := s.preFreq.toNat

/-- PLAN_DEN, the common denominator of the plan (10_state.md R39). -/
def State.den (s : State) : Nat := s.planDen.toNat

/-- `W` = WAVE_LEN. -/
def State.wLen (s : State) : Nat := s.waveLen.toNat

/-- The sequence TXT[0 : TXT_LEN). -/
def State.text (s : State) : List Word := s.mem.txt.take .txt s.txtLen.toNat

/-- The sequence BITS[0 : BITS_LEN). -/
def State.bits (s : State) : List Bit := s.mem.bits.take .bits s.bitsLen.toNat

/-- The sequence WAVE[0 : WAVE_LEN). -/
def State.wave (s : State) : List Sample := s.mem.wave.take .wave s.waveLen.toNat

/-- The numerators PLAN[0] … PLAN[N − 1] (10_state.md R39). -/
def State.plan (s : State) : List Nat := (s.mem.plan.take .plan s.nChan).map BitVec.toNat

/-- `zeros(n)` as samples (00_scope.md R9). -/
def zeroSamples (n : Nat) : List Sample := List.replicate n 0

end Sys2Proof.Machine
end

