-- ==== Sys2Proof/Machine/BitDecoder.lean ====
section
/-!
DEFINITION. BitDecoder: REPC, B2T (46_bit_decoder.md R160, R161).
-/

namespace Sys2Proof.Machine

/-- The OR of each consecutive pair from the start of the stream; an unpaired last bit is dropped (46_bit_decoder.md
R160). -/
def collapsePairs : List Bit → List Bit
  | x :: y :: t => (x ||| y) :: collapsePairs t
  | [_] => []
  | [] => []

/-- REPC, repetition code collapser (46_bit_decoder.md R160). -/
def execRepc (s : State) : Host.Outcome State Fault Refusal :=
  .next <| s.whenReady fun s => (s.putBits (collapsePairs s.bits)).complete 0

/-- The byte value of a group, `Σ b[k] · 2^(7−k)`: the first bit is the most significant (46_bit_decoder.md R161). -/
def groupValue (g : List Bit) : Nat := g.foldl (fun v b => 2 * v + b.toNat) 0

/-- The characters of the complete groups of eight bits that are not zero, in order (46_bit_decoder.md R161); `n` is
the number of complete groups. -/
def groupChars : Nat → List Bit → List Word
  | 0, _ => []
  | n + 1, b =>
    if groupValue (b.take 8) = 0 then groupChars n (b.drop 8)
    else BitVec.ofNat 32 (groupValue (b.take 8)) :: groupChars n (b.drop 8)

/-- The text of a bit stream (46_bit_decoder.md R161). -/
def bitsText (b : List Bit) : List Word := groupChars (b.length / 8) b

/-- B2T, bit stream to text (46_bit_decoder.md R161). -/
def execB2t (s : State) : Host.Outcome State Fault Refusal :=
  .next <| s.whenReady fun s =>
    if s.inst.txtMax < (bitsText s.bits).length then s.raise .eCapacity 0
    else (s.putText (bitsText s.bits)).complete 0

end Sys2Proof.Machine
end

