-- ==== Sys2Proof/Machine/BitEncoder.lean ====
section
/-!
DEFINITION. BitEncoder: TNORM, T2B, REPX (41_bit_encoder.md R110 to R112).
-/

namespace Sys2Proof.Machine

/-- Whether a character is in WS (00_scope.md R5). -/
def isWs (c : Word) : Bool := Config.ws.contains c

/-- Every maximal run of whitespace becomes one space, every other character is copied (41_bit_encoder.md R110);
`inRun` says that the character before was whitespace, whose run has its space already. -/
def collapse (inRun : Bool) : List Word → List Word
  | [] => []
  | c :: t =>
    if isWs c then (if inRun then collapse true t else 0x20 :: collapse true t)
    else c :: collapse false t

/-- TNORM, text normalisation (41_bit_encoder.md R110). -/
def execTnorm (s : State) : Host.Outcome State Fault Refusal :=
  .next <| s.whenReady fun s => (s.putText (collapse false s.text)).complete 0

/-- The eight bits of a character, bit 7 first (41_bit_encoder.md R111, 20_memory.md R51). -/
def charBits (c : Word) : List Bit := [7, 6, 5, 4, 3, 2, 1, 0].map fun b => c.extractLsb' b 1

/-- The raw stream of a text (41_bit_encoder.md R111). -/
def textBits (t : List Word) : List Bit := t.flatMap charBits

/-- The index of the first character above 255, if there is one (41_bit_encoder.md R111). -/
def firstWide (t : List Word) : Option Nat := t.findIdx? fun c => 255 < c.toNat

/-- T2B, text to raw bit stream (41_bit_encoder.md R111). -/
def execT2b (s : State) : Host.Outcome State Fault Refusal :=
  .next <| s.whenReady fun s =>
    match firstWide s.text with
    | some i => s.raise .eDomain (BitVec.ofNat 32 i)
    | none =>
      if s.inst.bitMax < 8 * s.txtLen.toNat then s.raise .eCapacity 0
      else (s.putBits (textBits s.text)).complete 0

/-- Every bit twice (41_bit_encoder.md R112). -/
def doubleBits (b : List Bit) : List Bit := b.flatMap fun x => [x, x]

/-- REPX, repetition code expander (41_bit_encoder.md R112). -/
def execRepx (s : State) : Host.Outcome State Fault Refusal :=
  .next <| s.whenReady fun s =>
    if s.inst.bitMax < 2 * s.bitsLen.toNat then s.raise .eCapacity 0
    else (s.putBits (doubleBits s.bits)).complete 0

end Sys2Proof.Machine
end

