-- ==== Sys2Proof/Machine/Exact.lean ====
section
/-!
DEFINITION. Exact decisions on the real numbers of the signal path (00_scope.md R8, 47_common_laws.md R164; log 10).

Every real number the rules compute is a rational combination of products of sines and cosines of rational fractions of
a turn. `Iv` encloses such a number, times a power of two, between two integers; `sinIv` and `cosIv` enclose sine and
cosine at any precision. A comparison the enclosures do not settle is repeated at twice the precision (`refine`). Two
numbers of this kind that differ, differ by more than a bound that the operands give (`depthFor`), so at the last
precision what is still unsettled is an equality. No result depends on a precision: Sys2Proof/Laws proves each of them
equal to the rule over the real numbers.
-/

namespace Sys2Proof.Machine

/-- An enclosure: a real number `x` with `lo ≤ scale · x ≤ hi`, the scale being a power of two known from the context. -/
structure Iv where
  lo : Int
  hi : Int
deriving DecidableEq, Repr

/-- The enclosure of a number known exactly. -/
def Iv.exact (z : Int) : Iv := ⟨z, z⟩

def Iv.add (x y : Iv) : Iv := ⟨x.lo + y.lo, x.hi + y.hi⟩

def Iv.neg (x : Iv) : Iv := ⟨-x.hi, -x.lo⟩

/-- The enclosure of `k · x`, at the same scale. -/
def Iv.scale (k : Int) (x : Iv) : Iv := if 0 ≤ k then ⟨k * x.lo, k * x.hi⟩ else ⟨k * x.hi, k * x.lo⟩

/-- The enclosure of `x · y`, at the product of the two scales. -/
def Iv.mul (x y : Iv) : Iv :=
  ⟨min (min (x.lo * y.lo) (x.lo * y.hi)) (min (x.hi * y.lo) (x.hi * y.hi)),
    max (max (x.lo * y.lo) (x.lo * y.hi)) (max (x.hi * y.lo) (x.hi * y.hi))⟩

/-- The enclosure of `|x|`. -/
def Iv.abs (x : Iv) : Iv := ⟨max 0 (max x.lo (-x.hi)), max (-x.lo) x.hi⟩

/-- The enclosure of `x²`, at the square of the scale. -/
def Iv.sq (x : Iv) : Iv := ⟨x.abs.lo * x.abs.lo, x.abs.hi * x.abs.hi⟩

/-- The enclosure of a sum. -/
def Iv.sum (xs : List Iv) : Iv := xs.foldr Iv.add (.exact 0)

/-- The enclosure of the largest of 0 and the numbers enclosed. -/
def Iv.sup (xs : List Iv) : Iv := xs.foldr (fun x y => ⟨max x.lo y.lo, max x.hi y.hi⟩) (.exact 0)

/-- `2^p · Σ_{k < j < k + n} ± 1 / ((2j + 1) · x^(2j+1))`, alternating, each term rounded down: the series of
`arctan (1/x)` from its term `k` on. -/
def arctanInv (p x : Nat) : Nat → Nat → Int
  | 0, _ => 0
  | n + 1, k => ((2 ^ p / (x ^ (2 * k + 1) * (2 * k + 1)) : Nat) : Int) - arctanInv p x n (k + 1)

/-- `2^p · π / 2` to within `3p + 20`: Machin's formula. -/
def halfPi (p : Nat) : Int := 8 * arctanInv p 5 (p / 4 + 1) 0 - 2 * arctanInv p 239 (p / 4 + 1) 0

/-- Cosine and sine of the angle `t / 2^p`, times `2^p`: the Taylor polynomial of the complex exponential by Horner's
scheme, `1 + (i·t/k)·(1 + (i·t/(k+1))·( … ))`, with `n` steps from `k`. -/
def cisHorner (p : Nat) (t : Int) : Nat → Nat → Int × Int
  | 0, _ => (2 ^ p, 0)
  | n + 1, k => (2 ^ p - t * (cisHorner p t n (k + 1)).2 / (2 ^ p * k), t * (cisHorner p t n (k + 1)).1 / (2 ^ p * k))

/-- The number of steps `cisHorner` takes at precision `p`. -/
def cisSteps (p : Nat) : Nat := p / 3 + 16

/-- How far an enclosed sine lies from the ends of its enclosure, at most. -/
def sinErr (p : Nat) : Nat := 4 * p + 32

/-- `2^p` times the sine of `j` twelfths of a turn, where that is rational. -/
def sinTwelfth (p : Nat) : Nat → Option Int
  | 0 | 6 => some 0
  | 1 | 5 => some (2 ^ (p - 1))
  | 3 => some (2 ^ p)
  | 7 | 11 => some (-2 ^ (p - 1))
  | 9 => some (-2 ^ p)
  | _ => none

/-- The sine of `q` quarter turns and an angle whose (cosine, sine) is `cs`. -/
def quarterSin (q : Nat) (cs : Int × Int) : Int :=
  match q % 4 with
  | 0 => cs.2
  | 1 => cs.1
  | 2 => -cs.2
  | _ => -cs.1

/-- An approximation of `2^p · sin (2π · a / d)` for `a < d`, where `hp` is `halfPi p`. -/
def sinApprox (p : Nat) (hp : Int) (a d : Nat) : Int :=
  quarterSin (4 * a / d) (cisHorner p (hp * (4 * a % d : Nat) / d) (cisSteps p) 1)

/-- The enclosure of `sin (2π · a / d)` at scale `2^p`, where `hp` is `halfPi p`; exact where the sine is rational. -/
def sinIv (p : Nat) (hp : Int) (a d : Nat) : Iv :=
  match if 12 * (a % d) % d = 0 then sinTwelfth p (12 * (a % d) / d) else none with
  | some z => .exact z
  | none => ⟨sinApprox p hp (a % d) d - sinErr p, sinApprox p hp (a % d) d + sinErr p⟩

/-- The enclosure of `cos (2π · a / d)` at scale `2^p`. -/
def cosIv (p : Nat) (hp : Int) (a d : Nat) : Iv := sinIv p hp (4 * a + d) (4 * d)

/-- `rne(num / den)`, to the nearest integer, a tie going to the even one (00_scope.md R9), for `den > 0`. -/
def rneDiv (num den : Int) : Int :=
  if 2 * (num % den) < den then num / den
  else if den < 2 * (num % den) then num / den + 1
  else if num / den % 2 = 0 then num / den
  else num / den + 1

/-- The output quantiser `Q(y / pk) = rne(32767 · y / pk)` (42_frame_modulator.md R123) from enclosures of `y` and of
`pk > 0` at one scale: the quotient's lower end and upper end round to one integer, or the quotient is not settled. At
the last precision an unsettled quotient is a tie, and goes to the even one of the two. -/
def quantIv (last : Bool) (pk y : Iv) : Option Int :=
  let a := rneDiv (Config.qScale * y.lo) (if 0 ≤ y.lo then pk.hi else pk.lo)
  let b := rneDiv (Config.qScale * y.hi) (if 0 ≤ y.hi then pk.lo else pk.hi)
  if a = b then some a
  else if last then some (if a % 2 = 0 then a else b)
  else none

/-- The results, if there is one for every member of the list. -/
def allSettled {α : Type} : List (Option α) → Option (List α)
  | [] => some []
  | none :: _ => none
  | some a :: t => (allSettled t).map (a :: ·)

/-- Runs a decision at precisions `p`, `2p`, `4p`, … until it is settled; the last of the `n` doublings is told that it
is the last. -/
def refine {α : Type} (run : Bool → Nat → Option α) : Nat → Nat → Option α
  | 0, p => run true p
  | n + 1, p =>
    match run false p with
    | some r => some r
    | none => refine run n (2 * p)

/-- The first precision. -/
def firstPrecision : Nat := 64

/-- The number of doublings of the first precision after which two numbers that are `2^-b` combinations of roots of
unity of order `order`, with conjugates below `2^b`, are told apart or equal. -/
def depthFor (b order : Nat) : Nat := Nat.log2 (b * (order + 1) / 32 + 2) + 1

/-- The divisor `den · sin (2π · turnNum / turnDen)` of an amplitude, at scale `2^p`. -/
def amplitudeDivisor (p : Nat) (hp : Int) (x : Amplitude) : Iv := (sinIv p hp x.turnNum x.turnDen).scale x.den

/-- The bits that the conjugates of what an amplitude is compared with have. -/
def amplitudeBits (x : Amplitude) : Nat := 19 + Nat.log2 (max x.num x.den)

/-- Whether an amplitude is at most 1 (00_scope.md R5), at precision `p`; what the last precision does not settle is
equal to 1. -/
def atMostOneAt (x : Amplitude) (last : Bool) (p : Nat) : Option Bool :=
  let v := amplitudeDivisor p (halfPi p) x
  if (x.num : Int) * 2 ^ p ≤ v.lo then some true
  else if v.hi < (x.num : Int) * 2 ^ p then some false
  else if last then some true
  else none

/-- Whether an amplitude is at most 1 (00_scope.md R5). -/
def amplitudeAtMostOne (x : Amplitude) : Bool :=
  (refine (atMostOneAt x) (depthFor (amplitudeBits x) (4 * x.turnDen)) firstPrecision).getD false

end Sys2Proof.Machine
end

