-- ==== Sys2Proof/Machine/FrameDemodulator.lean ====
section
/-!
DEFINITION. FrameDemodulator: de-quantisation, the Hann window, the transform, the threshold, the bin selection, the
decision and FDEM (44_frame_demodulator.md R140 to R146).
-/

namespace Sys2Proof.Machine

/-- The window's samples as integers `q[n]`; `x[n] = q[n] / 32768` (44_frame_demodulator.md R140). The common factor
1/32768 is left out of the transform: the decision of R145 is relative. -/
def windowInts (win : List Sample) : List Int := win.map BitVec.toInt

/-- `2 · w[n]`, twice the symmetric Hann window of length `f`: `1 − cos(2π · n / (F − 1))`, and 2 when `F = 1`
(44_frame_demodulator.md R141), at scale `2^p`. -/
def hannTwice (p : Nat) (hp : Int) (f n : Nat) : Iv :=
  if f ≤ 1 then .exact (2 * 2 ^ p) else (Iv.exact (2 ^ p)).add (cosIv p hp n (f - 1)).neg

/-- The windowed samples `u[n] = x[n] · w[n]` (44_frame_demodulator.md R141), times `2 · 32768`. -/
def windowed (p : Nat) (hp : Int) (q : List Int) : List Iv :=
  q.zipIdx.map fun x => (hannTwice p hp q.length x.2).scale x.1

/-- `Σ u[n] · t[k·n mod F]`, the real or the imaginary part of `X[k]` up to sign from a table of the cosines or sines of
`2π · j / F` (44_frame_demodulator.md R142), at scale `2^(2p)`. -/
def binSum (u : List Iv) (t : Array Iv) (k : Nat) : Iv :=
  Iv.sum (u.zipIdx.map fun x => x.1.mul (t.getD (k * x.2 % u.length) (.exact 0)))

/-- `|X[k]|²` for `k = 0 … ⌊F/2⌋` (44_frame_demodulator.md R142), times `(2 · 32768)²`, at scale `2^(4p)`. -/
def spectrum (p : Nat) (q : List Int) : List Iv :=
  let hp := halfPi p
  let u := windowed p hp q
  let cosines := ((List.range q.length).map fun j => cosIv p hp j q.length).toArray
  let sines := ((List.range q.length).map fun j => sinIv p hp j q.length).toArray
  (List.range (q.length / 2 + 1)).map fun k => (binSum u cosines k).sq.add (binSum u sines k).sq

/-- The distance `| k · fs / F − f[i] |` of bin `k` from the frequency `num / den` (44_frame_demodulator.md R144), times
`F · den`: a natural number. -/
def binDistance (fs f den num k : Nat) : Nat := ((k * fs * den : Int) - num * f).natAbs

/-- The least of the candidates at which `g` is smallest, `best` being the first candidate. -/
def argminFrom (g : Nat → Nat) (best : Nat) : List Nat → Nat
  | [] => best
  | k :: t => argminFrom g (if g k < g best then k else best) t

/-- `k_i`, the bin nearest to the frequency `num / den`, the lowest of two equally near (44_frame_demodulator.md
R144). -/
def nearestBin (fs f den num : Nat) : Nat :=
  argminFrom (binDistance fs f den num) 0 (List.range (f / 2 + 1))

/-- `M[k_i] > T` with `T = (3/10) · Mmax`, that is `100 · |X[k_i]|² > 9 · max |X[k]|²` (44_frame_demodulator.md R143,
R145), from enclosures of the two squares. At the last precision an unsettled comparison is an equality: not above. -/
def decideBit (last : Bool) (top m : Iv) : Option Bit :=
  if Config.detNum ^ 2 * top.hi < Config.detDen ^ 2 * m.lo then some 1
  else if Config.detDen ^ 2 * m.hi ≤ Config.detNum ^ 2 * top.lo ∨ last = true then some 0
  else none

/-- The bits of the channels whose bins are `bins` at precision `p`, if that settles every one. -/
def fdemAt (q : List Int) (bins : List Nat) (last : Bool) (p : Nat) : Option (List Bit) :=
  let m := (spectrum p q).toArray
  let top := Iv.sup m.toList
  allSettled (bins.map fun k => decideBit last top (m.getD k (.exact 0)))

/-- The doublings of precision after which a window is settled. -/
def fdemDepth (q : List Int) : Nat :=
  depthFor (18 + 2 * Nat.log2 (q.map Int.natAbs).sum) (q.length * max (q.length - 1) 1)

/-- The decision on a window whose samples are the integers `q`. -/
def fdemBits (q : List Int) (bins : List Nat) : List Bit :=
  (refine (fdemAt q bins) (fdemDepth q) firstPrecision).getD []

/-- The bins `k_0 … k_(N−1)` of the plan (44_frame_demodulator.md R144). -/
def State.channelBins (s : State) : List Nat := s.plan.map (nearestBin s.fs s.fLen s.den)

/-- `fdem(win)`, `N` bits (44_frame_demodulator.md R145). -/
def State.fdemWindow (s : State) (win : List Sample) : List Bit := fdemBits (windowInts win) s.channelBins

/-- `WAVE[off : off + F)`. -/
def State.window (s : State) (off : Nat) : List Sample := (s.wave.drop off).take s.fLen

/-- FDEM, demodulate one window (44_frame_demodulator.md R146). -/
def execFdem (s : State) : Host.Outcome State Fault Refusal :=
  .next <| s.whenReady fun s =>
    if s.wLen < s.argNat + s.fLen then s.raise .eArg s.arg
    else if s.inst.bitMax < s.nChan then s.raise .eCapacity 0
    else (s.putBits (s.fdemWindow (s.window s.argNat))).complete 0

end Sys2Proof.Machine
end

