-- ==== Sys2Proof/Machine/CarouselDemodulator.lean ====
section
/-!
DEFINITION. CarouselDemodulator: the activity test, the walk and CDEM (45_carousel_demodulator.md R150, R151).
-/

namespace Sys2Proof.Machine

/-- `max |win[n]|` over a window, over the integers: 32768 for the sample −32768 (47_common_laws.md R163 (e)). -/
def peakAbs (win : List Sample) : Nat := win.foldr (fun q m => max q.toInt.natAbs m) 0

/-- `(max |win[n]|) / 32768 > ACT_THR`, strict and exact (45_carousel_demodulator.md R150). -/
def active (c : Instance) (win : List Sample) : Bool :=
  decide (c.actThrNum * Config.dqDiv < peakAbs win * c.actThrDen)

/-- The loop of CDEM (45_carousel_demodulator.md R151): from cursor `cur` with the bits `out` gathered so far, to the
final cursor and bits. `fuel` bounds the passes: with `G ≥ 1` there are at most `max(0, W − F − P)` (R152), so
WAVE_LEN of them are never used up; in a state with `G = 0`, which no run reaches, the walk ends with the fuel
(log 11). -/
def State.walk (s : State) : Nat → Nat → List Bit → Nat × List Bit
  | 0, cur, out => (cur, out)
  | fuel + 1, cur, out =>
    if (s.fLen : Int) < (s.wLen : Int) - cur ∧ out.length ≤ s.inst.bitCap then
      if active s.inst (s.window cur) then s.walk fuel (cur + s.fLen + s.gLen) (out ++ s.fdemWindow (s.window cur))
      else s.walk fuel (cur + s.gLen) out
    else (cur, out)

/-- The walk of CDEM from the first sample after one preamble length. -/
def State.cdemResult (s : State) : Nat × List Bit := s.walk s.wLen s.pLen []

/-- CDEM, demodulate the carousel (45_carousel_demodulator.md R151). -/
def execCdem (s : State) : Host.Outcome State Fault Refusal :=
  .next <| s.whenReady fun s =>
    ((s.putBits s.cdemResult.2).setWalkFlags s.wLen s.pLen s.fLen s.cdemResult.2.length).complete
      (BitVec.ofNat 32 (min s.cdemResult.1 (2 ^ 32 - 1)))

end Sys2Proof.Machine
end

