-- ==== Sys2Proof/Machine/FrameModulator.lean ====
section
/-!
DEFINITION. FrameModulator: the chunk, the tone sum, the normalisation, the output quantiser and FMOD
(42_frame_modulator.md R120 to R124).
-/

namespace Sys2Proof.Machine

/-- `K(b) = ⌈|b| / N⌉`, the number of chunks of a stream of `len` bits (42_frame_modulator.md R120). -/
def chunkCount (len n : Nat) : Nat := (len + n - 1) / n

/-- `chunk(b, j)`: bits `jN … jN + N − 1`, those at or past `|b|` being 0 (42_frame_modulator.md R120). -/
def chunk (b : List Bit) (n j : Nat) : List Bit := (List.range n).map fun i => b.getD (j * n + i) 0

/-- The plan numerators of the channels whose bit is 1, in channel order (42_frame_modulator.md R121). -/
def activeTones (plan : List Nat) (c : List Bit) : List Nat :=
  (c.zip plan).filterMap fun x => if x.1 = 1 then some x.2 else none

/-- The tone sum `y[n] = Σ sin(2π · f[i] · n / fs)` over the active channels, `f[i] = tone / PLAN_DEN`
(42_frame_modulator.md R121): `d` is `PLAN_DEN · fs`. -/
def toneSum (p : Nat) (hp : Int) (d : Nat) (tones : List Nat) (n : Nat) : Iv :=
  Iv.sum (tones.map fun a => sinIv p hp (a * n) d)

/-- `Q(x[n])` for `n = 0 … F − 1` with `x = normalise(y)` (42_frame_modulator.md R122, R123) at precision `p`, if that
settles every sample. A frame whose peak is 0 stays at 0. -/
def frameAt (d : Nat) (tones : List Nat) (f : Nat) (last : Bool) (p : Nat) : Option (List Int) :=
  let hp := halfPi p
  let y := (List.range f).map (toneSum p hp d tones)
  let peak := Iv.sup (y.map Iv.abs)
  if peak.hi = 0 ∨ (last = true ∧ peak.lo = 0) then some (List.replicate f 0)
  else if peak.lo = 0 then none
  else allSettled (y.map (quantIv last peak))

/-- The order of the roots of unity that a frame's tones are made of. -/
def toneOrder (d : Nat) (tones : List Nat) : Nat := 4 * (d / tones.foldr Nat.gcd d)

/-- The doublings of precision after which a frame is settled. -/
def frameDepth (d : Nat) (tones : List Nat) : Nat := depthFor (19 + Nat.log2 tones.length) (toneOrder d tones)

/-- The `F` quantised samples of one frame (42_frame_modulator.md R121 to R123) as integers. -/
def frameInts (d : Nat) (tones : List Nat) (f : Nat) : List Int :=
  (refine (frameAt d tones f) (frameDepth d tones) firstPrecision).getD []

/-- `frame(j)` (43_carousel_modulator.md R132): the samples FMOD writes for a chunk. -/
def frameSamples (fs den f : Nat) (plan : List Nat) (c : List Bit) : List Sample :=
  (frameInts (den * fs) (activeTones plan c) f).map (BitVec.ofInt 16)

/-- The frame of chunk `j` of the stream in BITS. -/
def State.frame (s : State) (j : Nat) : List Sample :=
  frameSamples s.fs s.den s.fLen s.plan (chunk s.bits s.nChan j)

/-- FMOD, modulate one frame (42_frame_modulator.md R124). -/
def execFmod (s : State) : Host.Outcome State Fault Refusal :=
  .next <| s.whenReady fun s =>
    if chunkCount s.bitsLen.toNat s.nChan ≤ s.argNat then s.raise .eArg s.arg
    else if s.inst.waveMax < s.fLen then s.raise .eCapacity 0
    else (s.putWave (s.frame s.argNat)).complete 0

end Sys2Proof.Machine
end

