-- ==== Sys2Proof/Machine/CarouselModulator.lean ====
section
/-!
DEFINITION. CarouselModulator: the preamble, the gaps, one cycle and CMOD (43_carousel_modulator.md R130 to R133).
-/

namespace Sys2Proof.Machine

/-- `Q(PRE_AMP · sin(2π · fp · n / fs))` for `n = 0 … P − 1` (43_carousel_modulator.md R130) at precision `p`, if that
settles every sample. The preamble is not normalised by its own peak. -/
def preambleAt (fs fp : Nat) (amp : Amplitude) (len : Nat) (last : Bool) (p : Nat) : Option (List Int) :=
  let hp := halfPi p
  let v := amplitudeDivisor p hp amp
  if v.lo ≤ 0 then none
  else allSettled ((List.range len).map fun n => quantIv last v ((sinIv p hp (fp * n) fs).scale amp.num))

/-- The order of the roots of unity that the preamble and its amplitude are made of. -/
def preambleOrder (fs fp : Nat) (amp : Amplitude) : Nat := Nat.lcm (toneOrder fs [fp]) (4 * amp.turnDen)

/-- The preamble's samples as integers (43_carousel_modulator.md R130). -/
def preambleInts (fs fp : Nat) (amp : Amplitude) (len : Nat) : List Int :=
  (refine (preambleAt fs fp amp len) (depthFor (amplitudeBits amp) (preambleOrder fs fp amp)) firstPrecision).getD []

/-- `pre`, the preamble segment (43_carousel_modulator.md R130). -/
def State.preamble (s : State) : List Sample := (preambleInts s.fs s.fp s.inst.preAmp s.pLen).map (BitVec.ofInt 16)

/-- `K`, the number of chunks of the stream in BITS. -/
def State.chunks (s : State) : Nat := chunkCount s.bitsLen.toNat s.nChan

/-- `cycle(b) = pre ++ frame(0) ++ zeros(G) ++ … ++ frame(K−1) ++ zeros(G) ++ zeros(C)` (43_carousel_modulator.md
R131, R132). -/
def State.cycle (s : State) : List Sample :=
  s.preamble ++ (List.range s.chunks).flatMap (fun j => s.frame j ++ zeroSamples s.gLen) ++ zeroSamples s.cLen

/-- `L = R · (P + K·(F + G) + C)`, over the integers (43_carousel_modulator.md R133, R134). -/
def State.carouselLen (s : State) : Nat := s.rCount * (s.pLen + s.chunks * (s.fLen + s.gLen) + s.cLen)

/-- `R` copies of the cycle (43_carousel_modulator.md R133). -/
def State.carousel (s : State) : List Sample := (List.replicate s.rCount s.cycle).flatten

/-- CMOD, modulate the whole carousel (43_carousel_modulator.md R133). -/
def execCmod (s : State) : Host.Outcome State Fault Refusal :=
  .next <| s.whenReady fun s =>
    if s.inst.waveMax < s.carouselLen then s.raise .eCapacity 0
    else (s.putWave s.carousel).complete (BitVec.ofNat 32 s.chunks)

end Sys2Proof.Machine
end

