-- ==== Sys2Proof/Machine/ConfigPlan.lean ====
section
/-!
DEFINITION. Configuration and the FrequencyPlan: CFG (40_config_plan.md R100, R101).
-/

namespace Sys2Proof.Machine

/-- The ten checks of CFG in the order of their mask bits, `true` where the check fails (40_config_plan.md R100). -/
def State.configChecks (s : State) : List Bool :=
  [ decide (s.sampleRate.toNat < 1),
    decide (s.channelCount.toNat < 1),
    decide (s.inst.nMax < s.channelCount.toNat),
    decide (s.freqMax.toNat ≤ s.freqMin.toNat),
    decide (s.frameLen.toNat < 1),
    decide (s.preLen.toNat < 1),
    decide (s.gapLen.toNat < 1),
    decide (s.cgapLen.toNat < 1),
    decide (s.repeatCount.toNat < 1),
    decide (s.preFreq.toNat ≤ s.freqMax.toNat) ]

/-- The number whose bit `i` is the `i`-th member of the list. -/
def maskOf : List Bool → Nat
  | [] => 0
  | b :: t => b.toNat + 2 * maskOf t

/-- The cause mask `m` (40_config_plan.md R100). -/
def State.configMask (s : State) : Nat := maskOf s.configChecks

/-- `max(N − 1, 1)` (10_state.md R39, 40_config_plan.md R100). -/
def planDenOf (n : Nat) : Nat := max (n - 1) 1

/-- The numerators `FREQ_MIN · PLAN_DEN + i · (FREQ_MAX − FREQ_MIN)` (40_config_plan.md R100). -/
def planOf (fmin fmax n : Nat) : List Numerator :=
  (List.range n).map fun i => BitVec.ofNat 64 (fmin * planDenOf n + i * (fmax - fmin))

/-- CFG, configure and freeze (40_config_plan.md R100). -/
def execCfg (s : State) : Host.Outcome State Fault Refusal :=
  .next <| s.whenUnconfigured fun s =>
    if s.configMask ≠ 0 then State.raise { s with mode := .failed } .eConfig (BitVec.ofNat 32 s.configMask)
    else
      State.complete
        { s.putPlan (planDenOf s.nChan) (planOf s.freqMin.toNat s.freqMax.toNat s.nChan) with mode := .ready } 0

end Sys2Proof.Machine
end

