-- ==== Sys2Proof/Machine/Dispatch.lean ====
section
/-! DEFINITION. One arm per command (30_encoding.md R71): each a direct call of the command's meaning. -/

namespace Sys2Proof.Machine

def exec (i : Instr) (s : State) : Host.Outcome State Fault Refusal :=
  match i with
  | .cfg => Sys2Proof.Machine.execCfg s
  | .tnorm => Sys2Proof.Machine.execTnorm s
  | .t2b => Sys2Proof.Machine.execT2b s
  | .repx => Sys2Proof.Machine.execRepx s
  | .fmod => Sys2Proof.Machine.execFmod s
  | .cmod => Sys2Proof.Machine.execCmod s
  | .fdem => Sys2Proof.Machine.execFdem s
  | .cdem => Sys2Proof.Machine.execCdem s
  | .repc => Sys2Proof.Machine.execRepc s
  | .b2t => Sys2Proof.Machine.execB2t s

end Sys2Proof.Machine
end

