-- ==== Sys2Proof/Machine/HostMoves.lean ====
section
/-!
DEFINITION. The host's moves other than a command (20_memory.md R58): reset (70_reset_and_hazards.md R190), register
accesses (10_state.md R21 to R39) and buffer accesses (20_memory.md R54, R57).
-/

namespace Sys2Proof.Machine

/-- The word a move writes to CMD, register 0, if it does: the move is then a command (10_state.md R22). -/
def HostMove.commandWord : HostMove → Option Word
  | .writeReg index v => if index = 0 then some v else none
  | .reset | .readReg _ | .writeBuf _ _ _ | .readBuf _ _ => none

/-- Reset (70_reset_and_hazards.md R190): every register 0, STATE = UNCONFIGURED, every element of every buffer
unspecified. The instance parameters are no state of the block (00_scope.md R5); the moves to come and the latest reply
are the host's (log 12). -/
def State.hostReset (s : State) : State :=
  { State.reset with
    mem := ⟨s.mem.txt.forget, s.mem.bits.forget, s.mem.wave.forget, s.mem.plan.forget⟩
    inst := s.inst
    pending := s.pending
    reply := s.reply }

/-- A write of access RWL (10_state.md R37): served in UNCONFIGURED, elsewhere ignored with ERRS.LOCKWR set. -/
def State.lockedWrite (s t : State) : State :=
  match s.mode with
  | .unconfigured => t
  | .ready | .failed => s.lockWr

/-- WriteReg(index, v) for every index but CMD's (10_state.md R21, R23, R27 to R38). -/
def State.hostWriteReg (s : State) (index : Nat) (v : Word) : State :=
  match index with
  | 0 => s
  | 1 => { s with arg := v }
  | 5 => if v.toNat ≤ s.inst.txtMax then s.setTextLen v else s.hostAcc
  | 6 => if v.toNat ≤ s.inst.bitMax then s.setBitsLen v else s.hostAcc
  | 7 => if v.toNat ≤ s.inst.waveMax then s.setWaveLen v else s.hostAcc
  | 8 => s.lockedWrite { s with sampleRate := v }
  | 9 => s.lockedWrite { s with channelCount := v }
  | 10 => s.lockedWrite { s with freqMin := v }
  | 11 => s.lockedWrite { s with freqMax := v }
  | 12 => s.lockedWrite { s with frameLen := v }
  | 13 => s.lockedWrite { s with repeatCount := v }
  | 14 => s.lockedWrite { s with preFreq := v }
  | 15 => s.lockedWrite { s with preLen := v }
  | 16 => s.lockedWrite { s with gapLen := v }
  | 17 => s.lockedWrite { s with cgapLen := v }
  | _ => s.hostAcc

/-- The value of register `index`; CMD reads 0, an index from 19 up is unimplemented (10_state.md R21). -/
def State.register (s : State) (index : Nat) : Option Word :=
  match index with
  | 0 => some 0
  | 1 => some s.arg
  | 2 => some s.statusWord
  | 3 => some s.errs
  | 4 => some s.info
  | 5 => some s.txtLen
  | 6 => some s.bitsLen
  | 7 => some s.waveLen
  | 8 => some s.sampleRate
  | 9 => some s.channelCount
  | 10 => some s.freqMin
  | 11 => some s.freqMax
  | 12 => some s.frameLen
  | 13 => some s.repeatCount
  | 14 => some s.preFreq
  | 15 => some s.preLen
  | 16 => some s.gapLen
  | 17 => some s.cgapLen
  | 18 => some s.planDen
  | _ => none

/-- A host read that is served: it returns `d` and changes nothing of the block (20_memory.md R56). -/
def State.answer (s : State) (d : HostData) : State := { s with reply := some d }

/-- ReadReg(index) (10_state.md R21). -/
def State.hostReadReg (s : State) (index : Nat) : State :=
  match s.register index with
  | some v => s.answer (.word v)
  | none => s.hostAcc.answer (.word 0)

/-- The number of elements of a space (20_memory.md R50). -/
def State.capacity (s : State) : Space → Nat
  | .txt => s.inst.txtMax
  | .bits => s.inst.bitMax
  | .wave => s.inst.waveMax
  | .plan => s.inst.nMax

/-- WriteBuf(space, index, v): the low bits of the data are kept (20_memory.md R54); out of range or PLAN, the write is
ignored and ERRS.HOSTACC set (20_memory.md R57, 10_state.md R39). -/
def State.hostWriteBuf (s : State) (sp : Space) (index : Nat) (v : Word) : State :=
  if s.capacity sp ≤ index then s.hostAcc
  else
    match sp with
    | .txt => { s with mem := { s.mem with txt := s.mem.txt.set index v } }
    | .bits => { s with mem := { s.mem with bits := s.mem.bits.set index (v.setWidth 1) } }
    | .wave => { s with mem := { s.mem with wave := s.mem.wave.set index (v.setWidth 16) } }
    | .plan => s.hostAcc

/-- Whether a host read of PLAN at `index` is out of range: at or above N_MAX, or at or above `N` in READY
(10_state.md R39). -/
def State.planOutOfRange (s : State) (index : Nat) : Bool :=
  decide (s.inst.nMax ≤ index) || (decide (s.mode = .ready) && decide (s.channelCount.toNat ≤ index))

/-- ReadBuf(space, index): zero-extended, sign-extended for WAVE (20_memory.md R54; log 5); out of range it returns 0
and sets ERRS.HOSTACC (20_memory.md R57, 10_state.md R39). -/
def State.hostReadBuf (s : State) (sp : Space) (index : Nat) : State :=
  match sp with
  | .txt =>
    if s.inst.txtMax ≤ index then s.hostAcc.answer (.word 0)
    else s.answer (.word (s.mem.txt.get .txt index))
  | .bits =>
    if s.inst.bitMax ≤ index then s.hostAcc.answer (.word 0)
    else s.answer (.word ((s.mem.bits.get .bits index).setWidth 32))
  | .wave =>
    if s.inst.waveMax ≤ index then s.hostAcc.answer (.word 0)
    else s.answer (.word ((s.mem.wave.get .wave index).signExtend 32))
  | .plan =>
    if s.planOutOfRange index then s.hostAcc.answer (.numerator 0)
    else s.answer (.numerator (s.mem.plan.get .plan index))

/-- A host move that is no command. -/
def State.hostMove (s : State) : HostMove → State
  | .reset => s.hostReset
  | .writeReg index v => s.hostWriteReg index v
  | .readReg index => s.hostReadReg index
  | .writeBuf sp index v => s.hostWriteBuf sp index v
  | .readBuf sp index => s.hostReadBuf sp index

end Sys2Proof.Machine
end

