-- ==== Sys2Proof/Machine/Step.lean ====
section
/-!
DEFINITION. One step: the block serves the host's next move (20_memory.md R58, R62). A write to CMD decodes the word and
runs the command as one atomic transition (10_state.md R22, 30_encoding.md R78).
-/

namespace Sys2Proof.Machine

/-- A word written to CMD: E_ILLEGAL if it is no legal command, before the state is looked at (30_encoding.md R78 step
1, 60_exceptions.md R172); else the command it stands for. -/
def command (v : Word) (s : State) : Host.Outcome State Fault Refusal :=
  match decode v with
  | .error _ => .next (s.illegalCommand v)
  | .ok i => exec i s

/-- One host move, whole. -/
def serve (m : HostMove) (s : State) : Host.Outcome State Fault Refusal :=
  match m.commandWord with
  | some v => command v s
  | none => .next (s.hostMove m)

/-- The next of the host's moves is taken off the list and served; with none to come nothing happens, the block having
nothing pending of its own (47_common_laws.md R166; log 4). -/
def step (s : State) : Host.Outcome State Fault Refusal :=
  match s.pending with
  | [] => .next s
  | m :: rest => serve m { s with pending := rest }

/-- The state in which the host's next move writes the word of a table row to CMD (log 13). -/
def State.withFetchWord (s : State) (nbits w : Nat) : State :=
  { s with pending := .writeReg 0 (BitVec.ofNat 32 (w % 2 ^ nbits)) :: s.pending }

end Sys2Proof.Machine
end

