-- ==== Sys2Proof/Signal.lean ====
section
/-!
DEFINITION. The rules of the signal path word for word over the real numbers (42_frame_modulator.md R121 to R123,
43_carousel_modulator.md R130, 44_frame_demodulator.md R140 to R145). Nothing runs these definitions: they are what
Sys2Proof/Laws and the statements compare the machine's exact decisions with.
-/

namespace Sys2Proof.Signal

/-- `rne(x)`: the nearest integer, a tie going to the even one (00_scope.md R9). -/
noncomputable def rne (x : ℝ) : ℤ :=
  if x - ⌊x⌋ < 1 / 2 then ⌊x⌋ else if 1 / 2 < x - ⌊x⌋ then ⌊x⌋ + 1 else if ⌊x⌋ % 2 = 0 then ⌊x⌋ else ⌊x⌋ + 1

/-- The output quantiser `Q(x) = rne(32767 · x)` (42_frame_modulator.md R123). -/
noncomputable def quantise (x : ℝ) : ℤ := rne (32767 * x)

/-- The carrier frequency `f[i] = PLAN[i] / PLAN_DEN` in hertz (40_config_plan.md R101). -/
noncomputable def carrier (den : ℕ) (plan : List ℕ) (i : ℕ) : ℝ := (plan.getD i 0 : ℝ) / den

/-- `y[n] = Σ over i with c[i] = 1 of sin(2π · f[i] · n / fs)` (42_frame_modulator.md R121). -/
noncomputable def toneSum (fs den : ℕ) (plan : List ℕ) (c : List Bit) (n : ℕ) : ℝ :=
  ∑ i ∈ Finset.range c.length,
    if c.getD i 0 = 1 then Real.sin (2 * Real.pi * carrier den plan i * n / fs) else 0

/-- `peak = max over n in 0 … F − 1 of |y[n]|` (42_frame_modulator.md R122). -/
noncomputable def peak (y : ℕ → ℝ) (f : ℕ) : ℝ := ((List.range f).map fun n => |y n|).foldr max 0

/-- `x = normalise(y)` (42_frame_modulator.md R122). -/
noncomputable def normalise (y : ℕ → ℝ) (f n : ℕ) : ℝ := if peak y f = 0 then 0 else y n / peak y f

/-- The real number an amplitude stands for (00_scope.md R5, PRE_AMP). -/
noncomputable def amplitude (x : Amplitude) : ℝ :=
  (x.num : ℝ) / (x.den * Real.sin (2 * Real.pi * x.turnNum / x.turnDen))

/-- The preamble before quantisation, `PRE_AMP · sin(2π · fp · n / fs)` (43_carousel_modulator.md R130). -/
noncomputable def preamble (fs fp : ℕ) (amp : ℝ) (n : ℕ) : ℝ := amp * Real.sin (2 * Real.pi * fp * n / fs)

/-- The symmetric Hann window `w[n]` (44_frame_demodulator.md R141). -/
noncomputable def hann (f n : ℕ) : ℝ :=
  if f = 1 then 1 else 1 / 2 - 1 / 2 * Real.cos (2 * Real.pi * n / (f - 1))

/-- The windowed samples `u[n] = x[n] · w[n]` with `x[n] = q[n] / 32768` (44_frame_demodulator.md R140, R141). -/
noncomputable def windowed (q : List ℤ) (n : ℕ) : ℝ := (q.getD n 0 : ℝ) / 32768 * hann q.length n

/-- `X[k] = Σ u[n] · exp(−2πi · k · n / F)` (44_frame_demodulator.md R142). -/
noncomputable def transform (q : List ℤ) (k : ℕ) : ℂ :=
  ∑ n ∈ Finset.range q.length, (windowed q n : ℂ) * Complex.exp (-2 * Real.pi * Complex.I * k * n / q.length)

/-- `M[k] = |X[k]|` (44_frame_demodulator.md R142). -/
noncomputable def magnitude (q : List ℤ) (k : ℕ) : ℝ := ‖transform q k‖

/-- `Mmax = max over k in 0 … ⌊F/2⌋ of M[k]` (44_frame_demodulator.md R143). -/
noncomputable def magnitudeMax (q : List ℤ) : ℝ := ((List.range (q.length / 2 + 1)).map (magnitude q)).foldr max 0

/-- The threshold `T = (3/10) · Mmax` (44_frame_demodulator.md R143). -/
noncomputable def threshold (q : List ℤ) : ℝ := 3 / 10 * magnitudeMax q

end Sys2Proof.Signal
end

