-- ==== Sys2Proof/WellFormed.lean ====
section
/-!
DEFINITION. Which terms are well formed: every command (it has no operand to be out of range, 30_encoding.md R72), and
the instance parameters that meet the constraints of 00_scope.md R5.
-/

namespace Sys2Proof

/-- A command carries no register number, no immediate and no mode bit (30_encoding.md R70), so none is ill formed. -/
def Instr.wf : Instr → Bool
  | .cfg | .tnorm | .t2b | .repx | .fmod | .cmod | .fdem | .cdem | .repc | .b2t => true

/-- N_MAX is at least 1 (00_scope.md R5). -/
def Instance.nMaxOk (c : Instance) : Bool := 1 ≤ c.nMax

/-- TXT_MAX is at least 1 (00_scope.md R5) and fits the register TXT_LEN (DEDUCED, log 9). -/
def Instance.txtMaxOk (c : Instance) : Bool := 1 ≤ c.txtMax && c.txtMax < 2 ^ 32

/-- BIT_MAX is at least 16·TXT_MAX and at least BIT_CAP + N_MAX (00_scope.md R5) and fits the register BITS_LEN
(DEDUCED, log 9). -/
def Instance.bitMaxOk (c : Instance) : Bool :=
  16 * c.txtMax ≤ c.bitMax && c.bitCap + c.nMax ≤ c.bitMax && c.bitMax < 2 ^ 32

/-- 1 ≤ WAVE_MAX < 2^32 (00_scope.md R5). -/
def Instance.waveMaxOk (c : Instance) : Bool := 1 ≤ c.waveMax && c.waveMax < 2 ^ 32

/-- BIT_CAP is at least 1 (00_scope.md R5). -/
def Instance.bitCapOk (c : Instance) : Bool := 1 ≤ c.bitCap

/-- 0 ≤ ACT_THR < 1 (00_scope.md R5); the denominator is not zero because the numerator is below it. -/
def Instance.actThrOk (c : Instance) : Bool := c.actThrNum < c.actThrDen

/-- 0 < PRE_AMP ≤ 1 (00_scope.md R5), its divisor being the sine of a turn between 0 and a half. -/
def Instance.preAmpOk (c : Instance) : Bool :=
  0 < c.preAmp.num && 0 < c.preAmp.den && 0 < c.preAmp.turnNum && 2 * c.preAmp.turnNum < c.preAmp.turnDen &&
    Machine.amplitudeAtMostOne c.preAmp

/-- The constraints of 00_scope.md R5 on the instance parameters. -/
def Instance.wf (c : Instance) : Bool :=
  c.nMaxOk && c.txtMaxOk && c.bitMaxOk && c.waveMaxOk && c.bitCapOk && c.actThrOk && c.preAmpOk

end Sys2Proof
end

