-- ==== Sys2Proof/Safety.lean ====
section
/-!
DEFINITION. What the statements speak of: the host's view of a state (every register and every buffer element), what an
event leaves alone, the invariant of the runs from reset, and the rules of TNORM, FDEM and CDEM as relations, written
from the spec beside the functions of Sys2Proof/Machine.
-/

namespace Sys2Proof.Machine

/-- Element `i` of a buffer space as a natural, its bits read unsigned: the model's read of one element (20_memory.md
R50, 00_scope.md R9 MemRead). -/
def State.element (s : State) (sp : Space) (i : Nat) : Nat :=
  match sp with
  | .txt => (s.mem.txt.get .txt i).toNat
  | .bits => (s.mem.bits.get .bits i).toNat
  | .wave => (s.mem.wave.get .wave i).toNat
  | .plan => (s.mem.plan.get .plan i).toNat

/-- Element `i` of a space is specified: something has written it since the spec last left it unspecified. Any other
element reads as a free value (20_memory.md R59, 93_implementation_defined.md U4, U5; log 6, log 7). -/
def State.Specified (s : State) (sp : Space) (i : Nat) : Prop :=
  match sp with
  | .txt => i ∈ s.mem.txt.cells.map Prod.fst
  | .bits => i ∈ s.mem.bits.cells.map Prod.fst
  | .wave => i ∈ s.mem.wave.cells.map Prod.fst
  | .plan => i ∈ s.mem.plan.cells.map Prod.fst

/-- The length register of a buffer; of PLAN, its number of entries `N` (20_memory.md R50, 10_state.md R38, R39). -/
def State.lengthOf (s : State) (sp : Space) : Nat :=
  match sp with
  | .txt => s.txtLen.toNat
  | .bits => s.bitsLen.toNat
  | .wave => s.waveLen.toNat
  | .plan => s.nChan

/-- The number of bits of an element (20_memory.md R50). -/
def Space.width : Space → Nat
  | .txt => 32
  | .bits => 1
  | .wave => 16
  | .plan => 64

/-- How many elements of a space the host can write, and the largest value its length register takes (20_memory.md R50,
R57, 10_state.md R38, R39). -/
def State.writableElements (s : State) (sp : Space) : Nat :=
  match sp with
  | .txt => s.inst.txtMax
  | .bits => s.inst.bitMax
  | .wave => s.inst.waveMax
  | .plan => 0

/-- A host read of element `i` is in range: below the capacity, and in PLAN below `N` in READY (20_memory.md R57,
10_state.md R39). -/
def State.Readable (s : State) (sp : Space) (i : Nat) : Prop :=
  match sp with
  | .txt => i < s.inst.txtMax
  | .bits => i < s.inst.bitMax
  | .wave => i < s.inst.waveMax
  | .plan => i < s.inst.nMax ∧ (s.mode = .ready → i < s.nChan)

/-- What a host read of the element `x` answers: zero-extended to 32 bits, sign-extended from WAVE, 64 bits from PLAN
(20_memory.md R54; log 5). -/
def Space.extended (sp : Space) (x : Nat) : HostData :=
  match sp with
  | .txt | .bits => .word (BitVec.ofNat 32 x)
  | .wave => .word ((BitVec.ofNat 16 x).signExtend 32)
  | .plan => .numerator (BitVec.ofNat 64 x)

/-- `t` differs from `s` at most in the registers whose indices are in `regs` and in the elements of the spaces in
`sps`: every other register (10_state.md R21) and every element of every other space read the same, and the instance
parameters, the host's moves to come and its latest reply are the same. -/
def State.Frame (regs : List Nat) (sps : List Space) (s t : State) : Prop :=
  (∀ k, k ∉ regs → t.register k = s.register k) ∧ (∀ sp, sp ∉ sps → ∀ i, t.element sp i = s.element sp i) ∧
    t.inst = s.inst ∧ t.pending = s.pending ∧ t.reply = s.reply

/-- The four fields of STATUS beside LAST are the same (10_state.md R24). -/
def State.SameStatusButLast (s t : State) : Prop :=
  t.mode = s.mode ∧ t.nosig = s.nosig ∧ t.caphit = s.caphit ∧ t.short = s.short

/-- `t` is `s` after `raise e(info)`, and nothing more (60_exceptions.md R173): LAST, one bit of ERRS, INFO. -/
def State.Raised (e : ErrCode) (info : Word) (s t : State) : Prop :=
  t.last = e ∧ t.info = info ∧ (∀ b, t.errs.getLsbD b = (s.errs.getLsbD b || decide (b = e.code))) ∧
    s.SameStatusButLast t ∧ s.Frame [2, 3, 4] [] t

/-- `t` is `s` after a command that completed with INFO `info` and wrote nothing but STATUS, INFO, the length register
`reg` and the elements of the space `sp` (30_encoding.md R78, 20_memory.md R55). -/
def State.Completed (info : Word) (reg : Nat) (sp : Space) (s t : State) : Prop :=
  t.last = .eNone ∧ t.info = info ∧ s.Frame [2, 4, reg] [sp] t

/-- What holds of every state that a run from reset reaches, whatever the instance. -/
structure State.Inv (s : State) : Prop where
  /-- The instance meets the constraints of 00_scope.md R5. -/
  instWf : s.inst.wf = true
  /-- The buffers are in canonical form (log 8). -/
  memWf : s.mem.wf
  /-- Every listed element lies below the capacity of its space (20_memory.md R50, R57). -/
  cellsBelow : (∀ c ∈ s.mem.txt.cells, c.1 < s.inst.txtMax) ∧ (∀ c ∈ s.mem.bits.cells, c.1 < s.inst.bitMax) ∧
    (∀ c ∈ s.mem.wave.cells, c.1 < s.inst.waveMax) ∧ ∀ c ∈ s.mem.plan.cells, c.1 < s.inst.nMax
  /-- No length register is above its buffer's capacity (10_state.md R38). -/
  lengths : s.txtLen.toNat ≤ s.inst.txtMax ∧ s.bitsLen.toNat ≤ s.inst.bitMax ∧ s.waveLen.toNat ≤ s.inst.waveMax
  /-- Bits 0, 7 and 31:10 of ERRS are 0 (10_state.md R25). -/
  errsReserved : s.errs &&& ~~~errsDefined = 0
  /-- The error of the last command is recorded in ERRS (10_state.md R25, 60_exceptions.md R170). -/
  lastRecorded : s.last ≠ .eNone → s.errs.getLsbD s.last.code = true
  /-- SHORT implies NOSIG, and CAPHIT excludes it (45_carousel_demodulator.md R153). -/
  flags : (s.short = true → s.nosig = true) ∧ (s.caphit = true → s.nosig = false)
  /-- Outside READY there is no plan: PLAN_DEN reads 0 (10_state.md R39, R46). -/
  unplanned : s.mode ≠ .ready → s.planDen = 0
  /-- A rejected configuration stays as it was rejected (10_state.md R37, R46). -/
  rejected : s.mode = .failed → s.configMask ≠ 0
  /-- In READY the frozen configuration passes every check of CFG and PLAN is its plan (40_config_plan.md R100, R101). -/
  planned : s.mode = .ready → s.configMask = 0 ∧ s.planDen.toNat = planDenOf s.nChan ∧
    s.mem.plan.take .plan s.nChan = planOf s.freqMin.toNat s.freqMax.toNat s.nChan

/-- The six characters TNORM treats as whitespace, the set WS of 00_scope.md R5. -/
abbrev IsWhitespace (c : Word) : Prop :=
  c = 0x09 ∨ c = 0x0A ∨ c = 0x0B ∨ c = 0x0C ∨ c = 0x0D ∨ c = 0x20

/-- `out` is the text `t` normalised (41_bit_encoder.md R110): every maximal run of whitespace is one space, every other
character is copied. -/
inductive Normalised : List Word → List Word → Prop where
  | empty : Normalised [] []
  | copy {c : Word} {t out : List Word} : ¬ IsWhitespace c → Normalised t out → Normalised (c :: t) (c :: out)
  | run {r t out : List Word} : r ≠ [] → (∀ c ∈ r, IsWhitespace c) → (∀ c ∈ t.head?, ¬ IsWhitespace c) →
      Normalised t out → Normalised (r ++ t) (0x20 :: out)

/-- Bin `k` of a window of `f` samples is the nearest to the frequency `x`, and the lowest such (44_frame_demodulator.md
R144). -/
def NearestBin (fs f : Nat) (x : ℚ) (k : Nat) : Prop :=
  k ≤ f / 2 ∧ (∀ j, j ≤ f / 2 → |(k * fs : ℚ) / f - x| ≤ |(j * fs : ℚ) / f - x|) ∧
    ∀ j, j < k → |(k * fs : ℚ) / f - x| < |(j * fs : ℚ) / f - x|

/-- `b` is `fdem(win)` (44_frame_demodulator.md R140 to R145): `N` bits, bit `i` being 1 exactly when the magnitude at
the bin nearest to channel `i` exceeds the threshold. -/
def State.IsFdem (s : State) (win : List Sample) (b : List Bit) : Prop :=
  b.length = s.nChan ∧ ∀ i, i < s.nChan → ∃ k, NearestBin s.fs s.fLen ((s.plan.getD i 0 : ℚ) / s.den) k ∧
    (b.getD i 0 = 1 ↔ Signal.threshold (win.map BitVec.toInt) < Signal.magnitude (win.map BitVec.toInt) k)

/-- `active(win)`: the peak absolute amplitude exceeds ACT_THR (45_carousel_demodulator.md R150). -/
def State.IsActive (s : State) (win : List Sample) : Prop :=
  ∃ q ∈ win, (s.inst.actThrNum : ℚ) / s.inst.actThrDen < (|q.toInt| : ℚ) / 32768

/-- The loop test of CDEM (45_carousel_demodulator.md R151). -/
def State.WalkGoesOn (s : State) (cur : Nat) (out : List Bit) : Prop :=
  (s.fLen : Int) < (s.wLen : Int) - cur ∧ out.length ≤ s.inst.bitCap

/-- The loop of CDEM (45_carousel_demodulator.md R151): from cursor and output to the cursor and output it ends with. -/
inductive State.Walk (s : State) : Nat → List Bit → Nat → List Bit → Prop where
  | stop {cur : Nat} {out : List Bit} : ¬ s.WalkGoesOn cur out → s.Walk cur out cur out
  | active {cur cur' : Nat} {out out' b : List Bit} : s.WalkGoesOn cur out → s.IsActive (s.window cur) →
      s.IsFdem (s.window cur) b → s.Walk (cur + s.fLen + s.gLen) (out ++ b) cur' out' → s.Walk cur out cur' out'
  | silent {cur cur' : Nat} {out out' : List Bit} : s.WalkGoesOn cur out → ¬ s.IsActive (s.window cur) →
      s.Walk (cur + s.gLen) out cur' out' → s.Walk cur out cur' out'

end Sys2Proof.Machine
end

