-- ==== Sys2Proof/Certificates/Slice0/Obligations.lean ====
section
/-!
DEFINITION. The statements, from the numbered rules of spec/. `{ s with pending := rest }` is the state in which the move
under way has been taken off the list of the host's moves (log 4).
-/

open Sys2Proof Sys2Proof.Machine

/-! ## Commands: encoding, execution, outcome -/

/-- The word of each command, written out from the opcode map (30_encoding.md R70, R71), decodes to it. -/
def Obligations.TenWordsDecode : Prop :=
  decode 0x00000001#32 = .ok .cfg ∧ decode 0x00000010#32 = .ok .tnorm ∧ decode 0x00000011#32 = .ok .t2b ∧
    decode 0x00000012#32 = .ok .repx ∧ decode 0x00000013#32 = .ok .fmod ∧ decode 0x00000014#32 = .ok .cmod ∧
    decode 0x00000020#32 = .ok .fdem ∧ decode 0x00000021#32 = .ok .cdem ∧ decode 0x00000022#32 = .ok .repc ∧
    decode 0x00000023#32 = .ok .b2t

/-- Decode and encode agree, in both directions, on all 2^32 words; every command is well formed (30_encoding.md R70 to
R72). -/
def Obligations.DecodeEncodeAgree : Prop :=
  ∀ (i : Instr) (v : Word), i.wf = true ∧ (decode v = .ok i ↔ v = encode i) ∧
    (decodeTableWord 32 v.toNat = some i ↔ v = encode i)

/-- A word is legal exactly when bits 31:8 are zero and bits 7:0 are one of the ten codes; a legal word runs its command;
every other word, in every STATE, raises E_ILLEGAL with the word in INFO and changes nothing else (30_encoding.md
R73). -/
def Obligations.LegalAndIllegalWords : Prop :=
  ∀ (s : State) (v : Word) (rest : List HostMove), s.pending = .writeReg 0 v :: rest →
    if v.extractLsb' 8 24 = 0#24 ∧
        v.extractLsb' 0 8 ∈ [0x01#8, 0x10, 0x11, 0x12, 0x13, 0x14, 0x20, 0x21, 0x22, 0x23] then
      ∃ i, decode v = .ok i ∧ step s = exec i { s with pending := rest }
    else (∀ i, decode v ≠ .ok i) ∧ ∃ t, step s = .next t ∧ State.Raised .eIllegal v { s with pending := rest } t

/-- A step at which the host writes the word of a command to CMD is that command, run whole (10_state.md R22). -/
def Obligations.StepRunsDecodedCommand : Prop :=
  ∀ (s : State) (v : Word) (i : Instr) (rest : List HostMove), s.pending = .writeReg 0 v :: rest → decode v = .ok i →
    step s = exec i { s with pending := rest }

/-- A step serves the host's next move and no other; with no move to come nothing happens (20_memory.md R62; the list of
moves and the idle step are the model's choice, log 4). -/
def Obligations.StepServesNextMove : Prop :=
  (∀ s : State, s.pending = [] → step s = .next s) ∧
    ∀ (s : State) (m : HostMove) (rest : List HostMove), s.pending = m :: rest → m.commandWord = none →
      step s = .next (State.hostMove { s with pending := rest } m)

/-- The state `withFetchWord` makes runs the command of the table row's word at the very next step (log 13). -/
def Obligations.FetchedWordRuns : Prop :=
  ∀ (s : State) (i : Instr), step (s.withFetchWord 32 (encode i).toNat) = exec i s

/-- Every command ends with exactly one outcome. It completes with LAST = E_NONE and leaves ERRS alone, or it raises one
error and changes nothing but what `raise` writes, STATE changing only by E_CONFIG, to FAILED (30_encoding.md R78,
60_exceptions.md R173). -/
def Obligations.OneOutcomePreciseErrors : Prop :=
  ∀ (i : Instr) (s : State), ∃ t, exec i s = .next t ∧
    ((t.last = .eNone ∧ t.errs = s.errs) ∨
      ∃ e info, e ≠ .eNone ∧ State.Raised e info { s with mode := t.mode } t ∧
        (t.mode = s.mode ∨ (i = .cfg ∧ e = .eConfig ∧ t.mode = .failed)))

/-- No step faults or is refused: every host move is served in every state (30_encoding.md R78, 20_memory.md R58). -/
def Obligations.EveryStepIsServed : Prop := ∀ s : State, ∃ t, step s = .next t

/-- CFG outside UNCONFIGURED, and any other command outside READY, ends with E_STATE and INFO 0 and changes nothing else
(30_encoding.md R78 step 3, 10_state.md R46). -/
def Obligations.WrongStateRaisesEState : Prop :=
  ∀ (i : Instr) (s : State), (if i = .cfg then s.mode ≠ .unconfigured else s.mode ≠ .ready) →
    ∃ t, exec i s = .next t ∧ State.Raised .eState 0 s t

/-- A command writes no register but STATUS, ERRS, INFO and its destination's, and no element but its destination's
(30_encoding.md R71, 20_memory.md R50). -/
def Obligations.CommandsWriteTheirDestinationOnly : Prop :=
  ∀ (i : Instr) (s t : State), exec i s = .next t →
    match i with
    | .cfg => s.Frame [2, 3, 4, 18] [.plan] t
    | .tnorm | .b2t => s.Frame [2, 3, 4, 5] [.txt] t
    | .t2b | .repx | .fdem | .cdem | .repc => s.Frame [2, 3, 4, 6] [.bits] t
    | .fmod | .cmod => s.Frame [2, 3, 4, 7] [.wave] t

/-- After a command that completed, the elements of its destination that are specified are those below its length
register, in PLAN those below `N` (20_memory.md R55, R59). -/
def Obligations.DestinationSpecifiedBelowItsLength : Prop :=
  ∀ (i : Instr) (s t : State), s.Inv → exec i s = .next t → t.last = .eNone →
    ∀ j, match i with
      | .cfg => t.Specified .plan j ↔ j < t.lengthOf .plan
      | .tnorm | .b2t => t.Specified .txt j ↔ j < t.lengthOf .txt
      | .t2b | .repx | .fdem | .cdem | .repc => t.Specified .bits j ↔ j < t.lengthOf .bits
      | .fmod | .cmod => t.Specified .wave j ↔ j < t.lengthOf .wave

/-- An element that is not specified reads as a value of its width that no rule gives: the free value of its buffer at
its index (20_memory.md R59, 93_implementation_defined.md U4, U5; that a free value is a constant without a body is the
model's choice, log 6). -/
def Obligations.UnspecifiedElementReadsFree : Prop :=
  ∀ (s : State) (sp : Space) (i : Nat), ¬ s.Specified sp i →
    ∃ gen cuts, s.element sp i = (Config.freeElement sp.width sp.id gen cuts i).toNat

/-- Of the fields of STATUS beside LAST, a command changes STATE only if it is CFG, and NOSIG, CAPHIT and SHORT only if
it is CDEM (10_state.md R24, 45_carousel_demodulator.md R153). -/
def Obligations.FlagsWrittenByCdemOnly : Prop :=
  ∀ (i : Instr) (s t : State), exec i s = .next t →
    (i ≠ .cfg → t.mode = s.mode) ∧ (i ≠ .cdem → t.nosig = s.nosig ∧ t.caphit = s.caphit ∧ t.short = s.short)

/-- What a command does depends on nothing beyond the registers, the instance and the valid sequences: two states that
agree on these and differ in anything else (elements at or above a length register, their generations, moves to come,
the latest reply) still agree on these after it (30_encoding.md R79, 20_memory.md R59). -/
def Obligations.UnspecifiedElementsNeverMatter : Prop :=
  ∀ (i : Instr) (s u s' u' : State), s.mode = u.mode → s.last = u.last → (∀ k, s.register k = u.register k) →
    s.inst = u.inst → s.text = u.text → s.bits = u.bits → s.wave = u.wave → s.plan = u.plan →
    exec i s = .next s' → exec i u = .next u' →
    (∀ k, s'.register k = u'.register k) ∧ s'.text = u'.text ∧ s'.bits = u'.bits ∧ s'.wave = u'.wave ∧ s'.plan = u'.plan

/-! ## The life of the block -/

/-- Everything `State.Inv` says is kept by every step: the canonical form of the buffers, their capacities, the reserved
bits of ERRS, the record of the last error, the flags' relations, the frozen configuration and its plan. -/
def Obligations.InvariantKeptByStep : Prop := ∀ s t : State, s.Inv → step s = .next t → t.Inv

/-- The invariant holds at reset, for every instance that meets the constraints of 00_scope.md R5. -/
def Obligations.InvariantAtReset : Prop :=
  State.reset.Inv ∧ ∀ c : Instance, c.wf = true → State.Inv { State.reset with inst := c }

/-- The transitions of STATE are exactly reset to UNCONFIGURED and, by CFG, UNCONFIGURED to READY or FAILED
(10_state.md R46, 70_reset_and_hazards.md R191). -/
def Obligations.StateTransitions : Prop :=
  ∀ (s t : State), step s = .next t → t.mode ≠ s.mode →
    (t.mode = .unconfigured ∧ ∃ rest, s.pending = .reset :: rest) ∨
      (s.mode = .unconfigured ∧ (t.mode = .ready ∨ t.mode = .failed) ∧
        ∃ rest, s.pending = .writeReg 0 (encode .cfg) :: rest)

/-- No step but reset clears a bit of ERRS (10_state.md R25, 70_reset_and_hazards.md R191). -/
def Obligations.ErrsIsSticky : Prop :=
  ∀ (s t : State) (b : Nat), step s = .next t → s.errs.getLsbD b = true →
    t.errs.getLsbD b = true ∨ ∃ rest, s.pending = .reset :: rest

/-- Outside UNCONFIGURED no step but reset changes a configuration register, PLAN_DEN or an entry of PLAN (10_state.md
R37, 40_config_plan.md R101, 70_reset_and_hazards.md R191). -/
def Obligations.FrozenConfiguration : Prop :=
  ∀ (s t : State), s.mode ≠ .unconfigured → step s = .next t →
    (∃ rest, s.pending = .reset :: rest) ∨
      ((∀ k, 8 ≤ k → k ≤ 18 → t.register k = s.register k) ∧ (∀ i, t.element .plan i = s.element .plan i) ∧
        t.mode = s.mode ∧ t.inst = s.inst)

/-- Reset puts every register at 0 and leaves no element specified, in every state and whatever came before
(70_reset_and_hazards.md R190); that the instance, the moves to come and the latest reply stay is the model's choice
(log 12). -/
def Obligations.ResetEffect : Prop :=
  ∀ (s : State) (rest : List HostMove), s.pending = .reset :: rest →
    ∃ t, step s = .next t ∧ (∀ k, k < 19 → t.register k = some 0) ∧ t.mode = .unconfigured ∧ t.nosig = false ∧
      t.caphit = false ∧ t.short = false ∧ t.last = .eNone ∧ t.mem.txt.cells = [] ∧ t.mem.bits.cells = [] ∧
      t.mem.wave.cells = [] ∧ t.mem.plan.cells = [] ∧ t.inst = s.inst ∧ t.pending = rest ∧ t.reply = s.reply

/-! ## The host's accesses -/

/-- Where each field of STATUS lies, and that every other bit is 0 (10_state.md R24). -/
def Obligations.StatusFields : Prop :=
  ∀ s : State, s.register 2 = some s.statusWord ∧
    s.statusWord.extractLsb' 0 2 = (match s.mode with | .unconfigured => 0#2 | .ready => 1#2 | .failed => 2#2) ∧
    s.statusWord.getLsbD 2 = s.nosig ∧ s.statusWord.getLsbD 3 = s.caphit ∧ s.statusWord.getLsbD 4 = s.short ∧
    s.statusWord.extractLsb' 5 3 = 0#3 ∧
    s.statusWord.extractLsb' 8 4 = (match s.last with
      | .eNone => 0#4 | .eIllegal => 1#4 | .eState => 2#4 | .eConfig => 3#4 | .eDomain => 4#4 | .eArg => 5#4
      | .eCapacity => 6#4) ∧
    s.statusWord.extractLsb' 12 20 = 0#20

/-- A register read answers the register that the table of 10_state.md R21 has at that index and changes nothing; CMD
reads 0; an index from 19 up answers 0 and sets ERRS.HOSTACC (10_state.md R21, R22, 20_memory.md R56; the reply is the
model's, log 5). -/
def Obligations.RegisterReads : Prop :=
  ∀ (s : State) (k : Nat) (rest : List HostMove), s.pending = .readReg k :: rest →
    ∃ t, step s = .next t ∧
      (k < 19 → ∃ v, s.register k = some v ∧ t = { s with pending := rest, reply := some (.word v) } ∧
        v = [0, s.arg, s.statusWord, s.errs, s.info, s.txtLen, s.bitsLen, s.waveLen, s.sampleRate, s.channelCount,
          s.freqMin, s.freqMax, s.frameLen, s.repeatCount, s.preFreq, s.preLen, s.gapLen, s.cgapLen,
          s.planDen].getD k 0) ∧
      (19 ≤ k → t.reply = some (.word 0) ∧ (∀ b, t.errs.getLsbD b = (s.errs.getLsbD b || decide (b = 8))) ∧
        State.Frame [3] [] { s with pending := rest, reply := t.reply } t)

/-- A write to ARG is kept in every STATE; a write to STATUS, ERRS, INFO, PLAN_DEN or an index from 19 up is ignored and
sets ERRS.HOSTACC (10_state.md R21, R23). -/
def Obligations.ArgAndReadOnlyWrites : Prop :=
  ∀ (s : State) (k : Nat) (v : Word) (rest : List HostMove), s.pending = .writeReg k v :: rest →
    (k = 1 → ∃ t, step s = .next t ∧ t.register 1 = some v ∧ State.Frame [1] [] { s with pending := rest } t) ∧
      (k = 2 ∨ k = 3 ∨ k = 4 ∨ 18 ≤ k → ∃ t, step s = .next t ∧
        (∀ b, t.errs.getLsbD b = (s.errs.getLsbD b || decide (b = 8))) ∧
        State.Frame [3] [] { s with pending := rest } t)

/-- The configuration lock: a write to registers 8 to 17 is kept in UNCONFIGURED, and in READY and FAILED is ignored and
sets ERRS.LOCKWR (10_state.md R37). -/
def Obligations.ConfigurationLock : Prop :=
  ∀ (s : State) (k : Nat) (v : Word) (rest : List HostMove), 8 ≤ k → k ≤ 17 → s.pending = .writeReg k v :: rest →
    ∃ t, step s = .next t ∧
      if s.mode = .unconfigured then t.register k = some v ∧ State.Frame [k] [] { s with pending := rest } t
      else (∀ b, t.errs.getLsbD b = (s.errs.getLsbD b || decide (b = 9))) ∧
        State.Frame [3] [] { s with pending := rest } t

/-- A write to TXT_LEN, BITS_LEN or WAVE_LEN (registers 5, 6, 7) is kept up to the buffer's capacity, in every STATE;
above it, it is ignored and sets ERRS.HOSTACC. No element below the new length changes; a length that does not fall
changes no element, and one that falls leaves no element from the new length up specified (10_state.md R38,
20_memory.md R59; that it leaves none the host wrote there is DEDUCED, log 7). -/
def Obligations.LengthRegisterWrites : Prop :=
  ∀ (s : State) (sp : Space) (v : Word) (rest : List HostMove), sp ≠ .plan →
    s.pending = .writeReg (4 + sp.id) v :: rest →
    ∃ t, step s = .next t ∧
      if v.toNat ≤ s.writableElements sp then
        t.register (4 + sp.id) = some v ∧ State.Frame [4 + sp.id] [sp] { s with pending := rest } t ∧
          (∀ i, i < v.toNat → t.element sp i = s.element sp i ∧ (t.Specified sp i ↔ s.Specified sp i)) ∧
          (s.lengthOf sp ≤ v.toNat → State.Frame [4 + sp.id] [] { s with pending := rest } t ∧
            ∀ i, t.Specified sp i ↔ s.Specified sp i) ∧
          (v.toNat < s.lengthOf sp → ∀ i, v.toNat ≤ i → ¬ t.Specified sp i)
      else (∀ b, t.errs.getLsbD b = (s.errs.getLsbD b || decide (b = 8))) ∧
        State.Frame [3] [] { s with pending := rest } t

/-- A write to an element of TXT, BITS or WAVE below the capacity keeps the low 32, 1 or 16 bits of the data, whatever
the length register says, and changes no other element and no register; at or above the capacity, and in PLAN, it is
ignored and sets ERRS.HOSTACC (20_memory.md R54, R57, 10_state.md R39). -/
def Obligations.BufferWrites : Prop :=
  ∀ (s : State) (sp : Space) (i : Nat) (v : Word) (rest : List HostMove), s.pending = .writeBuf sp i v :: rest →
    ∃ t, step s = .next t ∧
      if i < s.writableElements sp then
        t.element sp i = v.toNat % 2 ^ sp.width ∧
          (∀ j, j ≠ i → t.element sp j = s.element sp j) ∧ State.Frame [] [sp] { s with pending := rest } t
      else (∀ b, t.errs.getLsbD b = (s.errs.getLsbD b || decide (b = 8))) ∧
        State.Frame [3] [] { s with pending := rest } t

/-- A read of an element in range answers it, zero-extended (sign-extended from WAVE, 64 bits wide from PLAN), and
changes nothing; out of range (for PLAN also at or above `N` in READY) it answers 0 and sets ERRS.HOSTACC (20_memory.md
R54, R56, R57, 10_state.md R39; the width of the answer is DEDUCED, log 5). -/
def Obligations.BufferReads : Prop :=
  ∀ (s : State) (sp : Space) (i : Nat) (rest : List HostMove), s.pending = .readBuf sp i :: rest →
    ∃ t, step s = .next t ∧
      (s.Readable sp i → t = { s with pending := rest, reply := some (sp.extended (s.element sp i)) }) ∧
      (¬ s.Readable sp i → t.reply = some (sp.extended 0) ∧
        (∀ b, t.errs.getLsbD b = (s.errs.getLsbD b || decide (b = 8))) ∧
        State.Frame [3] [] { s with pending := rest, reply := t.reply } t)

/-- The sequences a command reads are the elements the host reads, below the length registers, and `N` entries of PLAN
(00_scope.md R9, 10_state.md R39 to R42). -/
def Obligations.SequencesAreElements : Prop :=
  ∀ s : State, s.mem.wf →
    (s.text.length = s.txtLen.toNat ∧ ∀ i, i < s.txtLen.toNat → (s.text.getD i 0).toNat = s.element .txt i) ∧
    (s.bits.length = s.bitsLen.toNat ∧ ∀ i, i < s.bitsLen.toNat → (s.bits.getD i 0).toNat = s.element .bits i) ∧
    (s.wave.length = s.waveLen.toNat ∧ ∀ i, i < s.waveLen.toNat → (s.wave.getD i 0).toNat = s.element .wave i) ∧
    (s.plan.length = s.nChan ∧ ∀ i, i < s.nChan → s.plan.getD i 0 = s.element .plan i)

/-! ## CFG -/

/-- CFG in UNCONFIGURED with a configuration that passes the ten checks completes: STATE becomes READY, PLAN_DEN is
`max(N − 1, 1)` and PLAN holds the numerators (40_config_plan.md R100). -/
def Obligations.CfgAcceptsAndPlans : Prop :=
  ∀ s : State, s.mode = .unconfigured → 1 ≤ s.fs → 1 ≤ s.nChan → s.nChan ≤ s.inst.nMax →
    s.freqMin.toNat < s.freqMax.toNat → 1 ≤ s.fLen → 1 ≤ s.pLen → 1 ≤ s.gLen → 1 ≤ s.cLen → 1 ≤ s.rCount →
    s.freqMax.toNat < s.fp →
    ∃ t, exec .cfg s = .next t ∧ s.Completed 0 18 .plan t ∧ t.mode = .ready ∧ t.nosig = s.nosig ∧
      t.caphit = s.caphit ∧ t.short = s.short ∧ t.planDen.toNat = max (s.nChan - 1) 1 ∧
      ∀ i, i < s.nChan →
        t.element .plan i = s.freqMin.toNat * max (s.nChan - 1) 1 + i * (s.freqMax.toNat - s.freqMin.toNat)

/-- CFG in UNCONFIGURED with a configuration that fails a check moves STATE to FAILED and raises E_CONFIG; bit `k` of
INFO is set exactly when check `k` fails, all ten being made (40_config_plan.md R100). -/
def Obligations.CfgRejectsWithMask : Prop :=
  ∀ s : State, s.mode = .unconfigured →
    (s.fs < 1 ∨ s.nChan < 1 ∨ s.inst.nMax < s.nChan ∨ s.freqMax.toNat ≤ s.freqMin.toNat ∨ s.fLen < 1 ∨ s.pLen < 1 ∨
      s.gLen < 1 ∨ s.cLen < 1 ∨ s.rCount < 1 ∨ s.fp ≤ s.freqMax.toNat) →
    ∃ t, exec .cfg s = .next t ∧ t.mode = .failed ∧ State.Raised .eConfig t.info { s with mode := .failed } t ∧
      ∀ k, t.info.getLsbD k = (match k with
        | 0 => decide (s.fs < 1)
        | 1 => decide (s.nChan < 1)
        | 2 => decide (s.inst.nMax < s.nChan)
        | 3 => decide (s.freqMax.toNat ≤ s.freqMin.toNat)
        | 4 => decide (s.fLen < 1)
        | 5 => decide (s.pLen < 1)
        | 6 => decide (s.gLen < 1)
        | 7 => decide (s.cLen < 1)
        | 8 => decide (s.rCount < 1)
        | 9 => decide (s.fp ≤ s.freqMax.toNat)
        | _ => false)

/-- The plan of every accepted configuration has `N` entries, spaced evenly and rising from FREQ_MIN, to FREQ_MAX for
`N ≥ 2`, every one below PRE_FREQ (40_config_plan.md R102). -/
def Obligations.PlanProperties : Prop :=
  ∀ s t : State, s.mode = .unconfigured → exec .cfg s = .next t → t.mode = .ready →
    t.plan.length = s.nChan ∧ (t.plan.getD 0 0 : ℚ) / t.den = s.freqMin.toNat ∧
      (2 ≤ s.nChan → (t.plan.getD (s.nChan - 1) 0 : ℚ) / t.den = s.freqMax.toNat) ∧
      (∀ i, i + 1 < s.nChan →
        (t.plan.getD (i + 1) 0 : ℚ) / t.den - (t.plan.getD i 0 : ℚ) / t.den =
            ((s.freqMax.toNat : ℚ) - s.freqMin.toNat) / (s.nChan - 1) ∧
          (0 : ℚ) < ((s.freqMax.toNat : ℚ) - s.freqMin.toNat) / (s.nChan - 1)) ∧
      ∀ i, i < s.nChan → (t.plan.getD i 0 : ℚ) / t.den < s.fp

/-! ## TNORM, T2B, REPX -/

/-- TNORM in READY completes: the text becomes its normalised form, never longer; no other space, register or flag
changes (41_bit_encoder.md R110). -/
def Obligations.TnormNormalises : Prop :=
  ∀ s : State, s.mode = .ready →
    ∃ t, exec .tnorm s = .next t ∧ s.Completed 0 5 .txt t ∧ s.SameStatusButLast t ∧ Normalised s.text t.text ∧
      t.text.length = t.txtLen.toNat ∧ t.txtLen.toNat ≤ s.txtLen.toNat

/-- After TNORM every character of the six in WS is a space, no two adjacent characters are in WS, and a second TNORM leaves the
text as it is (41_bit_encoder.md R110). -/
def Obligations.TnormIsIdempotent : Prop :=
  ∀ s t u : State, s.mode = .ready → exec .tnorm s = .next t → exec .tnorm t = .next u →
    u.text = t.text ∧ (∀ c ∈ t.text, IsWhitespace c → c = 0x20) ∧
      ∀ (a b : List Word) (c d : Word), t.text = a ++ c :: d :: b → ¬ (IsWhitespace c ∧ IsWhitespace d)

/-- T2B in READY on a text whose characters are at most 255 and whose bits fit BITS completes: bit `7 − b` of character
`c` is `BITS[8c + b]` (41_bit_encoder.md R111, 20_memory.md R51). -/
def Obligations.T2bWritesBits : Prop :=
  ∀ s : State, s.mode = .ready → s.inst.wf = true → (∀ c ∈ s.text, c.toNat ≤ 255) →
    8 * s.txtLen.toNat ≤ s.inst.bitMax →
    ∃ t, exec .t2b s = .next t ∧ s.Completed 0 6 .bits t ∧ s.SameStatusButLast t ∧
      t.bitsLen.toNat = 8 * s.txtLen.toNat ∧
      ∀ c b, c < s.txtLen.toNat → b < 8 → t.bits.getD (8 * c + b) 0 = (s.text.getD c 0).extractLsb' (7 - b) 1

/-- T2B rejects a text with a character above 255, with the index of the first one in INFO, and before it looks at the
capacity (41_bit_encoder.md R111, 60_exceptions.md R172). -/
def Obligations.T2bRejectsWideCharacter : Prop :=
  ∀ (s : State) (i : Nat), s.mode = .ready → i < s.txtLen.toNat → 255 < (s.text.getD i 0).toNat →
    (∀ j, j < i → (s.text.getD j 0).toNat ≤ 255) →
    ∃ t, exec .t2b s = .next t ∧ State.Raised .eDomain (BitVec.ofNat 32 i) s t

/-- REPX in READY completes if twice the stream fits BITS: bits `2i` and `2i + 1` are bit `i` (41_bit_encoder.md
R112). -/
def Obligations.RepxDoublesBits : Prop :=
  ∀ s : State, s.mode = .ready → s.inst.wf = true → 2 * s.bitsLen.toNat ≤ s.inst.bitMax →
    ∃ t, exec .repx s = .next t ∧ s.Completed 0 6 .bits t ∧ s.SameStatusButLast t ∧
      t.bitsLen.toNat = 2 * s.bitsLen.toNat ∧
      ∀ i, i < s.bitsLen.toNat → t.bits.getD (2 * i) 0 = s.bits.getD i 0 ∧ t.bits.getD (2 * i + 1) 0 = s.bits.getD i 0

/-- A result that would not fit its destination raises E_CAPACITY with INFO 0 and changes nothing else: T2B, REPX, FMOD,
CMOD, FDEM and B2T (60_exceptions.md R170, R173 and the rule of each command). -/
def Obligations.CapacityErrors : Prop :=
  ∀ s : State, s.mode = .ready →
    ((∀ c ∈ s.text, c.toNat ≤ 255) → s.inst.bitMax < 8 * s.txtLen.toNat →
      ∃ t, exec .t2b s = .next t ∧ State.Raised .eCapacity 0 s t) ∧
    (s.inst.bitMax < 2 * s.bitsLen.toNat → ∃ t, exec .repx s = .next t ∧ State.Raised .eCapacity 0 s t) ∧
    (0 < s.nChan → s.argNat * s.nChan < s.bitsLen.toNat → s.inst.waveMax < s.fLen →
      ∃ t, exec .fmod s = .next t ∧ State.Raised .eCapacity 0 s t) ∧
    (s.inst.waveMax < s.rCount * (s.pLen + ⌈(s.bitsLen.toNat : ℚ) / s.nChan⌉₊ * (s.fLen + s.gLen) + s.cLen) →
      ∃ t, exec .cmod s = .next t ∧ State.Raised .eCapacity 0 s t) ∧
    (s.argNat + s.fLen ≤ s.wLen → s.inst.bitMax < s.nChan →
      ∃ t, exec .fdem s = .next t ∧ State.Raised .eCapacity 0 s t) ∧
    (s.inst.txtMax < ((List.range (s.bitsLen.toNat / 8)).filter fun g =>
        (List.range 8).any fun k => s.bits.getD (8 * g + k) 0 = 1).length →
      ∃ t, exec .b2t s = .next t ∧ State.Raised .eCapacity 0 s t)

/-- The BitEncoder as a whole: for a text of characters at most 255 whose protected bits fit, T2B then REPX leave
`16c` bits, bits `16i + 2b` and `16i + 2b + 1` being bit `7 − b` of character `i`, after TNORM has left that text
(41_bit_encoder.md R113). -/
def Obligations.BitEncoderAsAWhole : Prop :=
  ∀ s t u v : State, s.mode = .ready → s.inst.wf = true → s.txtLen.toNat ≤ s.inst.txtMax →
    exec .tnorm s = .next t → (∀ c ∈ t.text, c.toNat ≤ 255) → exec .t2b t = .next u → exec .repx u = .next v →
    v.last = .eNone ∧ v.bitsLen.toNat = 16 * t.txtLen.toNat ∧
      ∀ i b, i < t.txtLen.toNat → b < 8 →
        v.bits.getD (16 * i + 2 * b) 0 = (t.text.getD i 0).extractLsb' (7 - b) 1 ∧
          v.bits.getD (16 * i + 2 * b + 1) 0 = (t.text.getD i 0).extractLsb' (7 - b) 1

/-! ## FMOD, CMOD -/

/-- FMOD in READY with ARG a chunk of the stream and a frame that fits WAVE completes: WAVE becomes the quantised,
normalised tone sum of the chunk, over the real numbers (42_frame_modulator.md R120 to R124). -/
def Obligations.FmodWritesFrame : Prop :=
  ∀ s : State, s.mode = .ready → s.inst.wf = true → 0 < s.fs → 0 < s.den → 0 < s.nChan →
    s.argNat * s.nChan < s.bitsLen.toNat → s.fLen ≤ s.inst.waveMax →
    ∃ t, exec .fmod s = .next t ∧ s.Completed 0 7 .wave t ∧ s.SameStatusButLast t ∧ t.waveLen.toNat = s.fLen ∧
      ∀ n, n < s.fLen → (t.wave.getD n 0).toInt =
        Signal.quantise (Signal.normalise (Signal.toneSum s.fs s.den s.plan
          ((List.range s.nChan).map fun i => s.bits.getD (s.argNat * s.nChan + i) 0)) s.fLen n)

/-- A frame is all zero, when the peak of its tone sum is 0, or lies in −32767 … 32767 and reaches an end of that range;
its first sample is 0 (42_frame_modulator.md R125, R124). -/
def Obligations.FrameIsSilentOrFullScale : Prop :=
  ∀ s t : State, s.mode = .ready → s.inst.wf = true → 0 < s.fs → 0 < s.den → exec .fmod s = .next t →
    t.last = .eNone →
    (∀ q ∈ t.wave, -32767 ≤ q.toInt ∧ q.toInt ≤ 32767) ∧ (0 < s.fLen → t.wave.getD 0 1 = 0) ∧
      if Signal.peak (Signal.toneSum s.fs s.den s.plan
          ((List.range s.nChan).map fun i => s.bits.getD (s.argNat * s.nChan + i) 0)) s.fLen = 0 then
        ∀ q ∈ t.wave, q = 0
      else ∃ q ∈ t.wave, q.toInt = 32767 ∨ q.toInt = -32767

/-- FMOD of a chunk at or past the chunk count, and FDEM of a window not inside the waveform, raise E_ARG with ARG in
INFO and change nothing else (42_frame_modulator.md R124, 44_frame_demodulator.md R146). -/
def Obligations.ArgumentErrors : Prop :=
  ∀ s : State, s.mode = .ready →
    (0 < s.nChan → s.bitsLen.toNat ≤ s.argNat * s.nChan →
      ∃ t, exec .fmod s = .next t ∧ State.Raised .eArg s.arg s t) ∧
    (s.wLen < s.argNat + s.fLen → ∃ t, exec .fdem s = .next t ∧ State.Raised .eArg s.arg s t)

/-- CMOD in READY with a carousel that fits WAVE completes: `WAVE_LEN = R · (P + K·(F + G) + C)` and INFO is
`K = ⌈BITS_LEN / N⌉` (43_carousel_modulator.md R133, R134). -/
def Obligations.CmodLength : Prop :=
  ∀ s : State, s.mode = .ready → s.inst.wf = true → 0 < s.fs → 0 < s.den →
    s.rCount * (s.pLen + ⌈(s.bitsLen.toNat : ℚ) / s.nChan⌉₊ * (s.fLen + s.gLen) + s.cLen) ≤ s.inst.waveMax →
    ∃ t, exec .cmod s = .next t ∧ s.Completed (BitVec.ofNat 32 ⌈(s.bitsLen.toNat : ℚ) / s.nChan⌉₊) 7 .wave t ∧
      s.SameStatusButLast t ∧
      t.waveLen.toNat = s.rCount * (s.pLen + ⌈(s.bitsLen.toNat : ℚ) / s.nChan⌉₊ * (s.fLen + s.gLen) + s.cLen)

/-- Where each segment lies after CMOD, `S` being the length of one cycle: in cycle `r` the preamble of the rules, then
for each chunk `j` the samples that FMOD of chunk `j` writes and `G` zeros, then `C` zeros (43_carousel_modulator.md
R130 to R135). -/
def Obligations.CmodLayout : Prop :=
  ∀ (s t : State) (K S r : Nat), s.mode = .ready → s.inst.wf = true → 0 < s.fs → 0 < s.den →
    K = ⌈(s.bitsLen.toNat : ℚ) / s.nChan⌉₊ → S = s.pLen + K * (s.fLen + s.gLen) + s.cLen → r < s.rCount →
    exec .cmod s = .next t → t.last = .eNone →
    (∀ n, n < s.pLen → (t.wave.getD (r * S + n) 0).toInt =
      Signal.quantise (Signal.preamble s.fs s.fp (Signal.amplitude s.inst.preAmp) n)) ∧
    (∀ j u, j < K → exec .fmod { s with arg := BitVec.ofNat 32 j } = .next u →
      u.last = .eNone ∧
      (∀ n, n < s.fLen → t.wave.getD (r * S + s.pLen + j * (s.fLen + s.gLen) + n) 0 = u.wave.getD n 0) ∧
      ∀ n, n < s.gLen → t.wave.getD (r * S + s.pLen + j * (s.fLen + s.gLen) + s.fLen + n) 1 = 0) ∧
    ∀ n, n < s.cLen → t.wave.getD (r * S + s.pLen + K * (s.fLen + s.gLen) + n) 1 = 0

/-- PRE_AMP can be every real number in (0, 1] (00_scope.md R5): for each there is an amplitude that a well-formed
instance may have and with which CMOD writes the preamble of that number (that amplitudes are numbers of one form is
DEDUCED, log 2). -/
def Obligations.EveryPreambleAmplitude : Prop :=
  ∀ x : ℝ, 0 < x → x ≤ 1 → ∃ a : Amplitude, (∀ c : Instance, c.wf = true → Instance.wf { c with preAmp := a } = true) ∧
    ∀ s t : State, s.mode = .ready → s.inst.wf = true → s.inst.preAmp = a → 0 < s.fs → 0 < s.den → 0 < s.rCount →
      exec .cmod s = .next t → t.last = .eNone →
      ∀ n, n < s.pLen → (t.wave.getD n 0).toInt = Signal.quantise (Signal.preamble s.fs s.fp x n)

/-! ## FDEM, CDEM -/

/-- FDEM in READY on a window inside WAVE completes: BITS becomes `fdem(win)` of the rules, over the real numbers, the
only one there is (44_frame_demodulator.md R140 to R146). -/
def Obligations.FdemDecidesBits : Prop :=
  ∀ s : State, s.mode = .ready → s.inst.wf = true → 0 < s.fLen → 0 < s.den → s.argNat + s.fLen ≤ s.wLen →
    s.nChan ≤ s.inst.bitMax →
    ∃ t, exec .fdem s = .next t ∧ s.Completed 0 6 .bits t ∧ s.SameStatusButLast t ∧ t.bitsLen.toNat = s.nChan ∧
      s.IsFdem ((s.wave.drop s.argNat).take s.fLen) t.bits ∧
      ∀ b, s.IsFdem ((s.wave.drop s.argNat).take s.fLen) b → t.bits = b

/-- What the demodulator writes is determined by the rules: a completed FDEM leaves every `b` that is `fdem` of its
window, and CDEM leaves the output and the cursor of every walk of the rules (44_frame_demodulator.md R144, R145,
45_carousel_demodulator.md R151). -/
def Obligations.DemodulationIsDetermined : Prop :=
  ∀ s t : State, s.mode = .ready → s.inst.wf = true → 0 < s.fLen → 0 < s.den →
    (∀ b, exec .fdem s = .next t → t.last = .eNone → s.IsFdem (s.window s.argNat) b →
      t.bits = b ∧ t.bitsLen.toNat = s.nChan) ∧
    (∀ cur out, 0 < s.gLen → s.nChan ≤ s.inst.nMax → exec .cdem s = .next t → s.Walk s.pLen [] cur out →
      t.bits = out ∧ t.info = BitVec.ofNat 32 (min cur (2 ^ 32 - 1)))

/-- A frame of length 1 is the single sample 0, and a window of length 2 gives `N` zeros whatever it holds
(70_reset_and_hazards.md R204). -/
def Obligations.VeryShortFrames : Prop :=
  ∀ s t : State, s.mode = .ready → s.inst.wf = true → 0 < s.fs → 0 < s.den → t.last = .eNone →
    (s.fLen = 1 → exec .fmod s = .next t → t.wave = [0]) ∧
      (s.fLen = 2 → exec .fdem s = .next t → t.bits = List.replicate s.nChan 0)

/-- CDEM in READY completes on every waveform: the walk of the rules runs from cursor `P` with no output, BITS becomes
its output, INFO its final cursor, and the three flags say what they say; nothing else changes
(45_carousel_demodulator.md R150, R151, R153). -/
def Obligations.CdemWalks : Prop :=
  ∀ s : State, s.mode = .ready → s.inst.wf = true → 0 < s.fLen → 0 < s.gLen → 0 < s.den → s.nChan ≤ s.inst.nMax →
    ∃ t cur, exec .cdem s = .next t ∧ s.Completed (BitVec.ofNat 32 (min cur (2 ^ 32 - 1))) 6 .bits t ∧
      s.Walk s.pLen [] cur t.bits ∧ t.bitsLen.toNat = t.bits.length ∧ t.mode = s.mode ∧
      t.short = decide ((s.wLen : Int) - s.pLen ≤ s.fLen) ∧ t.nosig = decide (t.bits.length = 0) ∧
      t.caphit = decide (s.inst.bitCap < t.bits.length)

/-- The bounds of CDEM: at most `BIT_CAP + N ≤ BIT_MAX` bits, and a final cursor of the walk (in INFO up to `2^32 − 1`)
that is `P` if no window was inspected and at most `W + G − 1` otherwise (45_carousel_demodulator.md R152). -/
def Obligations.CdemBounds : Prop :=
  ∀ s t : State, s.Inv → s.mode = .ready → exec .cdem s = .next t →
    t.bitsLen.toNat ≤ s.inst.bitCap + s.nChan ∧ t.bitsLen.toNat ≤ s.inst.bitMax ∧
      (t.short = true → t.info = s.preLen ∧ t.bitsLen = 0 ∧ t.nosig = true) ∧
      (t.short = false → t.info.toNat ≤ s.wLen + s.gLen - 1) ∧
      ∀ cur out, s.Walk s.pLen [] cur out → out.length ≤ s.inst.bitCap + s.nChan ∧
        (t.short = true → cur = s.pLen ∧ out = []) ∧ (t.short = false → cur ≤ s.wLen + s.gLen - 1)

/-- CDEM on the block's own single-cycle output: if no frame is all zero, ACT_THR is below 32767/32768 and
`(K − 1)·N ≤ BIT_CAP`, the bits are those of the `K` frames in order, each frame being what FMOD writes for its chunk
(45_carousel_demodulator.md R154). -/
def Obligations.CdemOnOwnCarousel : Prop :=
  ∀ (s w t : State) (K : Nat), s.Inv → s.mode = .ready → s.rCount = 1 →
    K = ⌈(s.bitsLen.toNat : ℚ) / s.nChan⌉₊ → exec .cmod s = .next w → w.last = .eNone →
    (∀ j u, j < K → exec .fmod { s with arg := BitVec.ofNat 32 j } = .next u → ∃ q ∈ u.wave, q ≠ 0) →
    (s.inst.actThrNum : ℚ) / s.inst.actThrDen < 32767 / 32768 → (K - 1) * s.nChan ≤ s.inst.bitCap →
    exec .cdem w = .next t →
    t.bitsLen.toNat = K * s.nChan ∧
      ∀ j u, j < K → exec .fmod { s with arg := BitVec.ofNat 32 j } = .next u →
        s.IsFdem u.wave ((t.bits.drop (j * s.nChan)).take s.nChan)

/-! ## REPC, B2T -/

/-- REPC in READY completes: bit `i` is the OR of bits `2i` and `2i + 1`, an unpaired last bit being dropped
(46_bit_decoder.md R160). -/
def Obligations.RepcOrsPairs : Prop :=
  ∀ s : State, s.mode = .ready →
    ∃ t, exec .repc s = .next t ∧ s.Completed 0 6 .bits t ∧ s.SameStatusButLast t ∧
      t.bitsLen.toNat = s.bitsLen.toNat / 2 ∧
      ∀ i, i < s.bitsLen.toNat / 2 →
        (t.bits.getD i 0 = 1 ↔ s.bits.getD (2 * i) 0 = 1 ∨ s.bits.getD (2 * i + 1) 0 = 1)

/-- REPC after REPX gives the stream back (46_bit_decoder.md R160). -/
def Obligations.RepcUndoesRepx : Prop :=
  ∀ s t u : State, s.mode = .ready → s.inst.wf = true → exec .repx s = .next t → t.last = .eNone →
    exec .repc t = .next u → u.bits = s.bits ∧ u.bitsLen = s.bitsLen

/-- B2T in READY with a result that fits TXT completes: the text is the byte values of the complete groups of eight bits
from the start of the stream, the first bit the most significant, those of value 0 left out (46_bit_decoder.md R161). -/
def Obligations.B2tReadsGroups : Prop :=
  ∀ (s : State) (vs : List Nat), s.mode = .ready → s.inst.wf = true →
    vs = ((List.range (s.bitsLen.toNat / 8)).map fun g =>
      ∑ k ∈ Finset.range 8, (s.bits.getD (8 * g + k) 0).toNat * 2 ^ (7 - k)).filter (· ≠ 0) →
    vs.length ≤ s.inst.txtMax →
    ∃ t, exec .b2t s = .next t ∧ s.Completed 0 5 .txt t ∧ s.SameStatusButLast t ∧ t.txtLen.toNat = vs.length ∧
      t.text.map BitVec.toNat = vs

/-- The round trip of the bit path: for a text of characters at most 255, B2T of REPC of any zero padding of REPX of T2B
of the text is the text without its characters 0, so a text of characters 1 to 255 comes back (46_bit_decoder.md
R162). -/
def Obligations.BitPathRoundTrip : Prop :=
  ∀ (s a b c d e : State) (k : Nat), s.mode = .ready → s.inst.wf = true → s.txtLen.toNat ≤ s.inst.txtMax →
    (∀ x ∈ s.text, x.toNat ≤ 255) → exec .t2b s = .next a → exec .repx a = .next b → c.mode = .ready →
    c.inst = s.inst → c.bits = b.bits ++ List.replicate k 0 → exec .repc c = .next d → exec .b2t d = .next e →
    e.last = .eNone ∧ e.text = s.text.filter (· ≠ 0) ∧ ((∀ x ∈ s.text, 1 ≤ x.toNat) → e.text = s.text)
end

