-- ==== Sys2Proof/Laws/HalfPi.lean ====
section
/-! SUPPORT. `halfPi p` is `2^p · π / 2` to within `3p + 20`: Machin's formula and the series of the arctangent. -/

namespace Sys2Proof.Laws

open Sys2Proof.Machine

/-- The partial sum `arctanInv` rounds: the series of `arctan y` from term `k`, `n` terms. -/
noncomputable def arctanPart (y : ℝ) (n k : ℕ) : ℝ :=
  ∑ j ∈ Finset.range n, (-1) ^ j * y ^ (2 * (k + j) + 1) / ((2 * (k + j) + 1 : ℕ) : ℝ)

theorem arctanPart_succ (y : ℝ) (n k : ℕ) :
    arctanPart y (n + 1) k = y ^ (2 * k + 1) / ((2 * k + 1 : ℕ) : ℝ) - arctanPart y n (k + 1) := by
  rw [arctanPart, Finset.sum_range_succ', arctanPart, sub_eq_add_neg, ← Finset.sum_neg_distrib, add_comm]
  congr 1
  · simp
  · refine Finset.sum_congr rfl fun j _ => ?_
    rw [show k + (j + 1) = k + 1 + j by ring, pow_succ]
    ring

/-- A natural quotient is the real quotient to within one. -/
theorem natDiv_real_bounds (a b : ℕ) (hb : 0 < b) :
    (a : ℝ) / b - 1 ≤ ((a / b : ℕ) : ℝ) ∧ ((a / b : ℕ) : ℝ) ≤ (a : ℝ) / b := by
  refine ⟨?_, Nat.cast_div_le⟩
  have h : (a : ℝ) < ((a / b : ℕ) + 1) * b := by
    exact_mod_cast (Nat.div_lt_iff_lt_mul hb).mp (Nat.lt_succ_self (a / b))
  have := (div_lt_iff₀ (by exact_mod_cast hb : (0 : ℝ) < b)).mpr h
  linarith

theorem arctanInv_close (p x : ℕ) (hx : 0 < x) (n k : ℕ) :
    |(arctanInv p x n k : ℝ) - 2 ^ p * arctanPart (x : ℝ)⁻¹ n k| ≤ n := by
  induction n generalizing k with
  | zero => simp [arctanInv, arctanPart]
  | succ n ih =>
    have hb := natDiv_real_bounds (2 ^ p) (x ^ (2 * k + 1) * (2 * k + 1)) (by positivity)
    have he : (2 : ℝ) ^ p * ((x : ℝ)⁻¹ ^ (2 * k + 1) / ((2 * k + 1 : ℕ) : ℝ)) =
        ((2 ^ p : ℕ) : ℝ) / ((x ^ (2 * k + 1) * (2 * k + 1) : ℕ) : ℝ) := by
      push_cast
      rw [inv_pow, inv_div_left, div_eq_mul_inv, mul_comm ((2 * (k : ℝ) + 1))]
    have h := abs_le.mp (ih (k + 1))
    rw [arctanPart_succ, mul_sub, he, arctanInv]
    generalize 2 ^ p / (x ^ (2 * k + 1) * (2 * k + 1)) = q at hb ⊢
    rw [abs_le, Int.cast_sub, Int.cast_natCast, Nat.cast_succ]
    constructor <;> linarith [h.1, h.2, hb.1, hb.2]

theorem arctan_tail (y : ℝ) (h0 : 0 < y) (h1 : y ≤ 1 / 5) (n : ℕ) :
    |arctanPart y n 0 - Real.arctan y| ≤ (1 / 16) ^ n := by
  have hn : ‖y‖ < 1 := by rw [Real.norm_of_nonneg h0.le]; linarith
  have hy2 : y ^ 2 ≤ 1 / 25 := by nlinarith
  have hb : ∀ j : ℕ, ‖(-1) ^ j * y ^ (2 * j + 1) / ((2 * j + 1 : ℕ) : ℝ)‖ ≤ y * (y ^ 2) ^ j := by
    intro j
    rw [norm_div, norm_mul, norm_pow, norm_neg, norm_one, one_pow, one_mul, Real.norm_of_nonneg (by positivity),
      Real.norm_of_nonneg (by positivity), pow_succ, pow_mul, mul_comm]
    exact div_le_self (by positivity) (by push_cast; linarith [Nat.cast_nonneg (α := ℝ) j])
  have h := norm_sub_le_of_geometric_bound_of_hasSum (by linarith : y ^ 2 < 1) hb (Real.hasSum_arctan hn) n
  have hp : (y ^ 2) ^ n ≤ (1 / 16) ^ n := pow_le_pow_left₀ (by positivity) (by linarith) n
  have hq : y * (y ^ 2) ^ n / (1 - y ^ 2) ≤ (1 / 16) ^ n := by
    rw [div_le_iff₀ (by linarith)]
    have : 0 ≤ (y ^ 2) ^ n := by positivity
    nlinarith
  simpa [arctanPart, Real.norm_eq_abs] using h.trans hq

theorem arctanInv_arctan (p x : ℕ) (hx : 5 ≤ x) :
    |(arctanInv p x (p / 4 + 1) 0 : ℝ) - 2 ^ p * Real.arctan (x : ℝ)⁻¹| ≤ p / 4 + 2 := by
  have hx' : (5 : ℝ) ≤ x := by exact_mod_cast hx
  have hi : (x : ℝ)⁻¹ ≤ 1 / 5 := by
    rw [inv_eq_one_div]
    exact one_div_le_one_div_of_le (by norm_num) hx'
  have h1 := abs_le.mp (arctanInv_close p x (by omega) (p / 4 + 1) 0)
  have h2 := abs_le.mp (arctan_tail (x : ℝ)⁻¹ (by positivity) hi (p / 4 + 1))
  have h3 : (2 : ℝ) ^ p * (1 / 16) ^ (p / 4 + 1) ≤ 1 := by
    rw [div_pow, one_pow, mul_one_div, div_le_one (by positivity), show (16 : ℝ) = 2 ^ 4 by norm_num, ← pow_mul]
    exact pow_le_pow_right₀ (by norm_num) (by omega)
  have h4 : (0 : ℝ) < 2 ^ p := by positivity
  have h5 : ((p / 4 + 1 : ℕ) : ℝ) ≤ p / 4 + 1 := by
    push_cast
    linarith [Nat.cast_div_le (α := ℝ) (m := p) (n := 4)]
  rw [abs_le]
  constructor <;> nlinarith [h1.1, h1.2, h2.1, h2.2]

/-- `halfPi p` is `2^p · π / 2` to within `3p + 20`. -/
theorem halfPi_close (p : ℕ) : |(halfPi p : ℝ) - 2 ^ p * (Real.pi / 2)| ≤ 3 * p + 20 := by
  have h5 := abs_le.mp (arctanInv_arctan p 5 le_rfl)
  have h239 := abs_le.mp (arctanInv_arctan p 239 (by norm_num))
  have hm := Real.four_mul_arctan_inv_5_sub_arctan_inv_239
  have hpi : Real.pi / 2 = 8 * Real.arctan ((5 : ℕ) : ℝ)⁻¹ - 2 * Real.arctan ((239 : ℕ) : ℝ)⁻¹ := by
    push_cast
    linarith
  have hp : (0 : ℝ) ≤ p := Nat.cast_nonneg p
  rw [hpi, halfPi]
  push_cast at h5 h239 ⊢
  rw [abs_le]
  constructor <;> nlinarith [h5.1, h5.2, h239.1, h239.2]

end Sys2Proof.Laws
end

