-- ==== Sys2Proof/Laws/Sine.lean ====
section
/-! SUPPORT. `sinIv` and `cosIv` enclose the sine and the cosine of a rational fraction of a turn, and how closely. -/

namespace Sys2Proof.Laws

open Sys2Proof.Machine

/-! ## Horner's scheme for the complex exponential -/

/-- What `cisHorner` rounds: `1 + (z/k)·(1 + (z/(k+1))·( … ))`, `n` steps. -/
noncomputable def hornerExp (z : ℂ) : ℕ → ℕ → ℂ
  | 0, _ => 1
  | n + 1, k => 1 + z / k * hornerExp z n (k + 1)

theorem hornerExp_eq_sum (z : ℂ) (n m : ℕ) :
    hornerExp z n (m + 1) = ∑ j ∈ Finset.range (n + 1), z ^ j * (m.factorial / (m + j).factorial) := by
  induction n generalizing m with
  | zero => simp [hornerExp, Nat.factorial_ne_zero]
  | succ n ih =>
    rw [hornerExp, ih, Finset.sum_range_succ' _ (n + 1), Finset.mul_sum, add_comm]
    congr 1
    · refine Finset.sum_congr rfl fun j _ => ?_
      have h1 : ((m + 1 : ℕ) : ℂ) ≠ 0 := by exact_mod_cast Nat.succ_ne_zero m
      rw [show m + (j + 1) = m + 1 + j by ring, Nat.factorial_succ m, Nat.cast_mul, pow_succ]
      field_simp
    · simp [Nat.factorial_ne_zero]

theorem hornerExp_one (z : ℂ) (n : ℕ) :
    hornerExp z n 1 = ∑ j ∈ Finset.range (n + 1), z ^ j / j.factorial := by
  rw [show (1 : ℕ) = 0 + 1 by rfl, hornerExp_eq_sum]
  simp [div_eq_mul_inv]

/-- The rounded scheme follows the exact one to within `e`. -/
def HornerClose (p : ℕ) (t : ℤ) (n k : ℕ) (e : ℝ) : Prop :=
  |((cisHorner p t n k).1 : ℝ) - 2 ^ p * (hornerExp ((t / 2 ^ p : ℝ) * Complex.I) n k).re| ≤ e ∧
    |((cisHorner p t n k).2 : ℝ) - 2 ^ p * (hornerExp ((t / 2 ^ p : ℝ) * Complex.I) n k).im| ≤ e

theorem intDiv_real_bounds (a b : ℤ) (hb : 0 < b) :
    (a : ℝ) / b - 1 ≤ ((a / b : ℤ) : ℝ) ∧ ((a / b : ℤ) : ℝ) ≤ (a : ℝ) / b := by
  have hb' : (0 : ℝ) < b := by exact_mod_cast hb
  constructor
  · have h : (a : ℝ) < ((a / b : ℤ) + 1) * b := by exact_mod_cast Int.lt_ediv_add_one_mul_self a hb
    have := (div_lt_iff₀ hb').mpr h
    linarith
  · rw [le_div_iff₀ hb']
    exact_mod_cast Int.ediv_mul_le a hb.ne'

theorem hornerExp_re_im (x : ℝ) (n k : ℕ) :
    (hornerExp ((x : ℝ) * Complex.I) (n + 1) k).re = 1 - x / k * (hornerExp (x * Complex.I) n (k + 1)).im ∧
      (hornerExp ((x : ℝ) * Complex.I) (n + 1) k).im = x / k * (hornerExp (x * Complex.I) n (k + 1)).re := by
  have h : (x : ℂ) * Complex.I / k = ((x / k : ℝ) : ℂ) * Complex.I := by
    push_cast
    ring
  rw [hornerExp, h]
  simp [Complex.mul_re, Complex.mul_im, sub_eq_add_neg]

theorem hornerClose_succ {p : ℕ} {t : ℤ} {n k : ℕ} {e : ℝ} (hk : 0 < k) (ht : |(t / 2 ^ p : ℝ)| ≤ 8 / 5)
    (h : HornerClose p t n (k + 1) e) : HornerClose p t (n + 1) k (8 / 5 / k * e + 1) := by
  have hk' : (0 : ℝ) < k := by exact_mod_cast hk
  have hp : (0 : ℝ) < 2 ^ p := by positivity
  have he : 0 ≤ e := (abs_nonneg _).trans h.1
  have hpk : (0 : ℤ) < 2 ^ p * k := by positivity
  have key : ∀ (v : ℤ) (w : ℝ), |(v : ℝ) - 2 ^ p * w| ≤ e →
      |((t * v / (2 ^ p * k) : ℤ) : ℝ) - 2 ^ p * ((t / 2 ^ p : ℝ) / k * w)| ≤ 8 / 5 / k * e + 1 := by
    intro v w hv
    have hd := intDiv_real_bounds (t * v) (2 ^ p * k) hpk
    have hx : ((t * v : ℤ) : ℝ) / ((2 ^ p * k : ℤ) : ℝ) = (t / 2 ^ p : ℝ) / k * v := by
      push_cast
      field_simp
    have hm : |(t / 2 ^ p : ℝ) / k * (v - 2 ^ p * w)| ≤ 8 / 5 / k * e := by
      rw [abs_mul, abs_div, abs_of_pos hk']
      exact mul_le_mul (div_le_div_of_nonneg_right ht hk'.le) hv (abs_nonneg _) (by positivity)
    rw [hx] at hd
    have hm' := abs_le.mp hm
    rw [mul_sub] at hm'
    have hc : (2 : ℝ) ^ p * ((t / 2 ^ p : ℝ) / k * w) = (t / 2 ^ p : ℝ) / k * (2 ^ p * w) := by ring
    rw [hc, abs_le]
    constructor <;> linarith [hm'.1, hm'.2, hd.1, hd.2]
  have hre := (hornerExp_re_im (t / 2 ^ p) n k).1
  have him := (hornerExp_re_im (t / 2 ^ p) n k).2
  constructor
  · rw [hre]
    have := abs_le.mp (key _ _ h.2)
    rw [cisHorner, Int.cast_sub, abs_le]
    push_cast at this ⊢
    constructor <;> linarith [this.1, this.2]
  · rw [him]
    exact key _ _ h.1

theorem hornerClose_from_three {p : ℕ} {t : ℤ} (ht : |(t / 2 ^ p : ℝ)| ≤ 8 / 5) (n k : ℕ) (hk : 3 ≤ k) :
    HornerClose p t n k (5 / 2) := by
  induction n generalizing k with
  | zero => norm_num [HornerClose, cisHorner, hornerExp]
  | succ n ih =>
    have hk' : (3 : ℝ) ≤ k := by exact_mod_cast hk
    have h := hornerClose_succ (by omega) ht (ih (k + 1) (by omega))
    have hb : 8 / 5 / (k : ℝ) * (5 / 2) + 1 ≤ 5 / 2 := by
      have : 8 / 5 / (k : ℝ) ≤ 8 / 5 / 3 := div_le_div_of_nonneg_left (by norm_num) (by norm_num) hk'
      linarith
    exact ⟨h.1.trans hb, h.2.trans hb⟩

theorem hornerClose_one {p : ℕ} {t : ℤ} (ht : |(t / 2 ^ p : ℝ)| ≤ 8 / 5) (n : ℕ) :
    HornerClose p t (n + 2) 1 6 := by
  have h3 := hornerClose_from_three ht n 3 le_rfl
  have h2 := hornerClose_succ (k := 2) (by norm_num) ht h3
  have h1 := hornerClose_succ (k := 1) (by norm_num) ht h2
  refine ⟨h1.1.trans ?_, h1.2.trans ?_⟩ <;> norm_num

/-! ## The remainder of the exponential series -/

theorem two_pow_le_factorial (n : ℕ) : 2 ^ (4 * n + 44) ≤ (n + 16).factorial := by
  induction n with
  | zero => decide
  | succ n ih =>
    rw [show 4 * (n + 1) + 44 = 4 * n + 44 + 4 by ring, pow_add, show n + 1 + 16 = n + 16 + 1 by ring,
      Nat.factorial_succ, mul_comm]
    exact Nat.mul_le_mul (by omega) ih

theorem exp_remainder (p : ℕ) (x : ℝ) (hx : |x| ≤ 2) :
    2 ^ p * ‖Complex.exp (x * Complex.I) - hornerExp (x * Complex.I) (cisSteps p) 1‖ ≤ 1 := by
  have hz : ‖(x : ℂ) * Complex.I‖ ≤ 2 := by simpa using hx
  have hn : ‖(x : ℂ) * Complex.I‖ / ((cisSteps p + 1).succ : ℕ) ≤ 1 / 2 := by
    rw [div_le_iff₀ (by positivity)]
    have : (4 : ℝ) ≤ ((cisSteps p + 1).succ : ℕ) := by
      exact_mod_cast (show 4 ≤ (cisSteps p + 1).succ by simp only [cisSteps]; omega)
    linarith
  have h := Complex.exp_bound' hn
  rw [← hornerExp_one] at h
  have hf : (2 : ℝ) ^ (p + 1 + (cisSteps p + 1)) ≤ ((cisSteps p + 1).factorial : ℝ) := by
    have h1 := two_pow_le_factorial (p / 3 + 1)
    have h2 : 2 ^ (p + 1 + (cisSteps p + 1)) ≤ 2 ^ (4 * (p / 3 + 1) + 44) :=
      Nat.pow_le_pow_right (by norm_num) (by simp only [cisSteps]; omega)
    have h3 := h2.trans h1
    rw [show p / 3 + 1 + 16 = cisSteps p + 1 by simp only [cisSteps]] at h3
    exact_mod_cast h3
  have hpow : ‖(x : ℂ) * Complex.I‖ ^ (cisSteps p + 1) ≤ 2 ^ (cisSteps p + 1) :=
    pow_le_pow_left₀ (norm_nonneg _) hz _
  have hfac : (0 : ℝ) < ((cisSteps p + 1).factorial : ℝ) := by exact_mod_cast Nat.factorial_pos _
  calc 2 ^ p * ‖Complex.exp (x * Complex.I) - hornerExp (x * Complex.I) (cisSteps p) 1‖
      ≤ 2 ^ p * (2 ^ (cisSteps p + 1) / ((cisSteps p + 1).factorial : ℝ) * 2) := by
        refine mul_le_mul_of_nonneg_left (h.trans ?_) (by positivity)
        gcongr
    _ = 2 ^ (p + 1 + (cisSteps p + 1)) / ((cisSteps p + 1).factorial : ℝ) := by
        rw [show p + 1 + (cisSteps p + 1) = p + (cisSteps p + 1) + 1 by ring, pow_succ, pow_add]
        ring
    _ ≤ 1 := (div_le_one hfac).mpr hf

theorem cisHorner_close (p : ℕ) (t : ℤ) (ht : |(t / 2 ^ p : ℝ)| ≤ 8 / 5) :
    |((cisHorner p t (cisSteps p) 1).1 : ℝ) - 2 ^ p * Real.cos (t / 2 ^ p)| ≤ 7 ∧
      |((cisHorner p t (cisSteps p) 1).2 : ℝ) - 2 ^ p * Real.sin (t / 2 ^ p)| ≤ 7 := by
  have hp : (0 : ℝ) < 2 ^ p := by positivity
  have hc : HornerClose p t (cisSteps p) 1 6 := by
    have := hornerClose_one ht (p / 3 + 14)
    rwa [show p / 3 + 14 + 2 = cisSteps p by simp only [cisSteps]] at this
  have hr := exp_remainder p (t / 2 ^ p) (ht.trans (by norm_num))
  set z := Complex.exp (((t / 2 ^ p : ℝ) : ℂ) * Complex.I) - hornerExp (((t / 2 ^ p : ℝ) : ℂ) * Complex.I) (cisSteps p) 1
    with hz
  have hre : z.re = Real.cos (t / 2 ^ p) - (hornerExp (((t / 2 ^ p : ℝ) : ℂ) * Complex.I) (cisSteps p) 1).re := by
    rw [hz, Complex.sub_re, Complex.exp_ofReal_mul_I_re]
  have him : z.im = Real.sin (t / 2 ^ p) - (hornerExp (((t / 2 ^ p : ℝ) : ℂ) * Complex.I) (cisSteps p) 1).im := by
    rw [hz, Complex.sub_im, Complex.exp_ofReal_mul_I_im]
  have h1 : |2 ^ p * z.re| ≤ 1 := by
    rw [abs_mul, abs_of_pos hp]
    exact (mul_le_mul_of_nonneg_left (Complex.abs_re_le_norm z) hp.le).trans hr
  have h2 : |2 ^ p * z.im| ≤ 1 := by
    rw [abs_mul, abs_of_pos hp]
    exact (mul_le_mul_of_nonneg_left (Complex.abs_im_le_norm z) hp.le).trans hr
  rw [hre, mul_sub] at h1
  rw [him, mul_sub] at h2
  have a1 := abs_le.mp h1
  have a2 := abs_le.mp h2
  have b1 := abs_le.mp hc.1
  have b2 := abs_le.mp hc.2
  constructor
  · rw [abs_le]
    constructor <;> linarith [a1.1, a1.2, b1.1, b1.2]
  · rw [abs_le]
    constructor <;> linarith [a2.1, a2.2, b2.1, b2.2]

end Sys2Proof.Laws
end

