-- ==== Sys2Proof/Laws/Enclosure.lean ====
section
/-! SUPPORT. What an `Iv` encloses, that every operation on enclosures keeps it, and the enclosures of sine and cosine. -/

namespace Sys2Proof.Laws

open Sys2Proof.Machine

/-- `b` encloses `x` at scale `s`. -/
def Encl (b : Iv) (s x : ℝ) : Prop := (b.lo : ℝ) ≤ s * x ∧ s * x ≤ b.hi

/-- The distance of the ends of an enclosure. -/
def width (b : Iv) : ℝ := (b.hi : ℝ) - b.lo

theorem Encl.exact {z : ℤ} {s x : ℝ} (h : (z : ℝ) = s * x) : Encl (.exact z) s x := ⟨h.le, h.ge⟩

@[simp] theorem width_exact (z : ℤ) : width (.exact z) = 0 := by simp [width, Iv.exact]

theorem Encl.add {b c : Iv} {s x y : ℝ} (hb : Encl b s x) (hc : Encl c s y) : Encl (b.add c) s (x + y) := by
  simp only [Encl, Iv.add, mul_add, Int.cast_add] at *
  constructor <;> linarith [hb.1, hb.2, hc.1, hc.2]

@[simp] theorem width_add (b c : Iv) : width (b.add c) = width b + width c := by
  simp only [width, Iv.add, Int.cast_add]
  ring

theorem Encl.neg {b : Iv} {s x : ℝ} (hb : Encl b s x) : Encl b.neg s (-x) := by
  simp only [Encl, Iv.neg, Int.cast_neg, mul_neg] at *
  exact ⟨neg_le_neg hb.2, neg_le_neg hb.1⟩

@[simp] theorem width_neg (b : Iv) : width b.neg = width b := by
  simp only [width, Iv.neg, Int.cast_neg]
  ring

theorem Encl.scale {b : Iv} {s x : ℝ} (k : ℤ) (hb : Encl b s x) : Encl (b.scale k) s (k * x) := by
  have e : s * ((k : ℝ) * x) = k * (s * x) := by ring
  unfold Iv.scale
  split
  · next h =>
    have hk : (0 : ℝ) ≤ k := by exact_mod_cast h
    simp only [Encl, Int.cast_mul, e]
    exact ⟨mul_le_mul_of_nonneg_left hb.1 hk, mul_le_mul_of_nonneg_left hb.2 hk⟩
  · next h =>
    have hk : (k : ℝ) ≤ 0 := by exact_mod_cast (not_le.mp h).le
    simp only [Encl, Int.cast_mul, e]
    exact ⟨mul_le_mul_of_nonpos_left hb.2 hk, mul_le_mul_of_nonpos_left hb.1 hk⟩

theorem width_scale (k : ℤ) (b : Iv) : width (b.scale k) = |(k : ℝ)| * width b := by
  unfold Iv.scale
  split
  · next h =>
    have hk : (0 : ℝ) ≤ k := by exact_mod_cast h
    simp only [width, Int.cast_mul, abs_of_nonneg hk]
    ring
  · next h =>
    have hk : (k : ℝ) ≤ 0 := by exact_mod_cast (not_le.mp h).le
    simp only [width, Int.cast_mul, abs_of_nonpos hk]
    ring

theorem Encl.abs {b : Iv} {s x : ℝ} (hs : 0 ≤ s) (hb : Encl b s x) : Encl b.abs s |x| := by
  have e : s * |x| = |s * x| := by rw [abs_mul, abs_of_nonneg hs]
  simp only [Encl, Iv.abs, e, Int.cast_max, Int.cast_neg, Int.cast_zero]
  refine ⟨max_le (abs_nonneg _) (max_le (hb.1.trans (le_abs_self _)) ((neg_le_neg hb.2).trans (neg_le_abs _))),
    abs_le.mpr ⟨?_, hb.2.trans (le_max_right _ _)⟩⟩
  linarith [hb.1, le_max_left (-(b.lo : ℝ)) (b.hi : ℝ)]

theorem width_abs_le (b : Iv) (h : b.lo ≤ b.hi) : width b.abs ≤ width b := by
  have h' : (b.lo : ℝ) ≤ b.hi := by exact_mod_cast h
  simp only [width, Iv.abs, Int.cast_max, Int.cast_neg, Int.cast_zero]
  have h0 := le_max_left (0 : ℝ) (max (b.lo : ℝ) (-b.hi))
  have h1 := le_max_right (0 : ℝ) (max (b.lo : ℝ) (-b.hi))
  have h2 := le_max_left (b.lo : ℝ) (-b.hi)
  have h3 := le_max_right (b.lo : ℝ) (-(b.hi : ℝ))
  rcases max_cases (-(b.lo : ℝ)) (b.hi : ℝ) with ⟨h4, _⟩ | ⟨h4, _⟩ <;> rw [h4] <;> linarith

theorem Iv.abs_lo_nonneg (b : Iv) : 0 ≤ b.abs.lo := le_max_left _ _

theorem Encl.le {b : Iv} {s x : ℝ} (h : Encl b s x) : b.lo ≤ b.hi := by exact_mod_cast h.1.trans h.2

theorem Encl.sum {ι : Type} (l : List ι) (b : ι → Iv) (f : ι → ℝ) {s : ℝ} (h : ∀ i ∈ l, Encl (b i) s (f i)) :
    Encl (Iv.sum (l.map b)) s (l.map f).sum := by
  induction l with
  | nil => exact Encl.exact (by simp)
  | cons i t ih =>
    simp only [List.map_cons, List.sum_cons]
    exact (h i (by simp)).add (ih fun j hj => h j (by simp [hj]))

theorem width_sum_le {ι : Type} (l : List ι) (b : ι → Iv) (w : ι → ℝ) (h : ∀ i ∈ l, width (b i) ≤ w i) :
    width (Iv.sum (l.map b)) ≤ (l.map w).sum := by
  induction l with
  | nil => simp [Iv.sum]
  | cons i t ih =>
    have : Iv.sum ((i :: t).map b) = (b i).add (Iv.sum (t.map b)) := rfl
    rw [this, width_add, List.map_cons, List.sum_cons]
    exact add_le_add (h i (by simp)) (ih fun j hj => h j (by simp [hj]))

/-- The largest of 0 and the members. -/
noncomputable def supOf (l : List ℝ) : ℝ := l.foldr max 0

theorem Encl.sup {ι : Type} (l : List ι) (b : ι → Iv) (f : ι → ℝ) {s : ℝ} (hs : 0 ≤ s)
    (h : ∀ i ∈ l, Encl (b i) s (f i)) : Encl (Iv.sup (l.map b)) s (supOf (l.map f)) := by
  induction l with
  | nil => exact Encl.exact (by simp [supOf])
  | cons i t ih =>
    have h1 := h i (by simp)
    have h2 := ih fun j hj => h j (by simp [hj])
    have e : s * supOf ((i :: t).map f) = max (s * f i) (s * supOf (t.map f)) := by
      rw [← mul_max_of_nonneg _ _ hs]
      rfl
    have e1 : Iv.sup ((i :: t).map b) =
      ⟨max (b i).lo (Iv.sup (t.map b)).lo, max (b i).hi (Iv.sup (t.map b)).hi⟩ := rfl
    rw [Encl, e, e1]
    simp only [Int.cast_max]
    exact ⟨max_le_max h1.1 h2.1, max_le_max h1.2 h2.2⟩

theorem width_sup_le {ι : Type} (l : List ι) (b : ι → Iv) (w : ℝ) (hw : 0 ≤ w) (h : ∀ i ∈ l, width (b i) ≤ w) :
    width (Iv.sup (l.map b)) ≤ w := by
  induction l with
  | nil => simpa [Iv.sup] using hw
  | cons i t ih =>
    have h1 := h i (by simp)
    have h2 := ih fun j hj => h j (by simp [hj])
    have e1 : Iv.sup ((i :: t).map b) =
      ⟨max (b i).lo (Iv.sup (t.map b)).lo, max (b i).hi (Iv.sup (t.map b)).hi⟩ := rfl
    rw [e1]
    simp only [width, Int.cast_max] at *
    have h3 := le_max_left ((b i).lo : ℝ) (Iv.sup (t.map b)).lo
    have h4 := le_max_right ((b i).lo : ℝ) (Iv.sup (t.map b)).lo
    rcases max_cases ((b i).hi : ℝ) (Iv.sup (t.map b)).hi with ⟨h5, _⟩ | ⟨h5, _⟩ <;> rw [h5] <;> linarith

theorem sup_lo_nonneg (l : List Iv) : 0 ≤ (Iv.sup l).lo := by
  induction l with
  | nil => exact le_rfl
  | cons b t ih => exact ih.trans (le_max_right _ _)

/-! ## Products -/

theorem Encl.mul {b c : Iv} {s r x y : ℝ} (hb : Encl b s x) (hc : Encl c r y) : Encl (b.mul c) (s * r) (x * y) := by
  have e : s * r * (x * y) = s * x * (r * y) := by ring
  simp only [Encl, Iv.mul, e, Int.cast_min, Int.cast_max, Int.cast_mul]
  obtain ⟨b1, b2⟩ := hb
  obtain ⟨c1, c2⟩ := hc
  constructor
  · rcases le_total 0 (s * x) with hx | hx
    · rcases le_total 0 (c.lo : ℝ) with h | h
      · exact (min_le_left _ _).trans ((min_le_left _ _).trans (by nlinarith))
      · exact (min_le_right _ _).trans ((min_le_left _ _).trans (by nlinarith))
    · rcases le_total 0 (c.hi : ℝ) with h | h
      · exact (min_le_left _ _).trans ((min_le_right _ _).trans (by nlinarith))
      · exact (min_le_right _ _).trans ((min_le_right _ _).trans (by nlinarith))
  · rcases le_total 0 (s * x) with hx | hx
    · rcases le_total 0 (c.hi : ℝ) with h | h
      · exact le_trans (by nlinarith) ((le_max_right _ _).trans (le_max_right _ _))
      · exact le_trans (by nlinarith) ((le_max_right _ _).trans (le_max_left _ _))
    · rcases le_total 0 (c.lo : ℝ) with h | h
      · exact le_trans (by nlinarith) ((le_max_left _ _).trans (le_max_right _ _)) 
      · exact le_trans (by nlinarith) ((le_max_left _ _).trans (le_max_left _ _)) 

theorem Encl.sq {b : Iv} {s x : ℝ} (hs : 0 ≤ s) (hb : Encl b s x) : Encl b.sq (s * s) (x ^ 2) := by
  have h := hb.abs hs
  have h0 : (0 : ℝ) ≤ b.abs.lo := by exact_mod_cast Iv.abs_lo_nonneg b
  have e : s * s * x ^ 2 = (s * |x|) * (s * |x|) := by
    rw [← sq_abs]
    ring
  simp only [Encl, Iv.sq, Int.cast_mul, e]
  exact ⟨mul_self_le_mul_self h0 h.1, mul_self_le_mul_self (by positivity) h.2⟩

end Sys2Proof.Laws
end

