-- ==== Sys2Proof/Laws/SineEnclosure.lean ====
section
/-! SUPPORT. `sinIv` encloses `sin (2π · a / d)` and is at most `2 · sinErr p` wide. -/

namespace Sys2Proof.Laws

open Sys2Proof.Machine

/-- The angle of `a / d` of a turn. -/
noncomputable def turn (a d : ℕ) : ℝ := 2 * Real.pi * (a / d)

theorem linear_le_two_pow (p : ℕ) (hp : 16 ≤ p) : 40 * (3 * p + 21) ≤ 2 ^ p := by
  induction p, hp using Nat.le_induction with
  | base => norm_num
  | succ n hn ih =>
    rw [pow_succ]
    omega

/-- The angle within a quarter turn that `sinApprox` works with. -/
theorem quarterAngle_close (p r d : ℕ) (hd : 0 < d) (hr : r < d) :
    |(((halfPi p * (r : ℤ) / (d : ℤ) : ℤ)) : ℝ) - 2 ^ p * (Real.pi / 2 * (r / d))| ≤ 3 * p + 21 := by
  have hd' : (0 : ℝ) < d := by exact_mod_cast hd
  have h := intDiv_real_bounds (halfPi p * r) d (by exact_mod_cast hd)
  have hq0 : (0 : ℝ) ≤ (r : ℝ) / d := by positivity
  have hq1 : (r : ℝ) / d ≤ 1 := (div_le_one hd').mpr (by exact_mod_cast hr.le)
  have hm : |((halfPi p : ℝ) - 2 ^ p * (Real.pi / 2)) * (r / d)| ≤ 3 * p + 20 := by
    rw [abs_mul, abs_of_nonneg hq0]
    calc _ ≤ |(halfPi p : ℝ) - 2 ^ p * (Real.pi / 2)| * 1 := by gcongr
      _ ≤ _ := by simpa using halfPi_close p
  have hm' := abs_le.mp hm
  have e : ((halfPi p * (r : ℤ) : ℤ) : ℝ) / ((d : ℤ) : ℝ) = halfPi p * (r / d) := by
    push_cast
    ring
  rw [e] at h
  rw [abs_le]
  constructor <;> linarith [hm'.1, hm'.2, h.1, h.2]

/-- A sine or cosine changes by at most the change of the angle. -/
theorem sin_cos_close (x y : ℝ) : |Real.sin x - Real.sin y| ≤ |x - y| ∧ |Real.cos x - Real.cos y| ≤ |x - y| := by
  have hs := Real.lipschitzWith_sin.dist_le_mul x y
  have hc := Real.lipschitzWith_cos.dist_le_mul x y
  simp only [Real.dist_eq, NNReal.coe_one, one_mul] at hs hc
  exact ⟨hs, hc⟩

/-- The pair `cisHorner` gives for an angle within a quarter turn. -/
theorem quarter_close (p r d : ℕ) (hp : 16 ≤ p) (hd : 0 < d) (hr : r < d) :
    |((cisHorner p (halfPi p * (r : ℤ) / (d : ℤ)) (cisSteps p) 1).1 : ℝ) - 2 ^ p * Real.cos (Real.pi / 2 * (r / d))|
        ≤ sinErr p ∧
      |((cisHorner p (halfPi p * (r : ℤ) / (d : ℤ)) (cisSteps p) 1).2 : ℝ) - 2 ^ p * Real.sin (Real.pi / 2 * (r / d))|
        ≤ sinErr p := by
  have hp2 : (0 : ℝ) < 2 ^ p := by positivity
  have hd' : (0 : ℝ) < d := by exact_mod_cast hd
  have ha := quarterAngle_close p r d hd hr
  set t : ℤ := halfPi p * (r : ℤ) / (d : ℤ) with ht
  set θ : ℝ := Real.pi / 2 * (r / d) with hθ
  have hlin : 40 * (3 * (p : ℝ) + 21) ≤ 2 ^ p := by exact_mod_cast linear_le_two_pow p hp
  have hdist : |(t / 2 ^ p : ℝ) - θ| ≤ (3 * p + 21) / 2 ^ p := by
    rw [le_div_iff₀ hp2, ← abs_of_pos hp2, ← abs_mul, abs_of_pos hp2, sub_mul, div_mul_cancel₀ _ hp2.ne', mul_comm θ]
    exact ha
  have hq1 : (r : ℝ) / d ≤ 1 := (div_le_one hd').mpr (by exact_mod_cast hr.le)
  have hθ0 : 0 ≤ θ := by positivity
  have hθ1 : θ ≤ 1.571 := by
    have h3 : Real.pi / 2 * ((r : ℝ) / d) ≤ Real.pi / 2 * 1 :=
      mul_le_mul_of_nonneg_left hq1 (by positivity)
    have h4 := Real.pi_lt_d4
    rw [hθ]
    linarith
  have hsmall : (3 * (p : ℝ) + 21) / 2 ^ p ≤ 1 / 40 := by
    rw [div_le_iff₀ hp2]
    linarith
  have hd1 := abs_le.mp hdist
  have hx : |(t / 2 ^ p : ℝ)| ≤ 8 / 5 := by
    rw [abs_le]
    constructor <;> linarith [hd1.1, hd1.2]
  have hc := cisHorner_close p t hx
  have hsc := sin_cos_close (t / 2 ^ p) θ
  have bound : ∀ (v : ℤ) (f g : ℝ), |(v : ℝ) - 2 ^ p * f| ≤ 7 → |f - g| ≤ |(t / 2 ^ p : ℝ) - θ| →
      |(v : ℝ) - 2 ^ p * g| ≤ sinErr p := by
    intro v f g h1 h2
    have h3 : |2 ^ p * (f - g)| ≤ 3 * p + 21 := by
      rw [abs_mul, abs_of_pos hp2, mul_comm, ← le_div_iff₀ hp2]
      exact h2.trans hdist
    rw [mul_sub] at h3
    have a1 := abs_le.mp h1
    have a3 := abs_le.mp h3
    have h0 : (0 : ℝ) ≤ p := Nat.cast_nonneg p
    simp only [sinErr]
    push_cast
    rw [abs_le]
    constructor <;> linarith [a1.1, a1.2, a3.1, a3.2]
  exact ⟨bound _ _ _ hc.1 hsc.2, bound _ _ _ hc.2 hsc.1⟩

/-- `q` quarter turns and an angle. -/
theorem quarterSin_close (q : ℕ) (cs : ℤ × ℤ) (p : ℕ) (θ e : ℝ) (hc : |(cs.1 : ℝ) - 2 ^ p * Real.cos θ| ≤ e)
    (hs : |(cs.2 : ℝ) - 2 ^ p * Real.sin θ| ≤ e) (hq : q < 4) :
    |(quarterSin q cs : ℝ) - 2 ^ p * Real.sin (q * (Real.pi / 2) + θ)| ≤ e := by
  interval_cases q
  · simpa [quarterSin] using hs
  · have : Real.sin (1 * (Real.pi / 2) + θ) = Real.cos θ := by
      rw [one_mul, add_comm, Real.sin_add_pi_div_two]
    change |((cs.1 : ℤ) : ℝ) - 2 ^ p * Real.sin (((1 : ℕ) : ℝ) * (Real.pi / 2) + θ)| ≤ e
    rwa [Nat.cast_one, this]
  · have : Real.sin (2 * (Real.pi / 2) + θ) = -Real.sin θ := by
      rw [show 2 * (Real.pi / 2) + θ = θ + Real.pi by ring, Real.sin_add_pi]
    simp only [quarterSin, Nat.cast_ofNat, this, Int.cast_neg]
    rw [← abs_neg]
    simpa [add_comm, sub_eq_add_neg] using hs
  · have : Real.sin (3 * (Real.pi / 2) + θ) = -Real.cos θ := by
      rw [show 3 * (Real.pi / 2) + θ = θ + Real.pi / 2 + Real.pi by ring, Real.sin_add_pi, Real.sin_add_pi_div_two]
    simp only [quarterSin, Nat.cast_ofNat, this, Int.cast_neg]
    rw [← abs_neg]
    simpa [add_comm, sub_eq_add_neg] using hc

theorem sinApprox_close (p a d : ℕ) (hp : 16 ≤ p) (hd : 0 < d) (ha : a < d) :
    |(sinApprox p (halfPi p) a d : ℝ) - 2 ^ p * Real.sin (turn a d)| ≤ sinErr p := by
  have hr : 4 * a % d < d := Nat.mod_lt _ hd
  have hq : 4 * a / d < 4 := by rw [Nat.div_lt_iff_lt_mul hd]; omega
  have h := quarter_close p (4 * a % d) d hp hd hr
  have hd' : (d : ℝ) ≠ 0 := by exact_mod_cast hd.ne'
  have e : turn a d = ((4 * a / d : ℕ) : ℝ) * (Real.pi / 2) + Real.pi / 2 * (((4 * a % d : ℕ) : ℝ) / d) := by
    have hsum : ((d : ℝ) * ((4 * a / d : ℕ) : ℝ) + ((4 * a % d : ℕ) : ℝ)) = 4 * a := by
      exact_mod_cast Nat.div_add_mod (4 * a) d
    have : (a : ℝ) / d = (((4 * a / d : ℕ) : ℝ) + ((4 * a % d : ℕ) : ℝ) / d) / 4 := by
      field_simp
      linarith
    rw [turn, this]
    ring
  rw [e]
  exact quarterSin_close _ _ p _ _ h.1 h.2 hq

theorem turn_mod (a d : ℕ) (hd : 0 < d) : Real.sin (turn a d) = Real.sin (turn (a % d) d) := by
  have hd' : (d : ℝ) ≠ 0 := by exact_mod_cast hd.ne'
  have hsum : ((d : ℝ) * ((a / d : ℕ) : ℝ) + ((a % d : ℕ) : ℝ)) = a := by exact_mod_cast Nat.div_add_mod a d
  have e : turn a d = turn (a % d) d + ((a / d : ℕ) : ℝ) * (2 * Real.pi) := by
    rw [turn, turn, ← hsum]
    field_simp
    ring
  rw [e, Real.sin_add_nat_mul_two_pi]

theorem sin_twelfths (p j : ℕ) (hp : 1 ≤ p) (z : ℤ) (h : sinTwelfth p j = some z) :
    (z : ℝ) = 2 ^ p * Real.sin (turn j 12) := by
  have hpow : (2 : ℝ) ^ p = 2 * 2 ^ (p - 1) := by rw [← pow_succ']; congr 1; omega
  have pi6 : ∀ k : ℕ, turn k 12 = k * (Real.pi / 6) := by intro k; simp only [turn]; push_cast; ring
  have s1 := Real.sin_pi_div_six
  rw [pi6]
  unfold sinTwelfth at h
  split at h <;> simp only [Option.some.injEq, reduceCtorEq] at h <;> subst h
  · simp
  · rw [show ((6 : ℕ) : ℝ) * (Real.pi / 6) = Real.pi by push_cast; ring]; simp
  · push_cast; rw [one_mul, s1, hpow]; ring
  · rw [show ((5 : ℕ) : ℝ) * (Real.pi / 6) = Real.pi - Real.pi / 6 by push_cast; ring, Real.sin_pi_sub, s1, hpow]
    push_cast; ring
  · rw [show ((3 : ℕ) : ℝ) * (Real.pi / 6) = Real.pi / 2 by push_cast; ring, Real.sin_pi_div_two]; simp
  · rw [show ((7 : ℕ) : ℝ) * (Real.pi / 6) = Real.pi / 6 + Real.pi by push_cast; ring, Real.sin_add_pi, s1, hpow]
    push_cast; ring
  · rw [show ((11 : ℕ) : ℝ) * (Real.pi / 6) = 2 * Real.pi - Real.pi / 6 by push_cast; ring, Real.sin_two_pi_sub, s1, hpow]
    push_cast; ring
  · rw [show ((9 : ℕ) : ℝ) * (Real.pi / 6) = Real.pi / 2 + Real.pi by push_cast; ring, Real.sin_add_pi,
      Real.sin_pi_div_two]
    push_cast; ring

theorem sinIv_spec (p a d : ℕ) (hp : 16 ≤ p) (hd : 0 < d) :
    Encl (sinIv p (halfPi p) a d) (2 ^ p) (Real.sin (turn a d)) ∧ width (sinIv p (halfPi p) a d) ≤ 2 * sinErr p := by
  rw [turn_mod a d hd]
  unfold sinIv
  split
  · next z hz =>
    refine ⟨Encl.exact ?_, by simp⟩
    split at hz
    · next h =>
      have hd' : (d : ℝ) ≠ 0 := by exact_mod_cast hd.ne'
      have hj : ((d : ℝ) * ((12 * (a % d) / d : ℕ) : ℝ)) = 12 * ((a % d : ℕ) : ℝ) := by
        exact_mod_cast Nat.mul_div_cancel' (Nat.dvd_of_mod_eq_zero h)
      have e : turn (a % d) d = turn (12 * (a % d) / d) 12 := by
        have : ((a % d : ℕ) : ℝ) / d = ((12 * (a % d) / d : ℕ) : ℝ) / 12 := by
          field_simp
          linarith
        rw [turn, turn, this]
        norm_num
      rw [e]
      exact sin_twelfths p _ (by omega) z hz
    · exact absurd hz (by simp)
  · have h := abs_le.mp (sinApprox_close p (a % d) d hp hd (Nat.mod_lt _ hd))
    simp only [Encl, width]
    push_cast
    refine ⟨⟨?_, ?_⟩, ?_⟩ <;> linarith [h.1, h.2]

theorem cosIv_spec (p a d : ℕ) (hp : 16 ≤ p) (hd : 0 < d) :
    Encl (cosIv p (halfPi p) a d) (2 ^ p) (Real.cos (turn a d)) ∧ width (cosIv p (halfPi p) a d) ≤ 2 * sinErr p := by
  have hd' : (d : ℝ) ≠ 0 := by exact_mod_cast hd.ne'
  have e : Real.cos (turn a d) = Real.sin (turn (4 * a + d) (4 * d)) := by
    have : turn (4 * a + d) (4 * d) = turn a d + Real.pi / 2 := by
      simp only [turn]
      push_cast
      field_simp
      ring
    rw [this, Real.sin_add_pi_div_two]
  rw [e]
  exact sinIv_spec p (4 * a + d) (4 * d) hp (by omega)

end Sys2Proof.Laws
end

