-- ==== Sys2Proof/Laws/Rounding.lean ====
section
/-! SUPPORT. Rounding to the nearest integer, and what `quantIv` answers. -/

namespace Sys2Proof.Laws

open Sys2Proof.Machine Sys2Proof.Signal

theorem rne_close (x : ℝ) : (rne x : ℝ) - 1 / 2 ≤ x ∧ x ≤ rne x + 1 / 2 := by
  have h1 := Int.floor_le x
  have h2 := Int.lt_floor_add_one x
  unfold rne
  split_ifs <;> push_cast <;> constructor <;> linarith

theorem rne_tie (x : ℝ) (m : ℤ) (h : x = m + 1 / 2) : rne x % 2 = 0 := by
  have hf : ⌊x⌋ = m := by
    rw [Int.floor_eq_iff, h]
    constructor <;> linarith
  have hd : x - ⌊x⌋ = 1 / 2 := by rw [hf, h]; ring
  unfold rne
  rw [hd, if_neg (lt_irrefl _), if_neg (lt_irrefl _)]
  split_ifs <;> omega

theorem rne_mono {x y : ℝ} (h : x ≤ y) : rne x ≤ rne y := by
  by_contra hlt
  have h1 : ((rne y : ℤ) : ℝ) + 1 ≤ rne x := by exact_mod_cast not_le.mp hlt
  have hx := (rne_close x).1
  have hy := (rne_close y).2
  have e : x = y := by linarith
  rw [e] at hlt
  exact hlt le_rfl

theorem rne_intCast (m : ℤ) : rne m = m := by simp [rne]

theorem rneDiv_eq (num den : ℤ) (hd : 0 < den) : rneDiv num den = rne ((num : ℝ) / den) := by
  have hd' : (0 : ℝ) < den := by exact_mod_cast hd
  have hf : ⌊(num : ℝ) / den⌋ = num / den := by
    have h := intDiv_real_bounds num den hd
    rw [Int.floor_eq_iff]
    refine ⟨h.2, ?_⟩
    rw [div_lt_iff₀ hd']
    exact_mod_cast Int.lt_ediv_add_one_mul_self num hd
  have hm : (num : ℝ) / den - ((num / den : ℤ) : ℝ) = ((num % den : ℤ) : ℝ) / den := by
    have : ((den : ℝ) * ((num / den : ℤ) : ℝ) + ((num % den : ℤ) : ℝ)) = num := by
      exact_mod_cast Int.mul_ediv_add_emod num den
    field_simp
    linarith
  have hlt : ((num % den : ℤ) : ℝ) / den < 1 / 2 ↔ 2 * (num % den) < den := by
    rw [div_lt_iff₀ hd']
    constructor
    · intro h
      have : (2 : ℝ) * ((num % den : ℤ) : ℝ) < den := by linarith
      exact_mod_cast this
    · intro h
      have : (2 : ℝ) * ((num % den : ℤ) : ℝ) < den := by exact_mod_cast h
      linarith
  have hgt : 1 / 2 < ((num % den : ℤ) : ℝ) / den ↔ den < 2 * (num % den) := by
    rw [lt_div_iff₀ hd']
    constructor
    · intro h
      have : (den : ℝ) < 2 * ((num % den : ℤ) : ℝ) := by linarith
      exact_mod_cast this
    · intro h
      have : (den : ℝ) < 2 * ((num % den : ℤ) : ℝ) := by exact_mod_cast h
      linarith
  simp only [rneDiv, rne, hf, hm, hlt, hgt]

/-- The quotient's lower end. -/
def quotLo (pk y : Iv) : ℤ := if 0 ≤ y.lo then pk.hi else pk.lo

/-- The quotient's upper end. -/
def quotHi (pk y : Iv) : ℤ := if 0 ≤ y.hi then pk.lo else pk.hi

section
variable {pk y : Iv} {s v w : ℝ}

theorem quot_bounds (hs : 0 < s) (hy : Encl y s v) (hpk : Encl pk s w) (hlo : 0 < pk.lo) :
    (y.lo : ℝ) / quotLo pk y ≤ v / w ∧ v / w ≤ (y.hi : ℝ) / quotHi pk y ∧ 0 < quotLo pk y ∧ 0 < quotHi pk y ∧ 0 < w := by
  have hlo' : (0 : ℝ) < pk.lo := by exact_mod_cast hlo
  have hsw : 0 < s * w := hlo'.trans_le hpk.1
  have hhi' : (0 : ℝ) < pk.hi := hsw.trans_le hpk.2
  have hhi : 0 < pk.hi := by exact_mod_cast hhi'
  have hw : 0 < w := (mul_pos_iff_of_pos_left hs).mp hsw
  have e : v / w = s * v / (s * w) := by rw [mul_div_mul_left _ _ hs.ne']
  refine ⟨?_, ?_, ?_, ?_, hw⟩
  · rw [e, quotLo]
    split
    · next h =>
      have h' : (0 : ℝ) ≤ y.lo := by exact_mod_cast h
      rw [div_le_div_iff₀ hhi' hsw]
      exact mul_le_mul hy.1 hpk.2 hsw.le (h'.trans hy.1)
    · next h =>
      have h' : (y.lo : ℝ) < 0 := by exact_mod_cast not_le.mp h
      rw [div_le_div_iff₀ hlo' hsw]
      nlinarith [hy.1, hpk.1]
  · rw [e, quotHi]
    split
    · next h =>
      have h' : (0 : ℝ) ≤ y.hi := by exact_mod_cast h
      rw [div_le_div_iff₀ hsw hlo']
      nlinarith [hy.2, hpk.1]
    · next h =>
      have h' : (y.hi : ℝ) < 0 := by exact_mod_cast not_le.mp h
      rw [div_le_div_iff₀ hsw hhi']
      nlinarith [hy.2, hpk.2]
  · rw [quotLo]; split <;> assumption
  · rw [quotHi]; split <;> assumption

theorem quantIv_eq (last : Bool) (pk y : Iv) :
    quantIv last pk y =
      if rneDiv (32767 * y.lo) (quotLo pk y) = rneDiv (32767 * y.hi) (quotHi pk y) then
        some (rneDiv (32767 * y.lo) (quotLo pk y))
      else if last then
        some (if rneDiv (32767 * y.lo) (quotLo pk y) % 2 = 0 then rneDiv (32767 * y.lo) (quotLo pk y)
          else rneDiv (32767 * y.hi) (quotHi pk y))
      else none := rfl

/-- The ends of the quotient round to integers on both sides of the quantised value. -/
theorem quant_ends (hs : 0 < s) (hy : Encl y s v) (hpk : Encl pk s w) (hlo : 0 < pk.lo) :
    rneDiv (32767 * y.lo) (quotLo pk y) = rne (32767 * ((y.lo : ℝ) / quotLo pk y)) ∧
      rneDiv (32767 * y.hi) (quotHi pk y) = rne (32767 * ((y.hi : ℝ) / quotHi pk y)) ∧
      32767 * ((y.lo : ℝ) / quotLo pk y) ≤ 32767 * (v / w) ∧
      32767 * (v / w) ≤ 32767 * ((y.hi : ℝ) / quotHi pk y) := by
  obtain ⟨h1, h2, h3, h4, _⟩ := quot_bounds hs hy hpk hlo
  refine ⟨?_, ?_, by linarith, by linarith⟩
  · rw [rneDiv_eq _ _ h3]
    push_cast
    rw [mul_div_assoc]
  · rw [rneDiv_eq _ _ h4]
    push_cast
    rw [mul_div_assoc]

theorem quantIv_false (hs : 0 < s) (hy : Encl y s v) (hpk : Encl pk s w) (hlo : 0 < pk.lo) {z : ℤ}
    (h : quantIv false pk y = some z) : z = quantise (v / w) := by
  obtain ⟨e1, e2, h1, h2⟩ := quant_ends hs hy hpk hlo
  rw [quantIv_eq] at h
  split at h
  · next hab =>
    simp only [Option.some.injEq] at h
    rw [e1, e2] at hab
    rw [e1] at h
    have a1 := rne_mono h1
    have a2 := rne_mono h2
    rw [quantise]
    omega
  · simp at h

/-- A half-integer between the quotient and one of its ends makes `65534 · v − k · w` as small as the enclosures are
wide. -/
theorem tie_small (hs : 0 < s) (hy : Encl y s v) (hpk : Encl pk s w) (hlo : 0 < pk.lo) (k : ℤ)
    (h1 : 32767 * ((y.lo : ℝ) / quotLo pk y) ≤ k / 2) (h2 : (k : ℝ) / 2 ≤ 32767 * ((y.hi : ℝ) / quotHi pk y)) :
    |s * (65534 * v - k * w)| ≤ 65534 * width y + |(k : ℝ)| * width pk := by
  obtain ⟨_, _, h3, h4, _⟩ := quot_bounds hs hy hpk hlo
  have h3' : (0 : ℝ) < quotLo pk y := by exact_mod_cast h3
  have h4' : (0 : ℝ) < quotHi pk y := by exact_mod_cast h4
  have hle : (pk.lo : ℝ) ≤ pk.hi := hpk.1.trans hpk.2
  have g1 : 65534 * (y.lo : ℝ) ≤ k * quotLo pk y := by
    have := mul_le_mul_of_nonneg_right h1 h3'.le
    rw [mul_assoc, div_mul_cancel₀ _ h3'.ne'] at this
    linarith
  have g2 : k * (quotHi pk y : ℝ) ≤ 65534 * y.hi := by
    have := mul_le_mul_of_nonneg_right h2 h4'.le
    rw [mul_assoc 32767, div_mul_cancel₀ _ h4'.ne'] at this
    linarith
  have between : ∀ q : ℤ, (q = pk.lo ∨ q = pk.hi) → (pk.lo : ℝ) ≤ q ∧ (q : ℝ) ≤ pk.hi := by
    rintro q (rfl | rfl) <;> constructor <;> linarith
  have q1 := between (quotLo pk y) (by unfold quotLo; split <;> simp)
  have q2 := between (quotHi pk y) (by unfold quotHi; split <;> simp)
  have e : s * (65534 * v - k * w) = 65534 * (s * v) - k * (s * w) := by ring
  rw [e, abs_le]
  simp only [width]
  rcases le_total 0 (k : ℝ) with hk | hk
  · rw [abs_of_nonneg hk]
    constructor <;> nlinarith [hy.1, hy.2, hpk.1, hpk.2, q1.1, q1.2, q2.1, q2.2]
  · rw [abs_of_nonpos hk]
    constructor <;> nlinarith [hy.1, hy.2, hpk.1, hpk.2, q1.1, q1.2, q2.1, q2.2]

/-- At the last precision the quantiser answers, and answers the quantised quotient. -/
theorem quantIv_true (hs : 0 < s) (hy : Encl y s v) (hpk : Encl pk s w) (hlo : 0 < pk.lo) (hvw : |v| ≤ w)
    (hsep : ∀ k : ℤ, |k| ≤ 65537 → 65534 * v - k * w ≠ 0 →
      65534 * width y + 65537 * width pk < |s * (65534 * v - k * w)|) :
    quantIv true pk y = some (quantise (v / w)) := by
  obtain ⟨e1, e2, h1, h2⟩ := quant_ends hs hy hpk hlo
  obtain ⟨_, _, _, _, hw⟩ := quot_bounds hs hy hpk hlo
  have hpkw : 0 ≤ width pk := sub_nonneg.mpr (hpk.1.trans hpk.2)
  have hr : |32767 * (v / w)| ≤ 32767 := by
    rw [abs_mul, abs_div, abs_of_pos hw, abs_of_pos (by norm_num : (0 : ℝ) < 32767)]
    have := (div_le_one hw).mpr hvw
    linarith
  have hr' := abs_le.mp hr
  have tie : ∀ k : ℤ, |k| ≤ 65537 → 32767 * ((y.lo : ℝ) / quotLo pk y) ≤ k / 2 →
      (k : ℝ) / 2 ≤ 32767 * ((y.hi : ℝ) / quotHi pk y) → 32767 * (v / w) = k / 2 := by
    intro k hk t1 t2
    by_contra hne
    have hne' : 65534 * v - k * w ≠ 0 := by
      intro h0
      apply hne
      rw [mul_div_assoc', div_eq_div_iff hw.ne' (by norm_num)]
      linarith
    have := hsep k hk hne'
    have h3 := tie_small hs hy hpk hlo k t1 t2
    have hk' : |(k : ℝ)| ≤ 65537 := by exact_mod_cast hk
    nlinarith
  rw [quantIv_eq, if_pos rfl, e1, e2, quantise]
  set r := 32767 * (v / w) with hrdef
  set m := rne r with hm
  have ha := rne_mono h1
  have hb := rne_mono h2
  have hmc := rne_close r
  have hmb : -32767 ≤ m ∧ m ≤ 32767 := by
    have u1 := rne_mono hr'.1
    have u2 := rne_mono hr'.2
    rw [show (-32767 : ℝ) = ((-32767 : ℤ) : ℝ) by norm_num, rne_intCast] at u1
    rw [show (32767 : ℝ) = ((32767 : ℤ) : ℝ) by norm_num, rne_intCast] at u2
    exact ⟨u1, u2⟩
  set a := rne (32767 * ((y.lo : ℝ) / quotLo pk y)) with hadef
  set b := rne (32767 * ((y.hi : ℝ) / quotHi pk y)) with hbdef
  have hac := rne_close (32767 * ((y.lo : ℝ) / quotLo pk y))
  have hbc := rne_close (32767 * ((y.hi : ℝ) / quotHi pk y))
  -- a half-integer above `m` and not above the upper end is the quotient
  have above : m < b → r = (2 * m + 1 : ℤ) / 2 := by
    intro hlt
    have hlt' : (m : ℝ) + 1 ≤ b := by exact_mod_cast hlt
    refine tie (2 * m + 1) (by rw [abs_le]; omega) ?_ ?_ <;> push_cast <;> linarith [hmc.2, hbc.1]
  have below : ∀ j : ℤ, a < j → j ≤ m → m - 1 ≤ j → r = (2 * j - 1 : ℤ) / 2 := by
    intro j hlt hjm hj1
    have hlt' : (a : ℝ) + 1 ≤ j := by exact_mod_cast hlt
    have hjm' : (j : ℝ) ≤ m := by exact_mod_cast hjm
    refine tie (2 * j - 1) (by rw [abs_le]; omega) ?_ ?_ <;> push_cast <;> linarith [hmc.1, hac.2]
  by_cases hab : a = b
  · rw [if_pos hab]
    congr 1
    omega
  · rw [if_neg hab]
    congr 1
    rcases lt_or_eq_of_le hb with hlt | heq
    · have hr1 := above hlt
      have heven : m % 2 = 0 := rne_tie r m (by rw [hr1]; push_cast; ring)
      have hnot : ¬ a < m := by
        intro hlt2
        have hr2 := below m hlt2 le_rfl (by omega)
        rw [hr1] at hr2
        push_cast at hr2
        linarith
      have : a = m := by omega
      rw [this, if_pos heven]
    · have hlt2 : a < m := by omega
      have hr2 := below m hlt2 le_rfl (by omega)
      have heven : m % 2 = 0 := rne_tie r (m - 1) (by rw [hr2]; push_cast; ring)
      have hnot : ¬ a < m - 1 := by
        intro hlt3
        have hr3 := below (m - 1) hlt3 (by omega) le_rfl
        rw [hr2] at hr3
        push_cast at hr3
        linarith
      rw [if_neg (by omega), ← heq]

end

end Sys2Proof.Laws
end

