-- ==== Sys2Proof/Laws/Separation.lean ====
section
/-! SUPPORT. Two different integer combinations of roots of unity differ by more than a bound their conjugates give: the
product of the conjugates of a nonzero algebraic integer is a nonzero integer. -/

namespace Sys2Proof.Laws

open Polynomial

/-- The first root of unity of order `n`. -/
noncomputable def rootOne (n : ℕ) : ℂ := Complex.exp (2 * Real.pi * Complex.I / n)

/-- `x` is an integer polynomial in the roots of unity of order `n`, and each of its conjugates is at most `b`. -/
def CycInt (n : ℕ) (b : ℝ) (x : ℂ) : Prop :=
  ∃ f : ℤ[X], aeval (rootOne n) f = x ∧ ∀ z : ℂ, z ^ n = 1 → ‖aeval z f‖ ≤ b

theorem rootOne_pow (n : ℕ) (hn : 0 < n) : rootOne n ^ n = 1 :=
  (Complex.isPrimitiveRoot_exp n hn.ne').pow_eq_one

theorem CycInt.mono {n : ℕ} {b c : ℝ} {x : ℂ} (h : CycInt n b x) (hbc : b ≤ c) : CycInt n c x := by
  obtain ⟨f, hf, hb⟩ := h
  exact ⟨f, hf, fun z hz => (hb z hz).trans hbc⟩

theorem CycInt.int (n : ℕ) (k : ℤ) : CycInt n |(k : ℝ)| k :=
  ⟨C k, by simp, fun z _ => by simp⟩

theorem CycInt.add {n : ℕ} {b c : ℝ} {x y : ℂ} (hx : CycInt n b x) (hy : CycInt n c y) : CycInt n (b + c) (x + y) := by
  obtain ⟨f, hf, hb⟩ := hx
  obtain ⟨g, hg, hc⟩ := hy
  refine ⟨f + g, by simp [hf, hg], fun z hz => ?_⟩
  rw [map_add]
  exact (norm_add_le _ _).trans (add_le_add (hb z hz) (hc z hz))

theorem CycInt.mul {n : ℕ} {b c : ℝ} {x y : ℂ} (hx : CycInt n b x) (hy : CycInt n c y) : CycInt n (b * c) (x * y) := by
  obtain ⟨f, hf, hb⟩ := hx
  obtain ⟨g, hg, hc⟩ := hy
  refine ⟨f * g, by simp [hf, hg], fun z hz => ?_⟩
  rw [map_mul, norm_mul]
  exact mul_le_mul (hb z hz) (hc z hz) (norm_nonneg _) ((norm_nonneg _).trans (hb z hz))

theorem CycInt.smul {n : ℕ} {b : ℝ} {x : ℂ} (k : ℤ) (hx : CycInt n b x) : CycInt n (|(k : ℝ)| * b) (k * x) :=
  (CycInt.int n k).mul hx

theorem CycInt.neg {n : ℕ} {b : ℝ} {x : ℂ} (hx : CycInt n b x) : CycInt n b (-x) := by
  simpa using hx.smul (-1)

theorem CycInt.sub {n : ℕ} {b c : ℝ} {x y : ℂ} (hx : CycInt n b x) (hy : CycInt n c y) : CycInt n (b + c) (x - y) := by
  simpa [sub_eq_add_neg] using hx.add hy.neg

theorem CycInt.sum {ι : Type} {n : ℕ} (l : List ι) (b : ι → ℝ) (f : ι → ℂ) (h : ∀ i ∈ l, CycInt n (b i) (f i)) :
    CycInt n (l.map b).sum (l.map f).sum := by
  induction l with
  | nil => simpa using CycInt.int n 0
  | cons i t ih =>
    simp only [List.map_cons, List.sum_cons]
    exact (h i (by simp)).add (ih fun j hj => h j (by simp [hj]))

/-- Every power of a root of unity whose order divides `n`. -/
theorem CycInt.root {n : ℕ} (hn : 0 < n) (e d : ℕ) (hd : 0 < d) (h : d ∣ n) :
    CycInt n 1 (Complex.exp (2 * Real.pi * Complex.I * (e / d))) := by
  obtain ⟨k, rfl⟩ := h
  have hk : 0 < k := Nat.pos_of_ne_zero (by rintro rfl; simp at hn)
  refine ⟨X ^ (e * k), ?_, fun z hz => ?_⟩
  · have hd' : (d : ℂ) ≠ 0 := by exact_mod_cast hd.ne'
    have hk' : (k : ℂ) ≠ 0 := by exact_mod_cast hk.ne'
    rw [map_pow, aeval_X, rootOne, ← Complex.exp_nat_mul]
    congr 1
    push_cast
    field_simp
  · have h1 : ‖z‖ = 1 := by
      have h2 : ‖z‖ ^ (d * k) = 1 := by rw [← norm_pow, hz, norm_one]
      exact (pow_eq_one_iff_of_nonneg (norm_nonneg _) hn.ne').mp h2
    simp [h1]

theorem CycInt.conj {n : ℕ} (hn : 0 < n) {b : ℝ} {x : ℂ} (h : CycInt n b x) :
    CycInt n b ((starRingEnd ℂ) x) := by
  obtain ⟨f, rfl, hb⟩ := h
  have h1 : ∀ z : ℂ, z ^ n = 1 → (z ^ (n - 1)) ^ n = 1 := fun z hz => by rw [← pow_mul, mul_comm, pow_mul, hz, one_pow]
  have h2 : (starRingEnd ℂ) (rootOne n) = rootOne n ^ (n - 1) := by
    have hne : rootOne n ≠ 0 := Complex.exp_ne_zero _
    have hc : (starRingEnd ℂ) (rootOne n) = (rootOne n)⁻¹ := by
      rw [rootOne, ← Complex.exp_conj, ← Complex.exp_neg]
      congr 1
      simp [neg_div, map_ofNat]
    rw [hc, inv_eq_one_div, div_eq_iff hne, ← pow_succ, Nat.sub_add_cancel hn, rootOne_pow n hn]
  refine ⟨f.comp (X ^ (n - 1)), ?_, fun z hz => ?_⟩
  · rw [aeval_comp, map_pow, aeval_X, ← h2]
    simpa using aeval_algHom_apply (Complex.conjAe.toAlgHom.restrictScalars ℤ) (rootOne n) f
  · rw [aeval_comp, map_pow, aeval_X]
    exact hb _ (h1 z hz)

/-- A nonzero integer combination of roots of unity is not small. -/
theorem CycInt.separated {n : ℕ} (hn : 0 < n) {b : ℝ} (hb : 1 ≤ b) {x : ℂ} (h : CycInt n b x) (hx : x ≠ 0) :
    1 ≤ ‖x‖ * b ^ n := by
  classical
  obtain ⟨f, rfl, hf⟩ := h
  have : NeZero n := ⟨hn.ne'⟩
  let K := CyclotomicField n ℚ
  have : IsCyclotomicExtension {n} ℚ K := CyclotomicField.isCyclotomicExtension n ℚ
  let z : K := IsCyclotomicExtension.zeta n ℚ K
  have hz : IsPrimitiveRoot z n := IsCyclotomicExtension.zeta_spec n ℚ K
  have hirr : Irreducible (cyclotomic n ℚ) := cyclotomic.irreducible_rat hn
  let eqv := hz.embeddingsEquivPrimitiveRoots (K := ℚ) ℂ hirr
  have hr : rootOne n ∈ primitiveRoots n ℂ :=
    (mem_primitiveRoots hn).mpr (Complex.isPrimitiveRoot_exp n hn.ne')
  let σ₀ : K →ₐ[ℚ] ℂ := eqv.symm ⟨rootOne n, hr⟩
  have hσ₀ : σ₀ z = rootOne n := by
    have h1 : (eqv σ₀ : ℂ) = rootOne n := by simp [σ₀]
    simpa [eqv] using h1
  have hval : ∀ σ : K →ₐ[ℚ] ℂ, σ (aeval z f) = aeval (σ z) f := fun σ =>
    (aeval_algHom_apply (σ.restrictScalars ℤ) z f).symm
  have hbound : ∀ σ : K →ₐ[ℚ] ℂ, ‖σ (aeval z f)‖ ≤ b := fun σ => by
    rw [hval]
    exact hf _ (by rw [← map_pow, hz.pow_eq_one, map_one])
  have hne : (aeval z f : K) ≠ 0 := fun h0 => hx (by rw [← hσ₀, ← hval, h0, map_zero])
  have hint : IsIntegral ℤ (aeval z f : K) :=
    adjoin_le_integralClosure (hz.isIntegral hn) (aeval_mem_adjoin_singleton ℤ z)
  obtain ⟨m, hm⟩ := IsIntegrallyClosed.isIntegral_iff.mp (Algebra.isIntegral_norm ℚ hint)
  have hm0 : m ≠ 0 := by
    rintro rfl
    rw [map_zero] at hm
    exact (Algebra.norm_ne_zero_iff.mpr hne) hm.symm
  have hprod := Algebra.norm_eq_prod_embeddings ℚ ℂ (aeval z f : K)
  rw [← hm] at hprod
  have hnorm : (1 : ℝ) ≤ ∏ σ : K →ₐ[ℚ] ℂ, ‖σ (aeval z f)‖ := by
    rw [← norm_prod, ← hprod]
    have : (1 : ℝ) ≤ |(m : ℝ)| := by exact_mod_cast Int.one_le_abs hm0
    simpa using this
  have hcard : Fintype.card (K →ₐ[ℚ] ℂ) ≤ n := by
    rw [Fintype.card_congr eqv, Fintype.card_coe, Complex.card_primitiveRoots]
    exact Nat.totient_le n
  rw [← Finset.mul_prod_erase _ _ (Finset.mem_univ σ₀), hval, hσ₀] at hnorm
  refine hnorm.trans (mul_le_mul_of_nonneg_left ?_ (norm_nonneg _))
  calc ∏ σ ∈ Finset.univ.erase σ₀, ‖σ (aeval z f)‖ ≤ b ^ (Finset.univ.erase σ₀).card :=
        (Finset.prod_le_prod (fun _ _ => norm_nonneg _) fun σ _ => hbound σ).trans_eq (Finset.prod_const b)
    _ ≤ b ^ n := pow_le_pow_right₀ hb (by
        rw [Finset.card_erase_of_mem (Finset.mem_univ _), Finset.card_univ]
        omega)

end Sys2Proof.Laws
end

