-- ==== Sys2Proof/Laws/Refine.lean ====
section
/-! SUPPORT. The search for a settling precision finds an answer, and the last precision separates different numbers. -/

namespace Sys2Proof.Laws

open Sys2Proof.Machine

/-- If an unforced run can only answer `good` results, and the last run answers one, so does the search. -/
theorem refine_good {α : Type} (run : Bool → ℕ → Option α) (good : α → Prop) (n p : ℕ)
    (hf : ∀ q, p ≤ q → ∀ r, run false q = some r → good r)
    (ht : ∃ r, run true (p * 2 ^ n) = some r ∧ good r) : ∃ r, refine run n p = some r ∧ good r := by
  induction n generalizing p with
  | zero => simpa [refine] using ht
  | succ n ih =>
    unfold refine
    split
    · next r h => exact ⟨r, rfl, hf p le_rfl r h⟩
    · refine ih (2 * p) (fun q hq => hf q (by omega)) ?_
      rwa [show 2 * p * 2 ^ n = p * 2 ^ (n + 1) by ring]

theorem allSettled_map {α β : Type} (l : List α) (f : α → Option β) (g : α → β) (h : ∀ a ∈ l, f a = some (g a)) :
    allSettled (l.map f) = some (l.map g) := by
  induction l with
  | nil => rfl
  | cons a t ih =>
    rw [List.map_cons, h a (by simp), allSettled, ih fun b hb => h b (by simp [hb])]
    rfl

theorem allSettled_eq {α β : Type} (l : List α) (f : α → Option β) (g : α → β) (h : ∀ a ∈ l, ∀ b, f a = some b → b = g a)
    {r : List β} (hr : allSettled (l.map f) = some r) : r = l.map g := by
  induction l generalizing r with
  | nil => simpa [allSettled] using hr.symm
  | cons a t ih =>
    rw [List.map_cons] at hr
    cases hfa : f a with
    | none => simp [hfa, allSettled] at hr
    | some b =>
      rw [hfa, allSettled, Option.map_eq_some_iff] at hr
      obtain ⟨r', hr', rfl⟩ := hr
      rw [List.map_cons, ih (fun c hc => h c (by simp [hc])) hr', h a (by simp) b hfa]

/-- The last precision of a search of depth `depthFor b order`. -/
theorem depthFor_large (b order : ℕ) : 2 * (b * (order + 1)) + 64 ≤ firstPrecision * 2 ^ depthFor b order := by
  have h : b * (order + 1) / 32 + 2 < 2 ^ (Nat.log2 (b * (order + 1) / 32 + 2) + 1) := Nat.lt_log2_self
  unfold firstPrecision depthFor
  omega

/-- At the last precision the error of a sine is nothing beside the least distance of two different numbers. -/
theorem sinErr_small (b order p : ℕ) (hp : 2 * (b * (order + 1)) + 64 ≤ p) :
    (2 : ℝ) ^ b * sinErr p * (2 * (2 ^ b) ^ order) < 2 ^ p := by
  obtain ⟨j, hj⟩ : ∃ j, p = b * (order + 1) + 1 + j := ⟨p - (b * (order + 1) + 1), by omega⟩
  have hlin : ∀ n : ℕ, 32 ≤ n → 8 * n + 32 < 2 ^ n := by
    intro n hn
    induction n, hn using Nat.le_induction with
    | base => norm_num
    | succ n hn ih =>
      rw [pow_succ]
      omega
  have hs : ((sinErr p : ℕ) : ℝ) < 2 ^ j := by
    have h1 := hlin j (by omega)
    have h2 : sinErr p < 2 ^ j := by
      unfold sinErr
      omega
    exact_mod_cast h2
  have e : (2 : ℝ) ^ b * sinErr p * (2 * (2 ^ b) ^ order) = 2 ^ (b * (order + 1) + 1) * sinErr p := by
    rw [← pow_mul, pow_succ, mul_add, pow_add, mul_one]
    ring
  have e2 : (2 : ℝ) ^ p = 2 ^ (b * (order + 1) + 1) * 2 ^ j := by rw [hj, pow_add]
  rw [e, e2]
  exact mul_lt_mul_of_pos_left hs (by positivity)

/-- A real cyclotomic integer below `2^b` in all its conjugates is zero or at least `2^(−b·n)` in absolute value. -/
theorem real_separated {n b : ℕ} (hn : 0 < n) {x : ℝ} (h : CycInt n (2 ^ b) (x : ℂ)) (hx : x ≠ 0) :
    1 ≤ |x| * (2 ^ b) ^ n := by
  have := CycInt.separated hn (one_le_pow₀ (by norm_num)) h (by exact_mod_cast hx)
  simpa using this

/-- `2 · cos` of a rational fraction of a turn is a sum of two roots of unity. -/
theorem two_cos_cycInt {n : ℕ} (hn : 0 < n) (e d : ℕ) (hd : 0 < d) (h : d ∣ n) :
    CycInt n 2 ((2 * Real.cos (turn e d) : ℝ) : ℂ) := by
  have hr := CycInt.root hn e d hd h
  have hs := hr.add (hr.conj hn)
  have e1 : 2 * (Real.pi : ℂ) * Complex.I * (e / d) = ((turn e d : ℝ) : ℂ) * Complex.I := by
    rw [turn]
    push_cast
    ring
  have e2 : Complex.exp (2 * Real.pi * Complex.I * (e / d)) +
      (starRingEnd ℂ) (Complex.exp (2 * Real.pi * Complex.I * (e / d))) = ((2 * Real.cos (turn e d) : ℝ) : ℂ) := by
    rw [e1, Complex.add_conj, Complex.exp_ofReal_mul_I_re]
  rw [e2] at hs
  norm_num at hs ⊢
  exact hs

theorem sin_eq_cos_turn (e d : ℕ) (hd : 0 < d) : Real.sin (turn e d) = Real.cos (turn (4 * e + 3 * d) (4 * d)) := by
  have hd' : (d : ℝ) ≠ 0 := by exact_mod_cast hd.ne'
  have h : turn (4 * e + 3 * d) (4 * d) = turn e d - Real.pi / 2 + 2 * Real.pi := by
    simp only [turn]
    push_cast
    field_simp
    ring
  rw [h, Real.cos_add_two_pi, Real.cos_sub_pi_div_two]

theorem two_sin_cycInt {n : ℕ} (hn : 0 < n) (e d : ℕ) (hd : 0 < d) (h : 4 * d ∣ n) :
    CycInt n 2 ((2 * Real.sin (turn e d) : ℝ) : ℂ) := by
  rw [sin_eq_cos_turn e d hd]
  exact two_cos_cycInt hn _ _ (by omega) h

end Sys2Proof.Laws
end

