-- ==== Sys2Proof/Laws/Frame.lean ====
section
/-! SUPPORT. The frame the machine computes is the frame of the rules over the real numbers (42_frame_modulator.md R121
to R123). -/

namespace Sys2Proof.Laws

open Sys2Proof.Machine

/-- The tone sum of the tones `tones / d` at sample `n`. -/
noncomputable def tonesReal (d : ℕ) (tones : List ℕ) (n : ℕ) : ℝ :=
  (tones.map fun a => Real.sin (turn (a * n) d)).sum

theorem supOf_nonneg (l : List ℝ) : 0 ≤ supOf l := by
  cases l with
  | nil => exact le_rfl
  | cons a t =>
    induction t generalizing a with
    | nil => exact le_max_right _ _
    | cons b t ih => exact (ih b).trans (le_max_right _ _)

theorem le_supOf {l : List ℝ} {x : ℝ} (h : x ∈ l) : x ≤ supOf l := by
  induction l with
  | nil => simp at h
  | cons a t ih =>
    rcases List.mem_cons.mp h with rfl | h
    · exact le_max_left _ _
    · exact (ih h).trans (le_max_right _ _)

theorem supOf_mem (l : List ℝ) : supOf l = 0 ∨ supOf l ∈ l := by
  induction l with
  | nil => exact Or.inl rfl
  | cons a t ih =>
    have e : supOf (a :: t) = max a (supOf t) := rfl
    rcases max_cases a (supOf t) with ⟨h, _⟩ | ⟨h, _⟩
    · exact Or.inr (by rw [e, h]; simp)
    · rcases ih with h0 | h0
      · exact Or.inl (by rw [e, h, h0])
      · exact Or.inr (by rw [e, h]; simp [h0])

theorem peak_eq_supOf (y : ℕ → ℝ) (f : ℕ) : Signal.peak y f = supOf ((List.range f).map fun n => |y n|) := rfl

theorem abs_le_peak (y : ℕ → ℝ) {f n : ℕ} (h : n < f) : |y n| ≤ Signal.peak y f := by
  rw [peak_eq_supOf]
  exact le_supOf (List.mem_map.mpr ⟨n, List.mem_range.mpr h, rfl⟩)

/-- The peak is 0 or reached by a sample, up to sign. -/
theorem peak_reached (y : ℕ → ℝ) (f : ℕ) : ∃ m, Signal.peak y f = 0 ∨ Signal.peak y f = y m ∨ Signal.peak y f = -y m := by
  rcases supOf_mem ((List.range f).map fun n => |y n|) with h | h
  · exact ⟨0, Or.inl h⟩
  · obtain ⟨m, _, hm⟩ := List.mem_map.mp h
    refine ⟨m, Or.inr ?_⟩
    rw [peak_eq_supOf, ← hm]
    rcases abs_choice (y m) with h1 | h1 <;> simp only [h1, true_or, or_true]

section
variable (d : ℕ) (tones : List ℕ)

/-- The common divisor of a frame's tones and the turn. -/
def toneGcd : ℕ := tones.foldr Nat.gcd d

theorem toneGcd_dvd : toneGcd d tones ∣ d ∧ ∀ a ∈ tones, toneGcd d tones ∣ a := by
  induction tones with
  | nil => exact ⟨dvd_rfl, by simp⟩
  | cons a t ih =>
    have e : toneGcd d (a :: t) = Nat.gcd a (toneGcd d t) := rfl
    rw [e]
    refine ⟨(Nat.gcd_dvd_right _ _).trans ih.1, fun b hb => ?_⟩
    rcases List.mem_cons.mp hb with rfl | hb
    · exact Nat.gcd_dvd_left _ _
    · exact (Nat.gcd_dvd_right _ _).trans (ih.2 b hb)

variable {d tones}

theorem turn_reduce (g a e : ℕ) (hg : 0 < g) : turn (g * a) (g * e) = turn a e := by
  have hg' : (g : ℝ) ≠ 0 := by exact_mod_cast hg.ne'
  simp only [turn]
  push_cast
  rw [mul_div_mul_left _ _ hg']

theorem toneOrder_pos (hd : 0 < d) : 0 < toneOrder d tones := by
  have h := (toneGcd_dvd d tones).1
  have hg : 0 < toneGcd d tones := Nat.pos_of_dvd_of_pos h hd
  have := Nat.div_pos (Nat.le_of_dvd hd h) hg
  unfold toneOrder
  exact Nat.mul_pos (by norm_num) this

theorem ofReal_list_sum {ι : Type} (l : List ι) (f : ι → ℝ) :
    (((l.map f).sum : ℝ) : ℂ) = (l.map fun i => ((f i : ℝ) : ℂ)).sum := by
  induction l with
  | nil => simp
  | cons a t ih => rw [List.map_cons, List.sum_cons, List.map_cons, List.sum_cons, ← ih, Complex.ofReal_add]

/-- Twice a tone sum is a cyclotomic integer of the frame's order. -/
theorem tonesReal_cycInt (hd : 0 < d) (n : ℕ) :
    CycInt (toneOrder d tones) (2 * tones.length) ((2 * tonesReal d tones n : ℝ) : ℂ) := by
  have hdvd := toneGcd_dvd d tones
  have hg : 0 < toneGcd d tones := Nat.pos_of_dvd_of_pos hdvd.1 hd
  have hL := toneOrder_pos (tones := tones) hd
  have hcop : toneOrder d tones = 4 * (d / toneGcd d tones) := rfl
  have hq : 0 < d / toneGcd d tones := Nat.div_pos (Nat.le_of_dvd hd hdvd.1) hg
  have h : ∀ a ∈ tones, CycInt (toneOrder d tones) 2 ((2 * Real.sin (turn (a * n) d) : ℝ) : ℂ) := by
    intro a ha
    have e := turn_reduce (toneGcd d tones) (a / toneGcd d tones * n) (d / toneGcd d tones) hg
    rw [Nat.mul_div_cancel' hdvd.1, ← mul_assoc, Nat.mul_div_cancel' (hdvd.2 a ha)] at e
    rw [e]
    exact two_sin_cycInt hL _ _ hq (by rw [hcop])
  have hs := CycInt.sum tones (fun _ => 2) (fun a => ((2 * Real.sin (turn (a * n) d) : ℝ) : ℂ)) h
  have e1 : (tones.map fun _ => (2 : ℝ)).sum = 2 * tones.length := by
    rw [List.map_const', List.sum_replicate, nsmul_eq_mul, mul_comm]
  have e2 : (tones.map fun a => ((2 * Real.sin (turn (a * n) d) : ℝ) : ℂ)).sum = ((2 * tonesReal d tones n : ℝ) : ℂ) := by
    rw [tonesReal, ← List.sum_map_mul_left, ofReal_list_sum]
  rwa [e1, e2] at hs

theorem toneSum_encl (p : ℕ) (hp : 16 ≤ p) (hd : 0 < d) (n : ℕ) :
    Encl (toneSum p (halfPi p) d tones n) (2 ^ p) (tonesReal d tones n) ∧
      width (toneSum p (halfPi p) d tones n) ≤ tones.length * (2 * sinErr p) := by
  constructor
  · exact Encl.sum tones _ _ fun a _ => (sinIv_spec p (a * n) d hp hd).1
  · have h := width_sum_le tones (fun a => sinIv p (halfPi p) (a * n) d) (fun _ => 2 * (sinErr p : ℝ))
      fun a _ => (sinIv_spec p (a * n) d hp hd).2
    rwa [List.map_const', List.sum_replicate, nsmul_eq_mul] at h

/-- The bits that bound the conjugates of a comparison of two samples of a frame. -/
theorem toneBits_bound (k : ℕ) : 131071 * (2 * (k : ℝ)) ≤ 2 ^ (19 + Nat.log2 k) := by
  have h : k < 2 ^ (Nat.log2 k + 1) := Nat.lt_log2_self
  have h2 : (k : ℝ) ≤ 2 ^ (Nat.log2 k + 1) := by exact_mod_cast h.le
  rw [show 19 + Nat.log2 k = Nat.log2 k + 1 + 18 by ring, pow_add]
  nlinarith

/-- What the separation of two numbers is worth at the last precision. -/
theorem separated_at {b n p : ℕ} (hn : 0 < n) (hp : 2 * (b * (n + 1)) + 64 ≤ p) {x : ℝ}
    (h : CycInt n (2 ^ b) ((2 * x : ℝ) : ℂ)) (hx : x ≠ 0) : (2 : ℝ) ^ b * sinErr p < |2 ^ p * x| := by
  have h1 := real_separated hn h (by simpa using hx)
  have h2 := sinErr_small b n p hp
  have hB : (0 : ℝ) < 2 * (2 ^ b) ^ n := by positivity
  rw [abs_mul, abs_of_pos (by norm_num : (0 : ℝ) < 2)] at h1
  rw [abs_mul, abs_of_pos (by positivity : (0 : ℝ) < 2 ^ p)]
  by_contra hle
  have h3 : (2 : ℝ) ^ p * |x| * (2 * (2 ^ b) ^ n) ≤ 2 ^ b * sinErr p * (2 * (2 ^ b) ^ n) :=
    mul_le_mul_of_nonneg_right (not_lt.mp hle) hB.le
  have h4 : (2 : ℝ) ^ p * 1 ≤ 2 ^ p * (2 * |x| * (2 ^ b) ^ n) := mul_le_mul_of_nonneg_left h1 (by positivity)
  have h5 : (2 : ℝ) ^ p * |x| * (2 * (2 ^ b) ^ n) = 2 ^ p * (2 * |x| * (2 ^ b) ^ n) := by ring
  linarith

theorem frame_separated (hd : 0 < d) {p f : ℕ}
    (hp : 2 * ((19 + Nat.log2 tones.length) * (toneOrder d tones + 1)) + 64 ≤ p) (c k : ℤ) (hc : |c| ≤ 65534)
    (hk : |k| ≤ 65537) (n : ℕ) (hne : c * tonesReal d tones n - k * Signal.peak (tonesReal d tones) f ≠ 0) :
    131071 * (tones.length * (2 * (sinErr p : ℝ))) <
      |2 ^ p * (c * tonesReal d tones n - k * Signal.peak (tonesReal d tones) f)| := by
  obtain ⟨m, hm⟩ := peak_reached (tonesReal d tones) f
  obtain ⟨σ, hσ, hpk⟩ : ∃ σ : ℤ, |σ| ≤ 1 ∧ Signal.peak (tonesReal d tones) f = σ * tonesReal d tones m := by
    rcases hm with h | h | h
    · exact ⟨0, by norm_num, by simpa using h⟩
    · exact ⟨1, by norm_num, by simpa using h⟩
    · exact ⟨-1, by norm_num, by simpa using h⟩
  have hcyc := ((tonesReal_cycInt (tones := tones) hd n).smul c).add
    ((tonesReal_cycInt (tones := tones) hd m).smul (-(k * σ)))
  have e : (c : ℂ) * ((2 * tonesReal d tones n : ℝ) : ℂ) + ((-(k * σ) : ℤ) : ℂ) * ((2 * tonesReal d tones m : ℝ) : ℂ) =
      ((2 * (c * tonesReal d tones n - k * Signal.peak (tonesReal d tones) f) : ℝ) : ℂ) := by
    rw [hpk]
    push_cast
    ring
  rw [e] at hcyc
  have hlen : (0 : ℝ) ≤ 2 * tones.length := by positivity
  have hkσ : |k * σ| ≤ 65537 := by
    rw [abs_mul]
    calc |k| * |σ| ≤ 65537 * 1 := mul_le_mul hk hσ (abs_nonneg _) (by norm_num)
      _ = 65537 := by norm_num
  have hb : |(c : ℝ)| * (2 * tones.length) + |((-(k * σ) : ℤ) : ℝ)| * (2 * tones.length) ≤
      2 ^ (19 + Nat.log2 tones.length) := by
    have h1 : |(c : ℝ)| ≤ 65534 := by exact_mod_cast hc
    have h2 : |((-(k * σ) : ℤ) : ℝ)| ≤ 65537 := by
      rw [Int.cast_neg, abs_neg]
      exact_mod_cast hkσ
    refine le_trans ?_ (toneBits_bound tones.length)
    nlinarith
  have hs := separated_at (toneOrder_pos hd) hp (hcyc.mono hb) hne
  refine lt_of_le_of_lt ?_ hs
  have := mul_le_mul_of_nonneg_right (toneBits_bound tones.length) (Nat.cast_nonneg (α := ℝ) (sinErr p))
  linarith

/-- The samples of the frame by the rules. -/
noncomputable def frameReal (d : ℕ) (tones : List ℕ) (f : ℕ) : List ℤ :=
  (List.range f).map fun n => Signal.quantise (Signal.normalise (tonesReal d tones) f n)

theorem quantise_zero : Signal.quantise 0 = 0 := by
  have h := rne_intCast 0
  simpa [Signal.quantise] using h

theorem frameReal_of_peak_zero (f : ℕ) (h : Signal.peak (tonesReal d tones) f = 0) :
    frameReal d tones f = List.replicate f 0 := by
  unfold frameReal Signal.normalise
  simp only [h, if_true, quantise_zero]
  rw [List.map_const', List.length_range]

section
variable (p : ℕ) (f : ℕ)

/-- The enclosure of the peak at precision `p`. -/
def peakIv (d : ℕ) (tones : List ℕ) (p f : ℕ) : Iv :=
  Iv.sup (((List.range f).map (toneSum p (halfPi p) d tones)).map Iv.abs)

theorem peakIv_encl (hp : 16 ≤ p) (hd : 0 < d) :
    Encl (peakIv d tones p f) (2 ^ p) (Signal.peak (tonesReal d tones) f) ∧
      width (peakIv d tones p f) ≤ tones.length * (2 * sinErr p) := by
  unfold peakIv
  rw [List.map_map, peak_eq_supOf]
  constructor
  · exact Encl.sup (List.range f) (Iv.abs ∘ toneSum p (halfPi p) d tones) (fun n => |tonesReal d tones n|)
      (by positivity) fun n _ => (toneSum_encl p hp hd n).1.abs (by positivity)
  · refine width_sup_le (List.range f) (Iv.abs ∘ toneSum p (halfPi p) d tones) _ (by positivity) fun n _ => ?_
    exact (width_abs_le _ (toneSum_encl p hp hd n).1.le).trans (toneSum_encl p hp hd n).2

theorem frameAt_eq (last : Bool) :
    frameAt d tones f last p =
      if (peakIv d tones p f).hi = 0 ∨ (last = true ∧ (peakIv d tones p f).lo = 0) then some (List.replicate f 0)
      else if (peakIv d tones p f).lo = 0 then none
      else allSettled ((List.range f).map fun n =>
        quantIv last (peakIv d tones p f) (toneSum p (halfPi p) d tones n)) := by
  unfold frameAt peakIv
  simp only [List.map_map, Function.comp_def]

theorem peak_nonneg (y : ℕ → ℝ) : 0 ≤ Signal.peak y f := supOf_nonneg _

theorem peak_zero_of_hi (hp : 16 ≤ p) (hd : 0 < d) (h : (peakIv d tones p f).hi = 0) :
    Signal.peak (tonesReal d tones) f = 0 := by
  have he := (peakIv_encl (tones := tones) p f hp hd).1.2
  rw [h, Int.cast_zero] at he
  have h2 : (0 : ℝ) < 2 ^ p := by positivity
  have h3 := peak_nonneg f (tonesReal d tones)
  nlinarith

theorem frameAt_false (hp : 16 ≤ p) (hd : 0 < d) {r : List ℤ} (h : frameAt d tones f false p = some r) :
    r = frameReal d tones f := by
  rw [frameAt_eq] at h
  split at h
  · next hc =>
    rcases hc with hc | hc
    · rw [frameReal_of_peak_zero f (peak_zero_of_hi p f hp hd hc)]
      simpa using h.symm
    · exact absurd hc.1 (by simp)
  · next hc =>
    split at h
    · simp at h
    · next hlo =>
      have hlo' : 0 < (peakIv d tones p f).lo :=
        lt_of_le_of_ne (sup_lo_nonneg _) (Ne.symm hlo)
      have hpk := peakIv_encl (tones := tones) p f hp hd
      refine allSettled_eq (List.range f) _ _ (fun n hn z hz => ?_) h
      have hq := quantIv_false (by positivity) (toneSum_encl p hp hd n).1 hpk.1 hlo' hz
      have hne : Signal.peak (tonesReal d tones) f ≠ 0 :=
        (quot_bounds (by positivity) (toneSum_encl (tones := tones) p hp hd n).1 hpk.1 hlo').2.2.2.2.ne'
      rw [hq, Signal.normalise, if_neg hne]

theorem frameAt_true (hd : 0 < d)
    (hp : 2 * ((19 + Nat.log2 tones.length) * (toneOrder d tones + 1)) + 64 ≤ p) :
    frameAt d tones f true p = some (frameReal d tones f) := by
  have hp16 : 16 ≤ p := by omega
  have hpk := peakIv_encl (tones := tones) p f hp16 hd
  have hw : (0 : ℝ) ≤ tones.length * (2 * sinErr p) := by positivity
  rw [frameAt_eq]
  split
  · next hc =>
    have h0 : Signal.peak (tonesReal d tones) f = 0 := by
      rcases hc with hc | hc
      · exact peak_zero_of_hi p f hp16 hd hc
      · by_contra hne
        have hs := frame_separated (f := f) hd hp 0 1 (by norm_num) (by norm_num) 0 (by simpa using hne)
        have h1 := hpk.1.2
        have h2 := hpk.2
        have h3 := peak_nonneg f (tonesReal d tones)
        simp only [width, hc.2, Int.cast_zero, sub_zero] at h2
        simp only [Int.cast_zero, zero_mul, Int.cast_one, one_mul, zero_sub, mul_neg, abs_neg] at hs
        rw [abs_of_nonneg (by positivity)] at hs
        linarith
    rw [frameReal_of_peak_zero f h0]
  · next hc =>
    split
    · next hlo => exact absurd (Or.inr ⟨rfl, hlo⟩) hc
    · next hlo =>
      have hlo' : 0 < (peakIv d tones p f).lo := lt_of_le_of_ne (sup_lo_nonneg _) (Ne.symm hlo)
      refine allSettled_map (List.range f) _ _ fun n hn => ?_
      have hy := toneSum_encl (tones := tones) p hp16 hd n
      have hne : Signal.peak (tonesReal d tones) f ≠ 0 :=
        (quot_bounds (by positivity) hy.1 hpk.1 hlo').2.2.2.2.ne'
      rw [Signal.normalise, if_neg hne]
      refine quantIv_true (by positivity) hy.1 hpk.1 hlo' (abs_le_peak _ (List.mem_range.mp hn)) fun k hk hkne => ?_
      have hs := frame_separated (f := f) hd hp 65534 k (by norm_num) hk n (by exact_mod_cast hkne)
      rw [Int.cast_ofNat] at hs
      refine lt_of_le_of_lt ?_ hs
      linarith [hy.2, hpk.2]

end

/-- The frame the machine computes is the frame of the rules. -/
theorem frameInts_eq (hd : 0 < d) (f : ℕ) : frameInts d tones f = frameReal d tones f := by
  have h := refine_good (frameAt d tones f) (fun r => r = frameReal d tones f) (frameDepth d tones) firstPrecision
    (fun q hq r hr => frameAt_false q f (by unfold firstPrecision at hq; omega) hd hr)
    ⟨_, frameAt_true _ f hd (depthFor_large _ _), rfl⟩
  obtain ⟨r, h1, rfl⟩ := h
  rw [frameInts, h1, Option.getD_some]

end

end Sys2Proof.Laws
end

