-- ==== Sys2Proof/Laws/Amplitude.lean ====
section
/-! SUPPORT. What an amplitude is as a real number, that the check on PRE_AMP is the bound of 00_scope.md R5, and that
every real number in (0, 1] gives the preamble of some amplitude. -/

namespace Sys2Proof.Laws

open Sys2Proof.Machine

/-! ## The amplitude -/

section
variable {x : Amplitude}

/-- The divisor of an amplitude as a real number. -/
noncomputable abbrev divisorReal (x : Amplitude) : ℝ := ((x.den : ℤ) : ℝ) * Real.sin (turn x.turnNum x.turnDen)

theorem amplitude_eq (x : Amplitude) : Signal.amplitude x = x.num / divisorReal x := by
  unfold Signal.amplitude divisorReal
  simp only [turn]
  push_cast
  rw [mul_div_assoc (2 * Real.pi)]

theorem scaled_encl {p : ℕ} (hp : 16 ≤ p) (k m a d : ℕ) (hk : k ≤ m) (hd : 0 < d) :
    Encl ((sinIv p (halfPi p) a d).scale k) (2 ^ p) (((k : ℤ) : ℝ) * Real.sin (turn a d)) ∧
      width ((sinIv p (halfPi p) a d).scale k) ≤ m * (2 * (sinErr p : ℝ)) := by
  have h := sinIv_spec p a d hp hd
  refine ⟨h.1.scale k, ?_⟩
  rw [width_scale]
  have hn : |((k : ℤ) : ℝ)| ≤ m := by
    rw [abs_of_nonneg (by positivity)]
    exact_mod_cast hk
  exact mul_le_mul hn h.2 (sub_nonneg.mpr (h.1.1.trans h.1.2)) (by positivity)

theorem divisor_encl {p : ℕ} (hp : 16 ≤ p) (hd : 0 < x.turnDen) :
    Encl (amplitudeDivisor p (halfPi p) x) (2 ^ p) (divisorReal x) ∧
      width (amplitudeDivisor p (halfPi p) x) ≤ (max x.num x.den : ℕ) * (2 * (sinErr p : ℝ)) :=
  scaled_encl hp _ _ _ _ (le_max_right _ _) hd

/-- A combination of a sine and the divisor is zero or larger than what the enclosures are wide, at the last
precision. -/
theorem divisor_separated {n p : ℕ} (hn : 0 < n) (hp : 2 * (amplitudeBits x * (n + 1)) + 64 ≤ p) (hd : 0 < x.turnDen)
    (hdvd : 4 * x.turnDen ∣ n) {c k : ℤ} (hc : |c| ≤ 65534) (hk : |k| ≤ 65537) {y : ℝ}
    (hy : CycInt n 2 ((2 * y : ℝ) : ℂ)) (hne : c * (((x.num : ℤ) : ℝ) * y) - k * divisorReal x ≠ 0) :
    131071 * ((max x.num x.den : ℕ) * (2 * (sinErr p : ℝ))) <
      |2 ^ p * (c * (((x.num : ℤ) : ℝ) * y) - k * divisorReal x)| := by
  have hcyc := (hy.smul (c * x.num)).add ((two_sin_cycInt hn x.turnNum x.turnDen hd hdvd).smul (-(k * x.den)))
  have e : (((c * x.num : ℤ)) : ℂ) * ((2 * y : ℝ) : ℂ) +
      ((-(k * x.den) : ℤ) : ℂ) * ((2 * Real.sin (turn x.turnNum x.turnDen) : ℝ) : ℂ) =
      ((2 * (c * (((x.num : ℤ) : ℝ) * y) - k * divisorReal x) : ℝ) : ℂ) := by
    unfold divisorReal
    push_cast
    ring
  rw [e] at hcyc
  have hN : (x.num : ℝ) ≤ (max x.num x.den : ℕ) := by exact_mod_cast le_max_left _ _
  have hD : (x.den : ℝ) ≤ (max x.num x.den : ℕ) := by exact_mod_cast le_max_right _ _
  have hb : |((c * x.num : ℤ) : ℝ)| * 2 + |((-(k * x.den) : ℤ) : ℝ)| * 2 ≤ 2 ^ amplitudeBits x := by
    have hc' : |(c : ℝ)| ≤ 65534 := by exact_mod_cast hc
    have hk' : |(k : ℝ)| ≤ 65537 := by exact_mod_cast hk
    have e1 : |((c * x.num : ℤ) : ℝ)| = |(c : ℝ)| * x.num := by
      push_cast
      rw [abs_mul, abs_of_nonneg (by positivity : (0 : ℝ) ≤ (x.num : ℝ))]
    have e2 : |((-(k * x.den) : ℤ) : ℝ)| = |(k : ℝ)| * x.den := by
      push_cast
      rw [abs_neg, abs_mul, abs_of_nonneg (by positivity : (0 : ℝ) ≤ (x.den : ℝ))]
    rw [e1, e2]
    refine le_trans ?_ (toneBits_bound (max x.num x.den))
    have h1 := mul_le_mul hc' hN (by positivity) (by norm_num)
    have h2 := mul_le_mul hk' hD (by positivity) (by norm_num)
    linarith
  have hs := separated_at hn hp (hcyc.mono hb) hne
  refine lt_of_le_of_lt ?_ hs
  have := mul_le_mul_of_nonneg_right (toneBits_bound (max x.num x.den)) (Nat.cast_nonneg (α := ℝ) (sinErr p))
  unfold amplitudeBits
  linarith

/-- The machine's test is the bound of 00_scope.md R5. -/
theorem amplitudeAtMostOne_iff (hd : 0 < x.turnDen) : amplitudeAtMostOne x = true ↔ (x.num : ℝ) ≤ divisorReal x := by
  have enc : ∀ p : ℕ, 16 ≤ p → Encl (amplitudeDivisor p (halfPi p) x) (2 ^ p) (divisorReal x) := fun p hp =>
    (divisor_encl hp hd).1
  have below : ∀ p : ℕ, 16 ≤ p → (x.num : ℤ) * 2 ^ p ≤ (amplitudeDivisor p (halfPi p) x).lo → (x.num : ℝ) ≤ divisorReal x := by
    intro p hp h
    have h1 : (x.num : ℝ) * 2 ^ p ≤ (amplitudeDivisor p (halfPi p) x).lo := by exact_mod_cast h
    have h2 := h1.trans (enc p hp).1
    rw [mul_comm] at h2
    exact le_of_mul_le_mul_left h2 (by positivity)
  have above : ∀ p : ℕ, 16 ≤ p → (amplitudeDivisor p (halfPi p) x).hi < (x.num : ℤ) * 2 ^ p → ¬ (x.num : ℝ) ≤ divisorReal x := by
    intro p hp h hle
    have h1 : ((amplitudeDivisor p (halfPi p) x).hi : ℝ) < (x.num : ℝ) * 2 ^ p := by exact_mod_cast h
    have h2 := (enc p hp).2.trans_lt h1
    rw [mul_comm (x.num : ℝ)] at h2
    exact absurd (lt_of_mul_lt_mul_left h2 (by positivity)) (not_lt.mpr hle)
  have h := refine_good (atMostOneAt x) (fun b => b = true ↔ (x.num : ℝ) ≤ divisorReal x)
    (depthFor (amplitudeBits x) (4 * x.turnDen)) firstPrecision ?_ ?_
  · obtain ⟨b, hb, hg⟩ := h
    rw [amplitudeAtMostOne, hb, Option.getD_some, hg]
  · intro p hp b hb
    have hp16 : 16 ≤ p := by unfold firstPrecision at hp; omega
    unfold atMostOneAt at hb
    simp only [Bool.false_eq_true, if_false] at hb
    split at hb
    · next h1 =>
      rw [← Option.some.inj hb]
      exact ⟨fun _ => below p hp16 h1, fun _ => rfl⟩
    · split at hb
      · next h2 =>
        rw [← Option.some.inj hb]
        exact ⟨fun h => absurd h (by decide), fun h => absurd h (above p hp16 h2)⟩
      · cases hb
  · have hp := depthFor_large (amplitudeBits x) (4 * x.turnDen)
    generalize firstPrecision * 2 ^ depthFor (amplitudeBits x) (4 * x.turnDen) = p at hp
    have hp16 : 16 ≤ p := by omega
    unfold atMostOneAt
    simp only [if_true]
    split
    · next h1 => exact ⟨true, rfl, fun _ => below p hp16 h1, fun _ => rfl⟩
    · next h1 =>
      split
      · next h2 => exact ⟨false, rfl, fun h => absurd h (by decide), fun h => absurd h (above p hp16 h2)⟩
      · next h2 =>
        refine ⟨true, rfl, fun _ => ?_, fun _ => rfl⟩
        by_contra hne
        have hn : 0 < 4 * x.turnDen := by omega
        have h0 : CycInt (4 * x.turnDen) 2 ((2 * (1 : ℝ) : ℝ) : ℂ) := by
          have := CycInt.int (4 * x.turnDen) 2
          norm_num at this ⊢
          exact this
        have hs := divisor_separated (x := x) (c := 1) (k := 1) hn hp hd dvd_rfl (by norm_num) (by norm_num) h0
          (by
            push_cast
            intro h
            exact hne (by linarith))
        have hw := (divisor_encl (x := x) hp16 hd).2
        have he := enc p hp16
        have h1' : ((amplitudeDivisor p (halfPi p) x).lo : ℝ) < (x.num : ℝ) * 2 ^ p := by exact_mod_cast not_le.mp h1
        have h2' : (x.num : ℝ) * 2 ^ p ≤ (amplitudeDivisor p (halfPi p) x).hi := by exact_mod_cast not_lt.mp h2
        have h3 : |2 ^ p * ((1 : ℤ) * (((x.num : ℤ) : ℝ) * 1) - (1 : ℤ) * divisorReal x)| ≤
            width (amplitudeDivisor p (halfPi p) x) := by
          rw [abs_le]
          unfold width
          have e : 2 ^ p * (((1 : ℤ) : ℝ) * (((x.num : ℤ) : ℝ) * 1) - ((1 : ℤ) : ℝ) * divisorReal x) =
              (x.num : ℝ) * 2 ^ p - 2 ^ p * divisorReal x := by
            push_cast
            ring
          rw [e]
          constructor <;> linarith [he.1, he.2]
        have h4 : (0 : ℝ) ≤ (max x.num x.den : ℕ) * (2 * (sinErr p : ℝ)) := by positivity
        linarith

/-- What the check on PRE_AMP says (00_scope.md R5). -/
theorem preAmpOk_iff (c : Instance) : c.preAmpOk = true ↔
    0 < c.preAmp.num ∧ 0 < c.preAmp.den ∧ 0 < c.preAmp.turnNum ∧ 2 * c.preAmp.turnNum < c.preAmp.turnDen ∧
      (c.preAmp.num : ℝ) ≤ divisorReal c.preAmp := by
  simp only [Instance.preAmpOk, Bool.and_eq_true, decide_eq_true_eq, and_assoc]
  constructor
  · rintro ⟨h1, h2, h3, h4, h5⟩
    exact ⟨h1, h2, h3, h4, (amplitudeAtMostOne_iff (by omega)).mp h5⟩
  · rintro ⟨h1, h2, h3, h4, h5⟩
    exact ⟨h1, h2, h3, h4, (amplitudeAtMostOne_iff (by omega)).mpr h5⟩

theorem sin_turn_pos {a d : ℕ} (ha : 0 < a) (hd : 2 * a < d) : 0 < Real.sin (turn a d) := by
  have hd' : (0 : ℝ) < d := by exact_mod_cast (by omega : 0 < d)
  have ha' : (0 : ℝ) < a := by exact_mod_cast ha
  have h2 : (2 * a : ℝ) < d := by exact_mod_cast hd
  refine Real.sin_pos_of_pos_of_lt_pi ?_ ?_
  · simp only [turn]
    positivity
  · simp only [turn]
    have h3 : (2 * a : ℝ) / d < 1 := (div_lt_one hd').mpr h2
    have e : 2 * Real.pi * ((a : ℝ) / d) = Real.pi * (2 * a / d) := by ring
    rw [e]
    exact mul_lt_of_lt_one_right Real.pi_pos h3

end

/-! ## Every amplitude -/

/-- Two numbers with no tie between them round alike. -/
theorem rne_no_tie {y z : ℝ} (hyz : y ≤ z) (h : ∀ i : ℤ, ¬ (y ≤ i + 1 / 2 ∧ (i : ℝ) + 1 / 2 ≤ z)) :
    Signal.rne y = Signal.rne z := by
  have h1 := rne_mono hyz
  by_contra hne
  have h2 : Signal.rne y + 1 ≤ Signal.rne z := by omega
  have h3 : ((Signal.rne y : ℤ) : ℝ) + 1 ≤ Signal.rne z := by exact_mod_cast h2
  exact h (Signal.rne y) ⟨(rne_close y).2, by linarith [(rne_close z).1]⟩

/-- The amplitude at which `32767 · PRE_AMP · sin (2π · a / d)` is the tie `i + 1/2`. -/
def tieAmplitude (i a d : ℕ) : Amplitude := ⟨2 * i + 1, 65534, a, d⟩

/-- The amplitudes at which some sample of some preamble is a tie. -/
def tieSet : Set ℝ :=
  {c | ∃ i a d, i < 32768 ∧ 0 < a ∧ 2 * a < d ∧ d < 2 ^ 32 ∧ c = Signal.amplitude (tieAmplitude i a d)}

theorem tieSet_finite : tieSet.Finite := by
  refine Set.Finite.subset (((Set.finite_Iio 32768).prod ((Set.finite_Iio (2 ^ 32)).prod (Set.finite_Iio (2 ^ 32)))).image
    fun x : ℕ × ℕ × ℕ => Signal.amplitude (tieAmplitude x.1 x.2.1 x.2.2)) ?_
  rintro c ⟨i, a, d, hi, ha, had, hd, rfl⟩
  exact ⟨(i, a, d), ⟨hi, Set.mem_Iio.mpr (show a < 2 ^ 32 by omega), hd⟩, rfl⟩

/-- A tie between two samples of one sign lies at an amplitude between theirs. -/
theorem tie_between {x q s : ℝ} (hx : 0 < x) (hq : q ≤ 1) {a d : ℕ} (ha : 0 < a) (had : 2 * a < d) (hd : d < 2 ^ 32)
    (hs : s = Real.sin (turn a d)) (hno : ∀ c ∈ tieSet, ¬ (x ≤ c ∧ c ≤ q)) (i : ℤ) :
    ¬ (32767 * (x * s) ≤ i + 1 / 2 ∧ (i : ℝ) + 1 / 2 ≤ 32767 * (q * s)) := by
  rintro ⟨h1, h2⟩
  have hspos : 0 < s := hs ▸ sin_turn_pos ha had
  have hs1 : s ≤ 1 := hs ▸ Real.sin_le_one _
  have hi0 : (-1 : ℝ) < i := by
    have : 0 < 32767 * (x * s) := by positivity
    linarith
  have hi0' : 0 ≤ i := by
    have : (-1 : ℤ) < i := by exact_mod_cast hi0
    omega
  obtain ⟨j, rfl⟩ := Int.eq_ofNat_of_zero_le hi0'
  have hqs : q * s ≤ 1 := (mul_le_of_le_one_left hspos.le hq).trans hs1
  have hj : j < 32768 := by
    have : ((j : ℤ) : ℝ) < 32768 := by linarith
    exact_mod_cast this
  have hval : Signal.amplitude (tieAmplitude j a d) = (2 * j + 1) / (65534 * s) := by
    rw [amplitude_eq, divisorReal, hs]
    simp only [tieAmplitude]
    push_cast
    rfl
  refine hno _ ⟨j, a, d, hj, ha, had, hd, rfl⟩ ?_
  have hden : 0 < 65534 * s := by positivity
  rw [hval, le_div_iff₀ hden, div_le_iff₀ hden]
  push_cast at h1 h2
  constructor <;> linarith

/-- Which fraction of a turn a positive sine comes from. -/
theorem sin_pos_turn {a d : ℕ} (hd : 0 < d) (h : 0 < Real.sin (turn a d)) :
    ∃ b, 0 < b ∧ 2 * b < d ∧ Real.sin (turn a d) = Real.sin (turn b d) := by
  have hd' : (0 : ℝ) < d := by exact_mod_cast hd
  rw [turn_mod a d hd] at h ⊢
  have hlt : a % d < d := Nat.mod_lt _ hd
  refine ⟨a % d, ?_, ?_, rfl⟩
  · by_contra h0
    have e : a % d = 0 := by omega
    rw [e] at h
    simp [turn] at h
  · by_contra h0
    have h1 : (d : ℝ) ≤ 2 * (a % d : ℕ) := by exact_mod_cast not_lt.mp h0
    have h2 : ((a % d : ℕ) : ℝ) ≤ d := by exact_mod_cast hlt.le
    have e : turn (a % d) d = 2 * Real.pi * (((a % d : ℕ) : ℝ) / d) := by simp only [turn]
    have h3 : Real.pi ≤ turn (a % d) d := by
      rw [e]
      have : (1 : ℝ) / 2 ≤ ((a % d : ℕ) : ℝ) / d := by
        rw [div_le_div_iff₀ (by norm_num) hd']
        linarith
      nlinarith [Real.pi_pos]
    have h4 : turn (a % d) d ≤ 2 * Real.pi := by
      rw [e]
      have : ((a % d : ℕ) : ℝ) / d ≤ 1 := (div_le_one hd').mpr h2
      nlinarith [Real.pi_pos]
    have h5 : 0 ≤ Real.sin (turn (a % d) d - Real.pi) :=
      Real.sin_nonneg_of_nonneg_of_le_pi (by linarith) (by linarith)
    rw [Real.sin_sub_pi] at h5
    linarith

theorem neg_sin_turn (a d : ℕ) (hd : 0 < d) : -Real.sin (turn a d) = Real.sin (turn (d - a % d) d) := by
  have hd' : (d : ℝ) ≠ 0 := by exact_mod_cast hd.ne'
  have hlt : a % d ≤ d := (Nat.mod_lt _ hd).le
  have e : turn (d - a % d) d = 2 * Real.pi - turn (a % d) d := by
    simp only [turn]
    rw [Nat.cast_sub hlt]
    field_simp
  rw [turn_mod a d hd, e, Real.sin_two_pi_sub]

/-- Amplitudes with no tie between them give the same samples. -/
theorem quantise_no_tie {x q : ℝ} (hx : 0 < x) (hxq : x ≤ q) (hq : q ≤ 1) (hno : ∀ c ∈ tieSet, ¬ (x ≤ c ∧ c ≤ q))
    (fs fp n : ℕ) (hfs : 0 < fs) (h32 : fs < 2 ^ 32) :
    Signal.quantise (Signal.preamble fs fp q n) = Signal.quantise (Signal.preamble fs fp x n) := by
  have e : 2 * Real.pi * fp * n / fs = turn (fp * n) fs := by
    simp only [turn]
    push_cast
    ring
  unfold Signal.quantise Signal.preamble
  rw [e]
  rcases lt_trichotomy (Real.sin (turn (fp * n) fs)) 0 with hs | hs | hs
  · have hneg := neg_sin_turn (fp * n) fs hfs
    obtain ⟨b, hb, hbd, hbs⟩ := sin_pos_turn hfs (hneg ▸ neg_pos.mpr hs)
    have hv := hneg.trans hbs
    refine rne_no_tie (by nlinarith) fun i hi => tie_between hx hq hb hbd h32 hv hno (-i - 1) ?_
    push_cast
    constructor <;> linarith [hi.1, hi.2]
  · simp only [hs, mul_zero]
  · obtain ⟨b, hb, hbd, hbs⟩ := sin_pos_turn hfs hs
    exact (rne_no_tie (by nlinarith) (tie_between hx hq hb hbd h32 hbs hno)).symm

theorem ratio_divisor (num den : ℕ) : divisorReal (.ratio num den) = den := by
  have e : turn 1 4 = Real.pi / 2 := by
    simp only [turn]
    push_cast
    ring
  simp only [divisorReal, Amplitude.ratio]
  rw [e, Real.sin_pi_div_two]
  push_cast
  ring

/-- PRE_AMP ranges over every real number in (0, 1] (00_scope.md R5): for each there is an amplitude that passes the
check and gives the same samples, whatever the registers hold. -/
theorem amplitude_covers (x : ℝ) (hx : 0 < x) (hx1 : x ≤ 1) :
    ∃ a : Amplitude, (∀ c : Instance, c.preAmp = a → c.preAmpOk = true) ∧
      ∀ fs fp n : ℕ, 0 < fs → fs < 2 ^ 32 →
        Signal.quantise (Signal.preamble fs fp (Signal.amplitude a) n) = Signal.quantise (Signal.preamble fs fp x n) := by
  have rational : ∀ num den : ℕ, 0 < num → 0 < den → num ≤ den →
      ∀ c : Instance, c.preAmp = .ratio num den → c.preAmpOk = true := by
    intro num den h1 h2 h3 c hc
    rw [preAmpOk_iff, hc, ratio_divisor]
    exact ⟨h1, h2, one_pos, (by decide : 2 * 1 < 4), by exact_mod_cast h3⟩
  by_cases hT : x ∈ tieSet
  · obtain ⟨i, a, d, -, ha, had, -, rfl⟩ := hT
    refine ⟨tieAmplitude i a d, fun c hc => ?_, fun _ _ _ _ _ => rfl⟩
    have hpos : 0 < divisorReal (tieAmplitude i a d) := mul_pos (by simp [tieAmplitude]) (sin_turn_pos ha had)
    rw [amplitude_eq, div_le_one hpos] at hx1
    rw [preAmpOk_iff, hc]
    exact ⟨Nat.succ_pos _, (by decide : 0 < 65534), ha, had, hx1⟩
  · obtain rfl | hlt := hx1.eq_or_lt
    · refine ⟨.ratio 1 1, rational 1 1 one_pos one_pos le_rfl, fun _ _ _ _ _ => ?_⟩
      rw [amplitude_eq, ratio_divisor]
      norm_num [Amplitude.ratio]
    · obtain ⟨ε, hε, hball⟩ := Metric.mem_nhds_iff.mp (tieSet_finite.isClosed.isOpen_compl.mem_nhds hT)
      obtain ⟨q, hq1, hq2⟩ := exists_rat_btwn (lt_min (lt_add_of_pos_right x hε) hlt)
      have hqpos : (0 : ℝ) < q := hx.trans hq1
      have hnum : 0 < q.num := Rat.num_pos.mpr (by exact_mod_cast hqpos)
      have hval : (q : ℝ) = (q.num.toNat : ℝ) / q.den := by
        have h1 : ((q.num.toNat : ℤ) : ℝ) = q.num := by rw [Int.toNat_of_nonneg hnum.le]
        rw [Rat.cast_def, ← h1]
        push_cast
        rfl
      have hden : (0 : ℝ) < q.den := by exact_mod_cast q.den_pos
      have hq1' : (q : ℝ) ≤ 1 := (hq2.trans_le (min_le_right _ _)).le
      refine ⟨.ratio q.num.toNat q.den, rational _ _ (by omega) q.den_pos ?_, fun fs fp n hfs h32 => ?_⟩
      · rw [hval, div_le_one hden] at hq1'
        exact_mod_cast hq1'
      · rw [amplitude_eq, ratio_divisor, show ((Amplitude.ratio q.num.toNat q.den).num : ℝ) = q.num.toNat from rfl, ← hval]
        refine quantise_no_tie hx hq1.le hq1' (fun c hc h => ?_) fs fp n hfs h32
        refine hball (Metric.mem_ball.mpr ?_) hc
        rw [Real.dist_eq, abs_lt]
        constructor <;> linarith [h.1, h.2, hq2.trans_le (min_le_left _ _)]

end Sys2Proof.Laws
end

