-- ==== Sys2Proof/Laws/State.lean ====
section
/-! SUPPORT. One lemma per field of `State` per update, so that no proof unfolds a record update. -/

namespace Sys2Proof.Machine

variable (s : State)

@[simp] theorem State.hostAcc_eq : s.hostAcc = s.setErr hostAccBit := rfl
@[simp] theorem State.lockWr_eq : s.lockWr = s.setErr lockWrBit := rfl
@[simp] theorem State.illegalCommand_eq (v : Word) : s.illegalCommand v = s.raise .eIllegal v := rfl

/-! ## setErr -/

section
variable (n : Nat)

@[simp] theorem State.setErr_mode : (s.setErr n).mode = s.mode := rfl
@[simp] theorem State.setErr_nosig : (s.setErr n).nosig = s.nosig := rfl
@[simp] theorem State.setErr_caphit : (s.setErr n).caphit = s.caphit := rfl
@[simp] theorem State.setErr_short : (s.setErr n).short = s.short := rfl
@[simp] theorem State.setErr_last : (s.setErr n).last = s.last := rfl
@[simp] theorem State.setErr_arg : (s.setErr n).arg = s.arg := rfl
@[simp] theorem State.setErr_errs : (s.setErr n).errs = s.errs ||| bitWord n := rfl
@[simp] theorem State.setErr_info : (s.setErr n).info = s.info := rfl
@[simp] theorem State.setErr_txtLen : (s.setErr n).txtLen = s.txtLen := rfl
@[simp] theorem State.setErr_bitsLen : (s.setErr n).bitsLen = s.bitsLen := rfl
@[simp] theorem State.setErr_waveLen : (s.setErr n).waveLen = s.waveLen := rfl
@[simp] theorem State.setErr_sampleRate : (s.setErr n).sampleRate = s.sampleRate := rfl
@[simp] theorem State.setErr_channelCount : (s.setErr n).channelCount = s.channelCount := rfl
@[simp] theorem State.setErr_freqMin : (s.setErr n).freqMin = s.freqMin := rfl
@[simp] theorem State.setErr_freqMax : (s.setErr n).freqMax = s.freqMax := rfl
@[simp] theorem State.setErr_frameLen : (s.setErr n).frameLen = s.frameLen := rfl
@[simp] theorem State.setErr_repeatCount : (s.setErr n).repeatCount = s.repeatCount := rfl
@[simp] theorem State.setErr_preFreq : (s.setErr n).preFreq = s.preFreq := rfl
@[simp] theorem State.setErr_preLen : (s.setErr n).preLen = s.preLen := rfl
@[simp] theorem State.setErr_gapLen : (s.setErr n).gapLen = s.gapLen := rfl
@[simp] theorem State.setErr_cgapLen : (s.setErr n).cgapLen = s.cgapLen := rfl
@[simp] theorem State.setErr_planDen : (s.setErr n).planDen = s.planDen := rfl
@[simp] theorem State.setErr_mem : (s.setErr n).mem = s.mem := rfl
@[simp] theorem State.setErr_inst : (s.setErr n).inst = s.inst := rfl
@[simp] theorem State.setErr_pending : (s.setErr n).pending = s.pending := rfl
@[simp] theorem State.setErr_reply : (s.setErr n).reply = s.reply := rfl

end

/-! ## raise -/

section
variable (e : ErrCode) (i : Word)

@[simp] theorem State.raise_mode : (s.raise e i).mode = s.mode := rfl
@[simp] theorem State.raise_nosig : (s.raise e i).nosig = s.nosig := rfl
@[simp] theorem State.raise_caphit : (s.raise e i).caphit = s.caphit := rfl
@[simp] theorem State.raise_short : (s.raise e i).short = s.short := rfl
@[simp] theorem State.raise_last : (s.raise e i).last = e := rfl
@[simp] theorem State.raise_arg : (s.raise e i).arg = s.arg := rfl
@[simp] theorem State.raise_errs : (s.raise e i).errs = s.errs ||| bitWord e.code := rfl
@[simp] theorem State.raise_info : (s.raise e i).info = i := rfl
@[simp] theorem State.raise_txtLen : (s.raise e i).txtLen = s.txtLen := rfl
@[simp] theorem State.raise_bitsLen : (s.raise e i).bitsLen = s.bitsLen := rfl
@[simp] theorem State.raise_waveLen : (s.raise e i).waveLen = s.waveLen := rfl
@[simp] theorem State.raise_sampleRate : (s.raise e i).sampleRate = s.sampleRate := rfl
@[simp] theorem State.raise_channelCount : (s.raise e i).channelCount = s.channelCount := rfl
@[simp] theorem State.raise_freqMin : (s.raise e i).freqMin = s.freqMin := rfl
@[simp] theorem State.raise_freqMax : (s.raise e i).freqMax = s.freqMax := rfl
@[simp] theorem State.raise_frameLen : (s.raise e i).frameLen = s.frameLen := rfl
@[simp] theorem State.raise_repeatCount : (s.raise e i).repeatCount = s.repeatCount := rfl
@[simp] theorem State.raise_preFreq : (s.raise e i).preFreq = s.preFreq := rfl
@[simp] theorem State.raise_preLen : (s.raise e i).preLen = s.preLen := rfl
@[simp] theorem State.raise_gapLen : (s.raise e i).gapLen = s.gapLen := rfl
@[simp] theorem State.raise_cgapLen : (s.raise e i).cgapLen = s.cgapLen := rfl
@[simp] theorem State.raise_planDen : (s.raise e i).planDen = s.planDen := rfl
@[simp] theorem State.raise_mem : (s.raise e i).mem = s.mem := rfl
@[simp] theorem State.raise_inst : (s.raise e i).inst = s.inst := rfl
@[simp] theorem State.raise_pending : (s.raise e i).pending = s.pending := rfl
@[simp] theorem State.raise_reply : (s.raise e i).reply = s.reply := rfl

end

/-! ## complete -/

section
variable (i : Word)

@[simp] theorem State.complete_mode : (s.complete i).mode = s.mode := rfl
@[simp] theorem State.complete_nosig : (s.complete i).nosig = s.nosig := rfl
@[simp] theorem State.complete_caphit : (s.complete i).caphit = s.caphit := rfl
@[simp] theorem State.complete_short : (s.complete i).short = s.short := rfl
@[simp] theorem State.complete_last : (s.complete i).last = .eNone := rfl
@[simp] theorem State.complete_arg : (s.complete i).arg = s.arg := rfl
@[simp] theorem State.complete_errs : (s.complete i).errs = s.errs := rfl
@[simp] theorem State.complete_info : (s.complete i).info = i := rfl
@[simp] theorem State.complete_txtLen : (s.complete i).txtLen = s.txtLen := rfl
@[simp] theorem State.complete_bitsLen : (s.complete i).bitsLen = s.bitsLen := rfl
@[simp] theorem State.complete_waveLen : (s.complete i).waveLen = s.waveLen := rfl
@[simp] theorem State.complete_sampleRate : (s.complete i).sampleRate = s.sampleRate := rfl
@[simp] theorem State.complete_channelCount : (s.complete i).channelCount = s.channelCount := rfl
@[simp] theorem State.complete_freqMin : (s.complete i).freqMin = s.freqMin := rfl
@[simp] theorem State.complete_freqMax : (s.complete i).freqMax = s.freqMax := rfl
@[simp] theorem State.complete_frameLen : (s.complete i).frameLen = s.frameLen := rfl
@[simp] theorem State.complete_repeatCount : (s.complete i).repeatCount = s.repeatCount := rfl
@[simp] theorem State.complete_preFreq : (s.complete i).preFreq = s.preFreq := rfl
@[simp] theorem State.complete_preLen : (s.complete i).preLen = s.preLen := rfl
@[simp] theorem State.complete_gapLen : (s.complete i).gapLen = s.gapLen := rfl
@[simp] theorem State.complete_cgapLen : (s.complete i).cgapLen = s.cgapLen := rfl
@[simp] theorem State.complete_planDen : (s.complete i).planDen = s.planDen := rfl
@[simp] theorem State.complete_mem : (s.complete i).mem = s.mem := rfl
@[simp] theorem State.complete_inst : (s.complete i).inst = s.inst := rfl
@[simp] theorem State.complete_pending : (s.complete i).pending = s.pending := rfl
@[simp] theorem State.complete_reply : (s.complete i).reply = s.reply := rfl

end

/-! ## setWalkFlags -/

section
variable (w p f n : Nat)

@[simp] theorem State.setWalkFlags_mode : (s.setWalkFlags w p f n).mode = s.mode := rfl
@[simp] theorem State.setWalkFlags_nosig : (s.setWalkFlags w p f n).nosig = decide (n = 0) := rfl
@[simp] theorem State.setWalkFlags_caphit : (s.setWalkFlags w p f n).caphit = decide (s.inst.bitCap < n) := rfl
@[simp] theorem State.setWalkFlags_short : (s.setWalkFlags w p f n).short = decide ((w : Int) - p ≤ f) := rfl
@[simp] theorem State.setWalkFlags_last : (s.setWalkFlags w p f n).last = s.last := rfl
@[simp] theorem State.setWalkFlags_arg : (s.setWalkFlags w p f n).arg = s.arg := rfl
@[simp] theorem State.setWalkFlags_errs : (s.setWalkFlags w p f n).errs = s.errs := rfl
@[simp] theorem State.setWalkFlags_info : (s.setWalkFlags w p f n).info = s.info := rfl
@[simp] theorem State.setWalkFlags_txtLen : (s.setWalkFlags w p f n).txtLen = s.txtLen := rfl
@[simp] theorem State.setWalkFlags_bitsLen : (s.setWalkFlags w p f n).bitsLen = s.bitsLen := rfl
@[simp] theorem State.setWalkFlags_waveLen : (s.setWalkFlags w p f n).waveLen = s.waveLen := rfl
@[simp] theorem State.setWalkFlags_sampleRate : (s.setWalkFlags w p f n).sampleRate = s.sampleRate := rfl
@[simp] theorem State.setWalkFlags_channelCount : (s.setWalkFlags w p f n).channelCount = s.channelCount := rfl
@[simp] theorem State.setWalkFlags_freqMin : (s.setWalkFlags w p f n).freqMin = s.freqMin := rfl
@[simp] theorem State.setWalkFlags_freqMax : (s.setWalkFlags w p f n).freqMax = s.freqMax := rfl
@[simp] theorem State.setWalkFlags_frameLen : (s.setWalkFlags w p f n).frameLen = s.frameLen := rfl
@[simp] theorem State.setWalkFlags_repeatCount : (s.setWalkFlags w p f n).repeatCount = s.repeatCount := rfl
@[simp] theorem State.setWalkFlags_preFreq : (s.setWalkFlags w p f n).preFreq = s.preFreq := rfl
@[simp] theorem State.setWalkFlags_preLen : (s.setWalkFlags w p f n).preLen = s.preLen := rfl
@[simp] theorem State.setWalkFlags_gapLen : (s.setWalkFlags w p f n).gapLen = s.gapLen := rfl
@[simp] theorem State.setWalkFlags_cgapLen : (s.setWalkFlags w p f n).cgapLen = s.cgapLen := rfl
@[simp] theorem State.setWalkFlags_planDen : (s.setWalkFlags w p f n).planDen = s.planDen := rfl
@[simp] theorem State.setWalkFlags_mem : (s.setWalkFlags w p f n).mem = s.mem := rfl
@[simp] theorem State.setWalkFlags_inst : (s.setWalkFlags w p f n).inst = s.inst := rfl
@[simp] theorem State.setWalkFlags_pending : (s.setWalkFlags w p f n).pending = s.pending := rfl
@[simp] theorem State.setWalkFlags_reply : (s.setWalkFlags w p f n).reply = s.reply := rfl

end

/-! ## putText -/

section
variable (xs : List Word)

@[simp] theorem State.putText_mode : (s.putText xs).mode = s.mode := rfl
@[simp] theorem State.putText_nosig : (s.putText xs).nosig = s.nosig := rfl
@[simp] theorem State.putText_caphit : (s.putText xs).caphit = s.caphit := rfl
@[simp] theorem State.putText_short : (s.putText xs).short = s.short := rfl
@[simp] theorem State.putText_last : (s.putText xs).last = s.last := rfl
@[simp] theorem State.putText_arg : (s.putText xs).arg = s.arg := rfl
@[simp] theorem State.putText_errs : (s.putText xs).errs = s.errs := rfl
@[simp] theorem State.putText_info : (s.putText xs).info = s.info := rfl
@[simp] theorem State.putText_txtLen : (s.putText xs).txtLen = BitVec.ofNat 32 xs.length := rfl
@[simp] theorem State.putText_bitsLen : (s.putText xs).bitsLen = s.bitsLen := rfl
@[simp] theorem State.putText_waveLen : (s.putText xs).waveLen = s.waveLen := rfl
@[simp] theorem State.putText_sampleRate : (s.putText xs).sampleRate = s.sampleRate := rfl
@[simp] theorem State.putText_channelCount : (s.putText xs).channelCount = s.channelCount := rfl
@[simp] theorem State.putText_freqMin : (s.putText xs).freqMin = s.freqMin := rfl
@[simp] theorem State.putText_freqMax : (s.putText xs).freqMax = s.freqMax := rfl
@[simp] theorem State.putText_frameLen : (s.putText xs).frameLen = s.frameLen := rfl
@[simp] theorem State.putText_repeatCount : (s.putText xs).repeatCount = s.repeatCount := rfl
@[simp] theorem State.putText_preFreq : (s.putText xs).preFreq = s.preFreq := rfl
@[simp] theorem State.putText_preLen : (s.putText xs).preLen = s.preLen := rfl
@[simp] theorem State.putText_gapLen : (s.putText xs).gapLen = s.gapLen := rfl
@[simp] theorem State.putText_cgapLen : (s.putText xs).cgapLen = s.cgapLen := rfl
@[simp] theorem State.putText_planDen : (s.putText xs).planDen = s.planDen := rfl
@[simp] theorem State.putText_mem : (s.putText xs).mem = { s.mem with txt := s.mem.txt.replace xs } := rfl
@[simp] theorem State.putText_inst : (s.putText xs).inst = s.inst := rfl
@[simp] theorem State.putText_pending : (s.putText xs).pending = s.pending := rfl
@[simp] theorem State.putText_reply : (s.putText xs).reply = s.reply := rfl

end

/-! ## putBits -/

section
variable (xs : List Bit)

@[simp] theorem State.putBits_mode : (s.putBits xs).mode = s.mode := rfl
@[simp] theorem State.putBits_nosig : (s.putBits xs).nosig = s.nosig := rfl
@[simp] theorem State.putBits_caphit : (s.putBits xs).caphit = s.caphit := rfl
@[simp] theorem State.putBits_short : (s.putBits xs).short = s.short := rfl
@[simp] theorem State.putBits_last : (s.putBits xs).last = s.last := rfl
@[simp] theorem State.putBits_arg : (s.putBits xs).arg = s.arg := rfl
@[simp] theorem State.putBits_errs : (s.putBits xs).errs = s.errs := rfl
@[simp] theorem State.putBits_info : (s.putBits xs).info = s.info := rfl
@[simp] theorem State.putBits_txtLen : (s.putBits xs).txtLen = s.txtLen := rfl
@[simp] theorem State.putBits_bitsLen : (s.putBits xs).bitsLen = BitVec.ofNat 32 xs.length := rfl
@[simp] theorem State.putBits_waveLen : (s.putBits xs).waveLen = s.waveLen := rfl
@[simp] theorem State.putBits_sampleRate : (s.putBits xs).sampleRate = s.sampleRate := rfl
@[simp] theorem State.putBits_channelCount : (s.putBits xs).channelCount = s.channelCount := rfl
@[simp] theorem State.putBits_freqMin : (s.putBits xs).freqMin = s.freqMin := rfl
@[simp] theorem State.putBits_freqMax : (s.putBits xs).freqMax = s.freqMax := rfl
@[simp] theorem State.putBits_frameLen : (s.putBits xs).frameLen = s.frameLen := rfl
@[simp] theorem State.putBits_repeatCount : (s.putBits xs).repeatCount = s.repeatCount := rfl
@[simp] theorem State.putBits_preFreq : (s.putBits xs).preFreq = s.preFreq := rfl
@[simp] theorem State.putBits_preLen : (s.putBits xs).preLen = s.preLen := rfl
@[simp] theorem State.putBits_gapLen : (s.putBits xs).gapLen = s.gapLen := rfl
@[simp] theorem State.putBits_cgapLen : (s.putBits xs).cgapLen = s.cgapLen := rfl
@[simp] theorem State.putBits_planDen : (s.putBits xs).planDen = s.planDen := rfl
@[simp] theorem State.putBits_mem : (s.putBits xs).mem = { s.mem with bits := s.mem.bits.replace xs } := rfl
@[simp] theorem State.putBits_inst : (s.putBits xs).inst = s.inst := rfl
@[simp] theorem State.putBits_pending : (s.putBits xs).pending = s.pending := rfl
@[simp] theorem State.putBits_reply : (s.putBits xs).reply = s.reply := rfl

end

/-! ## putWave -/

section
variable (xs : List Sample)

@[simp] theorem State.putWave_mode : (s.putWave xs).mode = s.mode := rfl
@[simp] theorem State.putWave_nosig : (s.putWave xs).nosig = s.nosig := rfl
@[simp] theorem State.putWave_caphit : (s.putWave xs).caphit = s.caphit := rfl
@[simp] theorem State.putWave_short : (s.putWave xs).short = s.short := rfl
@[simp] theorem State.putWave_last : (s.putWave xs).last = s.last := rfl
@[simp] theorem State.putWave_arg : (s.putWave xs).arg = s.arg := rfl
@[simp] theorem State.putWave_errs : (s.putWave xs).errs = s.errs := rfl
@[simp] theorem State.putWave_info : (s.putWave xs).info = s.info := rfl
@[simp] theorem State.putWave_txtLen : (s.putWave xs).txtLen = s.txtLen := rfl
@[simp] theorem State.putWave_bitsLen : (s.putWave xs).bitsLen = s.bitsLen := rfl
@[simp] theorem State.putWave_waveLen : (s.putWave xs).waveLen = BitVec.ofNat 32 xs.length := rfl
@[simp] theorem State.putWave_sampleRate : (s.putWave xs).sampleRate = s.sampleRate := rfl
@[simp] theorem State.putWave_channelCount : (s.putWave xs).channelCount = s.channelCount := rfl
@[simp] theorem State.putWave_freqMin : (s.putWave xs).freqMin = s.freqMin := rfl
@[simp] theorem State.putWave_freqMax : (s.putWave xs).freqMax = s.freqMax := rfl
@[simp] theorem State.putWave_frameLen : (s.putWave xs).frameLen = s.frameLen := rfl
@[simp] theorem State.putWave_repeatCount : (s.putWave xs).repeatCount = s.repeatCount := rfl
@[simp] theorem State.putWave_preFreq : (s.putWave xs).preFreq = s.preFreq := rfl
@[simp] theorem State.putWave_preLen : (s.putWave xs).preLen = s.preLen := rfl
@[simp] theorem State.putWave_gapLen : (s.putWave xs).gapLen = s.gapLen := rfl
@[simp] theorem State.putWave_cgapLen : (s.putWave xs).cgapLen = s.cgapLen := rfl
@[simp] theorem State.putWave_planDen : (s.putWave xs).planDen = s.planDen := rfl
@[simp] theorem State.putWave_mem : (s.putWave xs).mem = { s.mem with wave := s.mem.wave.replace xs } := rfl
@[simp] theorem State.putWave_inst : (s.putWave xs).inst = s.inst := rfl
@[simp] theorem State.putWave_pending : (s.putWave xs).pending = s.pending := rfl
@[simp] theorem State.putWave_reply : (s.putWave xs).reply = s.reply := rfl

end

/-! ## putPlan -/

section
variable (d : Nat) (xs : List Numerator)

@[simp] theorem State.putPlan_mode : (s.putPlan d xs).mode = s.mode := rfl
@[simp] theorem State.putPlan_nosig : (s.putPlan d xs).nosig = s.nosig := rfl
@[simp] theorem State.putPlan_caphit : (s.putPlan d xs).caphit = s.caphit := rfl
@[simp] theorem State.putPlan_short : (s.putPlan d xs).short = s.short := rfl
@[simp] theorem State.putPlan_last : (s.putPlan d xs).last = s.last := rfl
@[simp] theorem State.putPlan_arg : (s.putPlan d xs).arg = s.arg := rfl
@[simp] theorem State.putPlan_errs : (s.putPlan d xs).errs = s.errs := rfl
@[simp] theorem State.putPlan_info : (s.putPlan d xs).info = s.info := rfl
@[simp] theorem State.putPlan_txtLen : (s.putPlan d xs).txtLen = s.txtLen := rfl
@[simp] theorem State.putPlan_bitsLen : (s.putPlan d xs).bitsLen = s.bitsLen := rfl
@[simp] theorem State.putPlan_waveLen : (s.putPlan d xs).waveLen = s.waveLen := rfl
@[simp] theorem State.putPlan_sampleRate : (s.putPlan d xs).sampleRate = s.sampleRate := rfl
@[simp] theorem State.putPlan_channelCount : (s.putPlan d xs).channelCount = s.channelCount := rfl
@[simp] theorem State.putPlan_freqMin : (s.putPlan d xs).freqMin = s.freqMin := rfl
@[simp] theorem State.putPlan_freqMax : (s.putPlan d xs).freqMax = s.freqMax := rfl
@[simp] theorem State.putPlan_frameLen : (s.putPlan d xs).frameLen = s.frameLen := rfl
@[simp] theorem State.putPlan_repeatCount : (s.putPlan d xs).repeatCount = s.repeatCount := rfl
@[simp] theorem State.putPlan_preFreq : (s.putPlan d xs).preFreq = s.preFreq := rfl
@[simp] theorem State.putPlan_preLen : (s.putPlan d xs).preLen = s.preLen := rfl
@[simp] theorem State.putPlan_gapLen : (s.putPlan d xs).gapLen = s.gapLen := rfl
@[simp] theorem State.putPlan_cgapLen : (s.putPlan d xs).cgapLen = s.cgapLen := rfl
@[simp] theorem State.putPlan_planDen : (s.putPlan d xs).planDen = BitVec.ofNat 32 d := rfl
@[simp] theorem State.putPlan_mem : (s.putPlan d xs).mem = { s.mem with plan := s.mem.plan.replace xs } := rfl
@[simp] theorem State.putPlan_inst : (s.putPlan d xs).inst = s.inst := rfl
@[simp] theorem State.putPlan_pending : (s.putPlan d xs).pending = s.pending := rfl
@[simp] theorem State.putPlan_reply : (s.putPlan d xs).reply = s.reply := rfl

end

/-! ## setTextLen -/

section
variable (v : Word)

@[simp] theorem State.setTextLen_mode : (s.setTextLen v).mode = s.mode := rfl
@[simp] theorem State.setTextLen_nosig : (s.setTextLen v).nosig = s.nosig := rfl
@[simp] theorem State.setTextLen_caphit : (s.setTextLen v).caphit = s.caphit := rfl
@[simp] theorem State.setTextLen_short : (s.setTextLen v).short = s.short := rfl
@[simp] theorem State.setTextLen_last : (s.setTextLen v).last = s.last := rfl
@[simp] theorem State.setTextLen_arg : (s.setTextLen v).arg = s.arg := rfl
@[simp] theorem State.setTextLen_errs : (s.setTextLen v).errs = s.errs := rfl
@[simp] theorem State.setTextLen_info : (s.setTextLen v).info = s.info := rfl
@[simp] theorem State.setTextLen_txtLen : (s.setTextLen v).txtLen = v := rfl
@[simp] theorem State.setTextLen_bitsLen : (s.setTextLen v).bitsLen = s.bitsLen := rfl
@[simp] theorem State.setTextLen_waveLen : (s.setTextLen v).waveLen = s.waveLen := rfl
@[simp] theorem State.setTextLen_sampleRate : (s.setTextLen v).sampleRate = s.sampleRate := rfl
@[simp] theorem State.setTextLen_channelCount : (s.setTextLen v).channelCount = s.channelCount := rfl
@[simp] theorem State.setTextLen_freqMin : (s.setTextLen v).freqMin = s.freqMin := rfl
@[simp] theorem State.setTextLen_freqMax : (s.setTextLen v).freqMax = s.freqMax := rfl
@[simp] theorem State.setTextLen_frameLen : (s.setTextLen v).frameLen = s.frameLen := rfl
@[simp] theorem State.setTextLen_repeatCount : (s.setTextLen v).repeatCount = s.repeatCount := rfl
@[simp] theorem State.setTextLen_preFreq : (s.setTextLen v).preFreq = s.preFreq := rfl
@[simp] theorem State.setTextLen_preLen : (s.setTextLen v).preLen = s.preLen := rfl
@[simp] theorem State.setTextLen_gapLen : (s.setTextLen v).gapLen = s.gapLen := rfl
@[simp] theorem State.setTextLen_cgapLen : (s.setTextLen v).cgapLen = s.cgapLen := rfl
@[simp] theorem State.setTextLen_planDen : (s.setTextLen v).planDen = s.planDen := rfl
@[simp] theorem State.setTextLen_mem : (s.setTextLen v).mem = { s.mem with txt := s.mem.txt.relength s.txtLen.toNat v.toNat } := rfl
@[simp] theorem State.setTextLen_inst : (s.setTextLen v).inst = s.inst := rfl
@[simp] theorem State.setTextLen_pending : (s.setTextLen v).pending = s.pending := rfl
@[simp] theorem State.setTextLen_reply : (s.setTextLen v).reply = s.reply := rfl

end

/-! ## setBitsLen -/

section
variable (v : Word)

@[simp] theorem State.setBitsLen_mode : (s.setBitsLen v).mode = s.mode := rfl
@[simp] theorem State.setBitsLen_nosig : (s.setBitsLen v).nosig = s.nosig := rfl
@[simp] theorem State.setBitsLen_caphit : (s.setBitsLen v).caphit = s.caphit := rfl
@[simp] theorem State.setBitsLen_short : (s.setBitsLen v).short = s.short := rfl
@[simp] theorem State.setBitsLen_last : (s.setBitsLen v).last = s.last := rfl
@[simp] theorem State.setBitsLen_arg : (s.setBitsLen v).arg = s.arg := rfl
@[simp] theorem State.setBitsLen_errs : (s.setBitsLen v).errs = s.errs := rfl
@[simp] theorem State.setBitsLen_info : (s.setBitsLen v).info = s.info := rfl
@[simp] theorem State.setBitsLen_txtLen : (s.setBitsLen v).txtLen = s.txtLen := rfl
@[simp] theorem State.setBitsLen_bitsLen : (s.setBitsLen v).bitsLen = v := rfl
@[simp] theorem State.setBitsLen_waveLen : (s.setBitsLen v).waveLen = s.waveLen := rfl
@[simp] theorem State.setBitsLen_sampleRate : (s.setBitsLen v).sampleRate = s.sampleRate := rfl
@[simp] theorem State.setBitsLen_channelCount : (s.setBitsLen v).channelCount = s.channelCount := rfl
@[simp] theorem State.setBitsLen_freqMin : (s.setBitsLen v).freqMin = s.freqMin := rfl
@[simp] theorem State.setBitsLen_freqMax : (s.setBitsLen v).freqMax = s.freqMax := rfl
@[simp] theorem State.setBitsLen_frameLen : (s.setBitsLen v).frameLen = s.frameLen := rfl
@[simp] theorem State.setBitsLen_repeatCount : (s.setBitsLen v).repeatCount = s.repeatCount := rfl
@[simp] theorem State.setBitsLen_preFreq : (s.setBitsLen v).preFreq = s.preFreq := rfl
@[simp] theorem State.setBitsLen_preLen : (s.setBitsLen v).preLen = s.preLen := rfl
@[simp] theorem State.setBitsLen_gapLen : (s.setBitsLen v).gapLen = s.gapLen := rfl
@[simp] theorem State.setBitsLen_cgapLen : (s.setBitsLen v).cgapLen = s.cgapLen := rfl
@[simp] theorem State.setBitsLen_planDen : (s.setBitsLen v).planDen = s.planDen := rfl
@[simp] theorem State.setBitsLen_mem : (s.setBitsLen v).mem = { s.mem with bits := s.mem.bits.relength s.bitsLen.toNat v.toNat } := rfl
@[simp] theorem State.setBitsLen_inst : (s.setBitsLen v).inst = s.inst := rfl
@[simp] theorem State.setBitsLen_pending : (s.setBitsLen v).pending = s.pending := rfl
@[simp] theorem State.setBitsLen_reply : (s.setBitsLen v).reply = s.reply := rfl

end

/-! ## setWaveLen -/

section
variable (v : Word)

@[simp] theorem State.setWaveLen_mode : (s.setWaveLen v).mode = s.mode := rfl
@[simp] theorem State.setWaveLen_nosig : (s.setWaveLen v).nosig = s.nosig := rfl
@[simp] theorem State.setWaveLen_caphit : (s.setWaveLen v).caphit = s.caphit := rfl
@[simp] theorem State.setWaveLen_short : (s.setWaveLen v).short = s.short := rfl
@[simp] theorem State.setWaveLen_last : (s.setWaveLen v).last = s.last := rfl
@[simp] theorem State.setWaveLen_arg : (s.setWaveLen v).arg = s.arg := rfl
@[simp] theorem State.setWaveLen_errs : (s.setWaveLen v).errs = s.errs := rfl
@[simp] theorem State.setWaveLen_info : (s.setWaveLen v).info = s.info := rfl
@[simp] theorem State.setWaveLen_txtLen : (s.setWaveLen v).txtLen = s.txtLen := rfl
@[simp] theorem State.setWaveLen_bitsLen : (s.setWaveLen v).bitsLen = s.bitsLen := rfl
@[simp] theorem State.setWaveLen_waveLen : (s.setWaveLen v).waveLen = v := rfl
@[simp] theorem State.setWaveLen_sampleRate : (s.setWaveLen v).sampleRate = s.sampleRate := rfl
@[simp] theorem State.setWaveLen_channelCount : (s.setWaveLen v).channelCount = s.channelCount := rfl
@[simp] theorem State.setWaveLen_freqMin : (s.setWaveLen v).freqMin = s.freqMin := rfl
@[simp] theorem State.setWaveLen_freqMax : (s.setWaveLen v).freqMax = s.freqMax := rfl
@[simp] theorem State.setWaveLen_frameLen : (s.setWaveLen v).frameLen = s.frameLen := rfl
@[simp] theorem State.setWaveLen_repeatCount : (s.setWaveLen v).repeatCount = s.repeatCount := rfl
@[simp] theorem State.setWaveLen_preFreq : (s.setWaveLen v).preFreq = s.preFreq := rfl
@[simp] theorem State.setWaveLen_preLen : (s.setWaveLen v).preLen = s.preLen := rfl
@[simp] theorem State.setWaveLen_gapLen : (s.setWaveLen v).gapLen = s.gapLen := rfl
@[simp] theorem State.setWaveLen_cgapLen : (s.setWaveLen v).cgapLen = s.cgapLen := rfl
@[simp] theorem State.setWaveLen_planDen : (s.setWaveLen v).planDen = s.planDen := rfl
@[simp] theorem State.setWaveLen_mem : (s.setWaveLen v).mem = { s.mem with wave := s.mem.wave.relength s.waveLen.toNat v.toNat } := rfl
@[simp] theorem State.setWaveLen_inst : (s.setWaveLen v).inst = s.inst := rfl
@[simp] theorem State.setWaveLen_pending : (s.setWaveLen v).pending = s.pending := rfl
@[simp] theorem State.setWaveLen_reply : (s.setWaveLen v).reply = s.reply := rfl

end

/-! ## answer -/

section
variable (d : HostData)

@[simp] theorem State.answer_mode : (s.answer d).mode = s.mode := rfl
@[simp] theorem State.answer_nosig : (s.answer d).nosig = s.nosig := rfl
@[simp] theorem State.answer_caphit : (s.answer d).caphit = s.caphit := rfl
@[simp] theorem State.answer_short : (s.answer d).short = s.short := rfl
@[simp] theorem State.answer_last : (s.answer d).last = s.last := rfl
@[simp] theorem State.answer_arg : (s.answer d).arg = s.arg := rfl
@[simp] theorem State.answer_errs : (s.answer d).errs = s.errs := rfl
@[simp] theorem State.answer_info : (s.answer d).info = s.info := rfl
@[simp] theorem State.answer_txtLen : (s.answer d).txtLen = s.txtLen := rfl
@[simp] theorem State.answer_bitsLen : (s.answer d).bitsLen = s.bitsLen := rfl
@[simp] theorem State.answer_waveLen : (s.answer d).waveLen = s.waveLen := rfl
@[simp] theorem State.answer_sampleRate : (s.answer d).sampleRate = s.sampleRate := rfl
@[simp] theorem State.answer_channelCount : (s.answer d).channelCount = s.channelCount := rfl
@[simp] theorem State.answer_freqMin : (s.answer d).freqMin = s.freqMin := rfl
@[simp] theorem State.answer_freqMax : (s.answer d).freqMax = s.freqMax := rfl
@[simp] theorem State.answer_frameLen : (s.answer d).frameLen = s.frameLen := rfl
@[simp] theorem State.answer_repeatCount : (s.answer d).repeatCount = s.repeatCount := rfl
@[simp] theorem State.answer_preFreq : (s.answer d).preFreq = s.preFreq := rfl
@[simp] theorem State.answer_preLen : (s.answer d).preLen = s.preLen := rfl
@[simp] theorem State.answer_gapLen : (s.answer d).gapLen = s.gapLen := rfl
@[simp] theorem State.answer_cgapLen : (s.answer d).cgapLen = s.cgapLen := rfl
@[simp] theorem State.answer_planDen : (s.answer d).planDen = s.planDen := rfl
@[simp] theorem State.answer_mem : (s.answer d).mem = s.mem := rfl
@[simp] theorem State.answer_inst : (s.answer d).inst = s.inst := rfl
@[simp] theorem State.answer_pending : (s.answer d).pending = s.pending := rfl
@[simp] theorem State.answer_reply : (s.answer d).reply = some d := rfl

end

end Sys2Proof.Machine
end

