-- ==== Sys2Proof/Laws/Ops.lean ====
section
/-! SUPPORT. What each shared operation does, once: buffer reads and writes, errors, completions, the state check. -/

namespace Sys2Proof.Machine

section
variable {w : Nat}

/-! ## Cells -/

theorem cellAt_putCell (i k : Nat) (v : BitVec w) (l : List (Nat × BitVec w)) :
    cellAt k (putCell i v l) = if k = i then some v else cellAt k l := by
  induction l with
  | nil =>
    by_cases h : k = i
    · simp [putCell, cellAt, h]
    · simp [putCell, cellAt, h, Ne.symm h]
  | cons c t ih =>
    obtain ⟨j, u⟩ := c
    unfold putCell
    split
    · by_cases h : k = i
      · simp [cellAt, h]
      · simp [cellAt, h, Ne.symm h]
    · split
      · next h1 =>
        subst h1
        by_cases h : k = i
        · simp [cellAt, h]
        · simp [cellAt, h, Ne.symm h]
      · next h1 =>
        by_cases h : k = i
        · subst h
          simp [cellAt, ih, Ne.symm h1]
        · by_cases h2 : j = k
          · simp [cellAt, h2, h]
          · simp [cellAt, h2, ih, h]

/-- What `putCell` lists was listed before or is the new cell. -/
theorem mem_putCell {i : Nat} {v : BitVec w} {l : List (Nat × BitVec w)} {c : Nat × BitVec w}
    (h : c ∈ putCell i v l) : c = (i, v) ∨ c ∈ l := by
  induction l with
  | nil => exact Or.inl (by simpa [putCell] using h)
  | cons d t ih =>
    obtain ⟨j, u⟩ := d
    unfold putCell at h
    split at h
    · rcases List.mem_cons.mp h with h | h
      · exact Or.inl h
      · exact Or.inr h
    · split at h
      · rcases List.mem_cons.mp h with h | h
        · exact Or.inl h
        · exact Or.inr (List.mem_cons_of_mem _ h)
      · rcases List.mem_cons.mp h with h | h
        · exact Or.inr (by simp [h])
        · exact (ih h).imp id (List.mem_cons_of_mem _)

theorem putCell_rising (i : Nat) (v : BitVec w) (l : List (Nat × BitVec w))
    (h : (l.map Prod.fst).Pairwise (· < ·)) : ((putCell i v l).map Prod.fst).Pairwise (· < ·) := by
  induction l with
  | nil => simp [putCell]
  | cons d t ih =>
    obtain ⟨j, u⟩ := d
    rw [List.map_cons, List.pairwise_cons] at h
    unfold putCell
    split
    · next hij =>
      rw [List.map_cons, List.pairwise_cons]
      refine ⟨fun a ha => ?_, by rw [List.map_cons, List.pairwise_cons]; exact h⟩
      rcases List.mem_cons.mp ha with rfl | ha
      · exact hij
      · exact hij.trans (h.1 a ha)
    · split
      · next hij =>
        subst hij
        rw [List.map_cons, List.pairwise_cons]
        exact h
      · next h1 h2 =>
        rw [List.map_cons, List.pairwise_cons]
        refine ⟨fun a ha => ?_, ih h.2⟩
        obtain ⟨c, hc, rfl⟩ := List.mem_map.mp ha
        rcases mem_putCell hc with rfl | hc
        · exact lt_of_le_of_ne (not_lt.mp h1) (Ne.symm h2)
        · exact h.1 _ (List.mem_map.mpr ⟨c, hc, rfl⟩)

theorem cellAt_eq_none {i : Nat} {l : List (Nat × BitVec w)} (h : ∀ c ∈ l, c.1 ≠ i) : cellAt i l = none := by
  induction l with
  | nil => rfl
  | cons d t ih =>
    rw [cellAt, if_neg (h d (by simp))]
    exact ih fun c hc => h c (by simp [hc])

theorem elements_length (free : Nat → BitVec w) (i n : Nat) (l : List (Nat × BitVec w)) :
    (elements free i n l).length = n := by
  induction l generalizing i n with
  | nil => simp [elements]
  | cons d t ih =>
    obtain ⟨j, u⟩ := d
    unfold elements
    split
    · exact ih i n
    · split
      · next h => simp [ih]; omega
      · simp

/-- The elements from `i` on, read one by one. -/
theorem elements_eq (free : Nat → BitVec w) (i n : Nat) (l : List (Nat × BitVec w))
    (h : (l.map Prod.fst).Pairwise (· < ·)) :
    elements free i n l = (List.range' i n).map fun k => (cellAt k l).getD (free k) := by
  induction l generalizing i n with
  | nil => simp [elements, cellAt]
  | cons d t ih =>
    obtain ⟨j, u⟩ := d
    rw [List.map_cons, List.pairwise_cons] at h
    have hlt : ∀ c ∈ t, j < c.1 := fun c hc => h.1 _ (List.mem_map.mpr ⟨c, hc, rfl⟩)
    unfold elements
    split
    · next hji =>
      rw [ih i n h.2]
      refine List.map_congr_left fun k hk => ?_
      have := (List.mem_range'_1.mp hk).1
      rw [cellAt, if_neg (by omega)]
    · next hji =>
      split
      · next hn =>
        rw [ih (j + 1) _ h.2]
        have e : List.range' i n = List.range' i (j - i) ++ j :: List.range' (j + 1) (n - (j - i) - 1) := by
          have e1 : n = (j - i) + (1 + (n - (j - i) - 1)) := by omega
          have e2 : i + 1 * (j - i) = j := by omega
          conv_lhs => rw [e1, ← List.range'_append, e2, Nat.add_comm 1, List.range'_succ]
        rw [e, List.map_append, List.map_cons]
        congr 1
        · refine List.map_congr_left fun k hk => ?_
          have := List.mem_range'_1.mp hk
          rw [cellAt, if_neg (by omega), cellAt_eq_none fun c hc => by have := hlt c hc; omega]
          rfl
        · congr 1
          · simp [cellAt]
          · refine List.map_congr_left fun k hk => ?_
            have := (List.mem_range'_1.mp hk).1
            rw [cellAt, if_neg (by omega)]
      · next hn =>
        refine List.map_congr_left fun k hk => ?_
        have := List.mem_range'_1.mp hk
        rw [cellAt, if_neg (by omega), cellAt_eq_none fun c hc => by have := hlt c hc; omega]
        rfl

/-! ## Buffers -/

variable (b : Buf w) (sp : Space)

theorem Buf.get_set (i k : Nat) (v : BitVec w) : (b.set i v).get sp k = if k = i then v else b.get sp k := by
  unfold Buf.get Buf.set
  rw [cellAt_putCell]
  by_cases h : k = i
  · simp [h]
  · simp [h, Buf.free]

theorem Buf.set_wf (i : Nat) (v : BitVec w) (h : b.wf) : (b.set i v).wf := putCell_rising i v b.cells h

theorem Buf.forget_wf : b.forget.wf := List.Pairwise.nil

theorem Buf.unwritten_wf (g : Nat) : (Buf.unwritten w g).wf := List.Pairwise.nil

@[simp] theorem Buf.take_length (n : Nat) : (b.take sp n).length = n := elements_length _ 0 n _

/-- The sequence is the elements read one by one. -/
theorem Buf.take_eq (h : b.wf) (n : Nat) : b.take sp n = (List.range n).map (b.get sp) := by
  unfold Buf.take
  rw [elements_eq _ _ _ _ h, List.range_eq_range']
  rfl

theorem zipIdx_keys (xs : List (BitVec w)) (k : Nat) :
    ((xs.zipIdx k).map fun x => (x.2, x.1)).map Prod.fst = List.range' k xs.length := by
  induction xs generalizing k with
  | nil => rfl
  | cons a t ih => simp [List.range'_succ, ih]

theorem Buf.replace_wf (xs : List (BitVec w)) : (b.replace xs).wf := by
  unfold Buf.wf Buf.replace
  rw [zipIdx_keys]
  exact List.pairwise_lt_range'

/-- What a whole write lists lies below its length. -/
theorem Buf.replace_below {xs : List (BitVec w)} {c : Nat × BitVec w} (h : c ∈ (b.replace xs).cells) :
    c.1 < xs.length := by
  have h1 : c.1 ∈ ((xs.zipIdx).map fun x => (x.2, x.1)).map Prod.fst := List.mem_map.mpr ⟨c, h, rfl⟩
  rw [zipIdx_keys] at h1
  have := (List.mem_range'_1.mp h1).2
  omega

theorem cellAt_zipIdx (xs : List (BitVec w)) (k i : Nat) :
    cellAt i ((xs.zipIdx k).map fun x => (x.2, x.1)) = if k ≤ i then xs[i - k]? else none := by
  induction xs generalizing k with
  | nil => simp [cellAt]
  | cons a t ih =>
    rw [List.zipIdx_cons, List.map_cons, cellAt]
    by_cases h : k = i
    · simp [h]
    · rw [if_neg h, ih]
      by_cases h2 : k ≤ i
      · have e : i - k = (i - (k + 1)) + 1 := by omega
        rw [if_pos (by omega), if_pos h2, e, List.getElem?_cons_succ]
      · rw [if_neg (by omega), if_neg h2]

/-- After a whole write the elements are those written; past them they are free values of a new generation. -/
theorem Buf.get_replace (xs : List (BitVec w)) (i : Nat) :
    (b.replace xs).get sp i = xs[i]?.getD (Config.freeElement w sp.id (b.gen + 1) 0 i) := by
  unfold Buf.get
  have h := cellAt_zipIdx xs 0 i
  simp only [Nat.zero_le, if_true, Nat.sub_zero] at h
  simp only [Buf.replace, h, Buf.free, List.countP_nil]

/-- A prefix of a sequence written whole reads back. -/
theorem Buf.take_replace_le (xs : List (BitVec w)) (n : Nat) (h : n ≤ xs.length) :
    (b.replace xs).take sp n = xs.take n := by
  rw [Buf.take_eq _ _ (b.replace_wf xs)]
  refine List.ext_getElem (by simp [h]) fun i h1 h2 => ?_
  have hi : i < xs.length := by
    have := List.length_range ▸ List.length_map (as := List.range n) _ ▸ h1
    omega
  simp [Buf.get_replace, hi]

/-- The sequence written whole is the sequence read back. -/
theorem cellAt_filter (n k : Nat) (l : List (Nat × BitVec w)) :
    cellAt k (l.filter fun c => c.1 < n) = if k < n then cellAt k l else none := by
  induction l with
  | nil => simp [cellAt]
  | cons d t ih =>
    obtain ⟨j, u⟩ := d
    by_cases hj : j < n
    · rw [List.filter_cons_of_pos (by simpa using hj), cellAt, cellAt, ih]
      by_cases h : j = k
      · simp [h, h ▸ hj]
      · simp [h]
    · rw [List.filter_cons_of_neg (by simpa using hj), ih, cellAt]
      by_cases h : j = k
      · simp [← h, hj]
      · simp [h]

/-- A length register that does not fall leaves the buffer as it is. -/
theorem Buf.relength_of_le {old new : Nat} (h : old ≤ new) : b.relength old new = b := by
  rw [Buf.relength, if_neg (not_lt.mpr h)]

/-- No move of the length register touches an element below it. -/
theorem Buf.get_relength {old new i : Nat} (h : i < new) : (b.relength old new).get sp i = b.get sp i := by
  unfold Buf.relength
  split
  · simp only [Buf.get, Buf.free]
    rw [cellAt_filter, if_pos h, List.countP_cons_of_neg (by simpa using h)]
  · rfl

theorem Buf.mem_relength {old new : Nat} {c : Nat × BitVec w} (h : c ∈ (b.relength old new).cells) : c ∈ b.cells := by
  unfold Buf.relength at h
  split at h
  · exact List.mem_of_mem_filter h
  · exact h

/-- A length register that falls leaves nothing specified from its new value up. -/
theorem Buf.relength_below {old new : Nat} (ho : new < old) {c : Nat × BitVec w} (h : c ∈ (b.relength old new).cells) :
    c.1 < new := by
  rw [Buf.relength, if_pos ho] at h
  simpa using (List.mem_filter.mp h).2

theorem Buf.relength_wf {old new : Nat} (h : b.wf) : (b.relength old new).wf := by
  unfold Buf.relength
  split
  · exact h.sublist (List.filter_sublist.map _)
  · exact h

/-- The indices a whole write lists are those below its length. -/
theorem Buf.replace_keys (xs : List (BitVec w)) : (b.replace xs).cells.map Prod.fst = List.range xs.length := by
  rw [List.range_eq_range']
  exact zipIdx_keys xs 0

@[simp] theorem Buf.take_replace (xs : List (BitVec w)) : (b.replace xs).take sp xs.length = xs := by
  rw [Buf.take_replace_le _ _ _ _ le_rfl, List.take_length]

end

/-! ## Registers -/

theorem bitWord_getLsbD (n b : Nat) (h : n < 32) : (bitWord n).getLsbD b = decide (b = n) := by
  unfold bitWord
  rw [BitVec.getLsbD_shiftLeft]
  by_cases h1 : b = n
  · subst h1
    simp [h]
  · by_cases h2 : b < n
    · simp [h2, h1]
    · have : b - n ≠ 0 := by omega
      simp [h1, BitVec.getLsbD_one, this]

theorem setErr_getLsbD (s : State) (n b : Nat) (h : n < 32) :
    (s.setErr n).errs.getLsbD b = (s.errs.getLsbD b || decide (b = n)) := by
  rw [State.setErr_errs, BitVec.getLsbD_or, bitWord_getLsbD n b h]

theorem ErrCode.code_lt (e : ErrCode) : e.code < 32 := by cases e <;> decide

/-! ## Frames -/

theorem State.Frame.refl (s : State) (regs : List Nat) (sps : List Space) : s.Frame regs sps s :=
  ⟨fun _ _ => rfl, fun _ _ _ => rfl, rfl, rfl, rfl⟩

theorem State.Frame.trans {s t u : State} {regs : List Nat} {sps : List Space} (h : s.Frame regs sps t)
    (h' : t.Frame regs sps u) : s.Frame regs sps u :=
  ⟨fun k hk => (h'.1 k hk).trans (h.1 k hk), fun sp hs i => (h'.2.1 sp hs i).trans (h.2.1 sp hs i),
    h'.2.2.1.trans h.2.2.1, h'.2.2.2.1.trans h.2.2.2.1, h'.2.2.2.2.trans h.2.2.2.2⟩

theorem State.Frame.mono {s t : State} {regs regs' : List Nat} {sps sps' : List Space} (h : s.Frame regs sps t)
    (hr : ∀ k ∈ regs, k ∈ regs') (hs : ∀ sp ∈ sps, sp ∈ sps') : s.Frame regs' sps' t :=
  ⟨fun k hk => h.1 k fun h0 => hk (hr k h0), fun sp hsp => h.2.1 sp fun h0 => hsp (hs sp h0), h.2.2⟩

/-- `raise` does the three writes of 60_exceptions.md R173 and nothing more. -/
theorem State.raise_raised (s : State) (e : ErrCode) (info : Word) : s.Raised e info (s.raise e info) := by
  refine ⟨rfl, rfl, fun b => setErr_getLsbD s e.code b e.code_lt, ⟨rfl, rfl, rfl, rfl⟩, ?_, fun sp _ i => rfl, rfl, rfl, rfl⟩
  intro k hk
  simp only [List.mem_cons, List.not_mem_nil, or_false, not_or] at hk
  unfold State.register
  split <;> first | rfl | omega

theorem State.complete_frame (s : State) (info : Word) : s.Frame [2, 4] [] (s.complete info) := by
  refine ⟨fun k hk => ?_, fun sp _ i => rfl, rfl, rfl, rfl⟩
  simp only [List.mem_cons, List.not_mem_nil, or_false, not_or] at hk
  unfold State.register
  split <;> first | rfl | omega

theorem State.setErr_frame (s : State) (n : Nat) : s.Frame [3] [] (s.setErr n) := by
  refine ⟨fun k hk => ?_, fun sp _ i => rfl, rfl, rfl, rfl⟩
  simp only [List.mem_cons, List.not_mem_nil, or_false] at hk
  unfold State.register
  split <;> first | rfl | omega

theorem State.putText_frame (s : State) (xs : List Word) : s.Frame [5] [.txt] (s.putText xs) := by
  refine ⟨fun k hk => ?_, fun sp hs i => ?_, rfl, rfl, rfl⟩
  · simp only [List.mem_cons, List.not_mem_nil, or_false] at hk
    unfold State.register
    split <;> first | rfl | omega
  · cases sp <;> first | rfl | simp at hs

theorem State.putBits_frame (s : State) (xs : List Bit) : s.Frame [6] [.bits] (s.putBits xs) := by
  refine ⟨fun k hk => ?_, fun sp hs i => ?_, rfl, rfl, rfl⟩
  · simp only [List.mem_cons, List.not_mem_nil, or_false] at hk
    unfold State.register
    split <;> first | rfl | omega
  · cases sp <;> first | rfl | simp at hs

theorem State.putWave_frame (s : State) (xs : List Sample) : s.Frame [7] [.wave] (s.putWave xs) := by
  refine ⟨fun k hk => ?_, fun sp hs i => ?_, rfl, rfl, rfl⟩
  · simp only [List.mem_cons, List.not_mem_nil, or_false] at hk
    unfold State.register
    split <;> first | rfl | omega
  · cases sp <;> first | rfl | simp at hs

theorem State.setTextLen_frame (s : State) (v : Word) : s.Frame [5] [.txt] (s.setTextLen v) := by
  refine ⟨fun k hk => ?_, fun sp hs i => ?_, rfl, rfl, rfl⟩
  · simp only [List.mem_cons, List.not_mem_nil, or_false] at hk
    unfold State.register
    split <;> first | rfl | omega
  · cases sp <;> first | rfl | simp at hs

theorem State.setBitsLen_frame (s : State) (v : Word) : s.Frame [6] [.bits] (s.setBitsLen v) := by
  refine ⟨fun k hk => ?_, fun sp hs i => ?_, rfl, rfl, rfl⟩
  · simp only [List.mem_cons, List.not_mem_nil, or_false] at hk
    unfold State.register
    split <;> first | rfl | omega
  · cases sp <;> first | rfl | simp at hs

theorem State.setWaveLen_frame (s : State) (v : Word) : s.Frame [7] [.wave] (s.setWaveLen v) := by
  refine ⟨fun k hk => ?_, fun sp hs i => ?_, rfl, rfl, rfl⟩
  · simp only [List.mem_cons, List.not_mem_nil, or_false] at hk
    unfold State.register
    split <;> first | rfl | omega
  · cases sp <;> first | rfl | simp at hs

theorem State.putPlan_frame (s : State) (d : Nat) (xs : List Numerator) : s.Frame [18] [.plan] (s.putPlan d xs) := by
  refine ⟨fun k hk => ?_, fun sp hs i => ?_, rfl, rfl, rfl⟩
  · simp only [List.mem_cons, List.not_mem_nil, or_false] at hk
    unfold State.register
    split <;> first | rfl | omega
  · cases sp <;> first | rfl | simp at hs

theorem State.setWalkFlags_frame (s : State) (w p f n : Nat) : s.Frame [2] [] (s.setWalkFlags w p f n) := by
  refine ⟨fun k hk => ?_, fun sp _ i => rfl, rfl, rfl, rfl⟩
  simp only [List.mem_cons, List.not_mem_nil, or_false] at hk
  unfold State.register
  split <;> first | rfl | omega

/-! ## The sequences after a whole write -/

theorem State.text_putText (s : State) (xs : List Word) (h : xs.length < 2 ^ 32) : (s.putText xs).text = xs := by
  simp only [State.text, State.putText_mem, State.putText_txtLen, BitVec.toNat_ofNat, Nat.mod_eq_of_lt h, Buf.take_replace]

theorem State.bits_putBits (s : State) (xs : List Bit) (h : xs.length < 2 ^ 32) : (s.putBits xs).bits = xs := by
  simp only [State.bits, State.putBits_mem, State.putBits_bitsLen, BitVec.toNat_ofNat, Nat.mod_eq_of_lt h, Buf.take_replace]

theorem State.wave_putWave (s : State) (xs : List Sample) (h : xs.length < 2 ^ 32) : (s.putWave xs).wave = xs := by
  simp only [State.wave, State.putWave_mem, State.putWave_waveLen, BitVec.toNat_ofNat, Nat.mod_eq_of_lt h, Buf.take_replace]

@[simp] theorem State.text_complete (s : State) (i : Word) : (s.complete i).text = s.text := rfl
@[simp] theorem State.bits_complete (s : State) (i : Word) : (s.complete i).bits = s.bits := rfl
@[simp] theorem State.wave_complete (s : State) (i : Word) : (s.complete i).wave = s.wave := rfl
@[simp] theorem State.bits_setWalkFlags (s : State) (w p f n : Nat) : (s.setWalkFlags w p f n).bits = s.bits := rfl

@[simp] theorem State.text_length (s : State) : s.text.length = s.txtLen.toNat := Buf.take_length _ _ _
@[simp] theorem State.bits_length (s : State) : s.bits.length = s.bitsLen.toNat := Buf.take_length _ _ _
@[simp] theorem State.wave_length (s : State) : s.wave.length = s.waveLen.toNat := Buf.take_length _ _ _
@[simp] theorem State.plan_length (s : State) : s.plan.length = s.nChan := by simp [State.plan]

/-! ## The state check -/

variable {s : State} (k : State → State)

theorem State.whenReady_ready (h : s.mode = .ready) : s.whenReady k = k s := by simp [State.whenReady, h]

theorem State.whenReady_other (h : s.mode ≠ .ready) : s.whenReady k = s.raise .eState 0 := by
  unfold State.whenReady
  split
  · next h1 => exact absurd h1 h
  · rfl
  · rfl

theorem State.whenUnconfigured_unconfigured (h : s.mode = .unconfigured) : s.whenUnconfigured k = k s := by
  simp [State.whenUnconfigured, h]

theorem State.whenUnconfigured_other (h : s.mode ≠ .unconfigured) : s.whenUnconfigured k = s.raise .eState 0 := by
  unfold State.whenUnconfigured
  split
  · next h1 => exact absurd h1 h
  · rfl
  · rfl

end Sys2Proof.Machine
end

