-- ==== Sys2Proof/Laws/Exec.lean ====
section
/-! SUPPORT. What each command answers, and once what any command can answer: an error, a verdict on the configuration,
or one destination written whole. -/

namespace Sys2Proof.Machine

variable {s : State}

/-- Every state a command can answer. -/
inductive CommandResult (s : State) : Instr → State → Prop where
  /-- An error beside E_CONFIG. -/
  | raised {i : Instr} {e : ErrCode} {info : Word} : e ≠ .eNone → e ≠ .eConfig → CommandResult s i (s.raise e info)
  /-- CFG rejects the configuration. -/
  | rejected : s.mode = .unconfigured → s.configMask ≠ 0 →
      CommandResult s .cfg (State.raise { s with mode := .failed } .eConfig (BitVec.ofNat 32 s.configMask))
  /-- CFG accepts it. -/
  | accepted : s.mode = .unconfigured → s.configMask = 0 →
      CommandResult s .cfg (State.complete
        { s.putPlan (planDenOf s.nChan) (planOf s.freqMin.toNat s.freqMax.toNat s.nChan) with mode := .ready } 0)
  /-- TNORM and B2T write TXT. -/
  | text {i : Instr} {xs : List Word} {info : Word} : s.mode = .ready →
      (i = .tnorm ∧ xs = collapse false s.text) ∨ (i = .b2t ∧ xs = bitsText s.bits ∧ xs.length ≤ s.inst.txtMax) →
      CommandResult s i ((s.putText xs).complete info)
  /-- T2B, REPX, FDEM and REPC write BITS. -/
  | bits {i : Instr} {xs : List Bit} {info : Word} : s.mode = .ready →
      (i = .t2b ∧ xs = textBits s.text ∧ 8 * s.txtLen.toNat ≤ s.inst.bitMax) ∨
        (i = .repx ∧ xs = doubleBits s.bits ∧ 2 * s.bitsLen.toNat ≤ s.inst.bitMax) ∨
        (i = .fdem ∧ xs = s.fdemWindow (s.window s.argNat) ∧ s.nChan ≤ s.inst.bitMax) ∨
        (i = .repc ∧ xs = collapsePairs s.bits) →
      CommandResult s i ((s.putBits xs).complete info)
  /-- CDEM writes BITS and the three flags. -/
  | walked {info : Word} : s.mode = .ready →
      CommandResult s .cdem (((s.putBits s.cdemResult.2).setWalkFlags s.wLen s.pLen s.fLen s.cdemResult.2.length).complete
        info)
  /-- FMOD and CMOD write WAVE. -/
  | wave {i : Instr} {xs : List Sample} {info : Word} : s.mode = .ready →
      (i = .fmod ∧ xs = s.frame s.argNat ∧ s.fLen ≤ s.inst.waveMax) ∨
        (i = .cmod ∧ xs = s.carousel ∧ s.carouselLen ≤ s.inst.waveMax) →
      CommandResult s i ((s.putWave xs).complete info)

theorem exec_not_ready {i : Instr} (hi : i ≠ .cfg) (h : s.mode ≠ .ready) : exec i s = .next (s.raise .eState 0) := by
  cases i <;> first
    | exact absurd rfl hi
    | exact congrArg Host.Outcome.next (State.whenReady_other _ h)

theorem exec_cfg_not_unconfigured (h : s.mode ≠ .unconfigured) : exec .cfg s = .next (s.raise .eState 0) :=
  congrArg Host.Outcome.next (State.whenUnconfigured_other _ h)

section
variable (h : s.mode = .ready)
include h

theorem exec_tnorm : exec .tnorm s = .next ((s.putText (collapse false s.text)).complete 0) :=
  congrArg Host.Outcome.next (State.whenReady_ready _ h)

theorem exec_t2b : exec .t2b s = .next (match firstWide s.text with
    | some i => s.raise .eDomain (BitVec.ofNat 32 i)
    | none =>
      if s.inst.bitMax < 8 * s.txtLen.toNat then s.raise .eCapacity 0
      else (s.putBits (textBits s.text)).complete 0) :=
  congrArg Host.Outcome.next (State.whenReady_ready _ h)

theorem exec_repx : exec .repx s = .next (
    if s.inst.bitMax < 2 * s.bitsLen.toNat then s.raise .eCapacity 0
    else (s.putBits (doubleBits s.bits)).complete 0) :=
  congrArg Host.Outcome.next (State.whenReady_ready _ h)

theorem exec_fmod : exec .fmod s = .next (
    if chunkCount s.bitsLen.toNat s.nChan ≤ s.argNat then s.raise .eArg s.arg
    else if s.inst.waveMax < s.fLen then s.raise .eCapacity 0
    else (s.putWave (s.frame s.argNat)).complete 0) :=
  congrArg Host.Outcome.next (State.whenReady_ready _ h)

theorem exec_cmod : exec .cmod s = .next (
    if s.inst.waveMax < s.carouselLen then s.raise .eCapacity 0
    else (s.putWave s.carousel).complete (BitVec.ofNat 32 s.chunks)) :=
  congrArg Host.Outcome.next (State.whenReady_ready _ h)

theorem exec_fdem : exec .fdem s = .next (
    if s.wLen < s.argNat + s.fLen then s.raise .eArg s.arg
    else if s.inst.bitMax < s.nChan then s.raise .eCapacity 0
    else (s.putBits (s.fdemWindow (s.window s.argNat))).complete 0) :=
  congrArg Host.Outcome.next (State.whenReady_ready _ h)

theorem exec_cdem : exec .cdem s = .next (
    ((s.putBits s.cdemResult.2).setWalkFlags s.wLen s.pLen s.fLen s.cdemResult.2.length).complete
      (BitVec.ofNat 32 (min s.cdemResult.1 (2 ^ 32 - 1)))) :=
  congrArg Host.Outcome.next (State.whenReady_ready _ h)

theorem exec_repc : exec .repc s = .next ((s.putBits (collapsePairs s.bits)).complete 0) :=
  congrArg Host.Outcome.next (State.whenReady_ready _ h)

theorem exec_b2t : exec .b2t s = .next (
    if s.inst.txtMax < (bitsText s.bits).length then s.raise .eCapacity 0
    else (s.putText (bitsText s.bits)).complete 0) :=
  congrArg Host.Outcome.next (State.whenReady_ready _ h)

end

theorem exec_cfg (h : s.mode = .unconfigured) : exec .cfg s = .next (
    if s.configMask ≠ 0 then State.raise { s with mode := .failed } .eConfig (BitVec.ofNat 32 s.configMask)
    else State.complete
      { s.putPlan (planDenOf s.nChan) (planOf s.freqMin.toNat s.freqMax.toNat s.nChan) with mode := .ready } 0) :=
  congrArg Host.Outcome.next (State.whenUnconfigured_unconfigured _ h)

theorem raised_of_ite {i : Instr} {e : ErrCode} {info : Word} {c : Prop} [Decidable c] {t u : State} (he : e ≠ .eNone)
    (hc : e ≠ .eConfig) (h : (if c then s.raise e info else u) = t) (hu : ¬ c → u = t → CommandResult s i t) :
    CommandResult s i t := by
  split at h
  · exact h ▸ .raised he hc
  · next hn => exact hu hn h

/-- What any command can answer. -/
theorem exec_result {i : Instr} {t : State} (h : exec i s = .next t) : CommandResult s i t := by
  by_cases hi : i = .cfg
  · subst hi
    by_cases hm : s.mode = .unconfigured
    · rw [exec_cfg hm, Host.Outcome.next.injEq] at h
      split at h
      · next hk => exact h ▸ .rejected hm hk
      · next hk => exact h ▸ .accepted hm (not_not.mp hk)
    · rw [exec_cfg_not_unconfigured hm, Host.Outcome.next.injEq] at h
      exact h ▸ .raised (by decide) (by decide)
  · by_cases hm : s.mode = .ready
    · cases i with
      | cfg => exact absurd rfl hi
      | tnorm =>
        rw [exec_tnorm hm, Host.Outcome.next.injEq] at h
        exact h ▸ .text hm (Or.inl ⟨rfl, rfl⟩)
      | t2b =>
        rw [exec_t2b hm, Host.Outcome.next.injEq] at h
        split at h
        · exact h ▸ .raised (by decide) (by decide)
        · exact raised_of_ite (by decide) (by decide) h fun h1 h2 =>
            h2 ▸ .bits hm (Or.inl ⟨rfl, rfl, not_lt.mp h1⟩)
      | repx =>
        rw [exec_repx hm, Host.Outcome.next.injEq] at h
        exact raised_of_ite (by decide) (by decide) h fun h1 h2 =>
          h2 ▸ .bits hm (Or.inr (Or.inl ⟨rfl, rfl, not_lt.mp h1⟩))
      | fmod =>
        rw [exec_fmod hm, Host.Outcome.next.injEq] at h
        exact raised_of_ite (by decide) (by decide) h fun _ h2 =>
          raised_of_ite (by decide) (by decide) h2 fun h3 h4 => h4 ▸ .wave hm (Or.inl ⟨rfl, rfl, not_lt.mp h3⟩)
      | cmod =>
        rw [exec_cmod hm, Host.Outcome.next.injEq] at h
        exact raised_of_ite (by decide) (by decide) h fun h1 h2 => h2 ▸ .wave hm (Or.inr ⟨rfl, rfl, not_lt.mp h1⟩)
      | fdem =>
        rw [exec_fdem hm, Host.Outcome.next.injEq] at h
        exact raised_of_ite (by decide) (by decide) h fun _ h2 =>
          raised_of_ite (by decide) (by decide) h2 fun h3 h4 =>
            h4 ▸ .bits hm (Or.inr (Or.inr (Or.inl ⟨rfl, rfl, not_lt.mp h3⟩)))
      | cdem =>
        rw [exec_cdem hm, Host.Outcome.next.injEq] at h
        exact h ▸ .walked hm
      | repc =>
        rw [exec_repc hm, Host.Outcome.next.injEq] at h
        exact h ▸ .bits hm (Or.inr (Or.inr (Or.inr ⟨rfl, rfl⟩)))
      | b2t =>
        rw [exec_b2t hm, Host.Outcome.next.injEq] at h
        exact raised_of_ite (by decide) (by decide) h fun h1 h2 =>
          h2 ▸ .text hm (Or.inr ⟨rfl, rfl, not_lt.mp h1⟩)
    · rw [exec_not_ready hi hm, Host.Outcome.next.injEq] at h
      exact h ▸ .raised (by decide) (by decide)

end Sys2Proof.Machine
end

