-- ==== Sys2Proof/Laws/Streams.lean ====
section
/-! SUPPORT. The functions on texts, bit streams and walks, member by member (41_bit_encoder.md R110 to R112,
42_frame_modulator.md R120, 46_bit_decoder.md R160, R161). -/

namespace Sys2Proof.Laws

open Sys2Proof.Machine

/-! ## Text -/

theorem isWs_iff (c : Word) : isWs c = true ↔ IsWhitespace c := by simp [isWs, Config.ws, IsWhitespace]

theorem collapse_length_le (b : Bool) (t : List Word) : (collapse b t).length ≤ t.length := by
  induction t generalizing b with
  | nil => simp [collapse]
  | cons c t ih =>
    unfold collapse
    split
    · split
      · exact (ih true).trans (Nat.le_succ _)
      · simpa using ih true
    · simpa using ih false

/-- A run of whitespace at the head leaves what follows it. -/
theorem collapse_run (r t : List Word) (h : ∀ c ∈ r, IsWhitespace c) : collapse true (r ++ t) = collapse true t := by
  induction r with
  | nil => rfl
  | cons c r ih =>
    have hc : isWs c = true := (isWs_iff c).mpr (h c (by simp))
    rw [List.cons_append, collapse, if_pos hc, if_pos rfl]
    exact ih fun d hd => h d (by simp [hd])

theorem collapse_true_eq (t : List Word) (h : ∀ c ∈ t.head?, ¬ IsWhitespace c) : collapse true t = collapse false t := by
  cases t with
  | nil => rfl
  | cons c t =>
    have hc : ¬ isWs c = true := fun h1 => h c (by simp) ((isWs_iff c).mp h1)
    rw [collapse, collapse, if_neg hc, if_neg hc]

/-- The rule of TNORM as a relation gives what `collapse` computes. -/
theorem normalised_collapse {t out : List Word} (h : Normalised t out) : collapse false t = out := by
  induction h with
  | empty => rfl
  | copy hc _ ih =>
    have h1 := fun h1 => hc ((isWs_iff _).mp h1)
    rw [collapse, if_neg h1, ih]
  | @run r t out hr hws ht _ ih =>
    cases r with
    | nil => exact absurd rfl hr
    | cons c r =>
      have h1 : isWs c = true := (isWs_iff c).mpr (hws c (by simp))
      rw [List.cons_append, collapse, if_pos h1, if_neg (by simp), collapse_run r t fun d hd => hws d (by simp [hd]),
        collapse_true_eq t ht, ih]

/-! ## Bits -/

theorem textBits_length (t : List Word) : (textBits t).length = 8 * t.length := by
  induction t with
  | nil => rfl
  | cons c t ih =>
    rw [textBits, List.flatMap_cons, List.length_append]
    have : (charBits c).length = 8 := rfl
    rw [this]
    have h2 : (List.flatMap charBits t).length = 8 * t.length := ih
    rw [h2, List.length_cons]
    omega

theorem textBits_getD (t : List Word) (c b : Nat) (hb : b < 8) :
    (textBits t).getD (8 * c + b) 0 = (t.getD c 0).extractLsb' (7 - b) 1 := by
  induction t generalizing c with
  | nil => simp [textBits]
  | cons x t ih =>
    have e : textBits (x :: t) = charBits x ++ textBits t := rfl
    have hl : (charBits x).length = 8 := rfl
    rw [e]
    cases c with
    | zero =>
      rw [List.getD_append _ _ _ _ (by omega)]
      simp only [List.getD_cons_zero, Nat.mul_zero, Nat.zero_add]
      interval_cases b <;> rfl
    | succ c =>
      rw [List.getD_append_right _ _ _ _ (by omega), hl, show 8 * (c + 1) + b - 8 = 8 * c + b by omega, ih]
      simp

theorem doubleBits_length (b : List Bit) : (doubleBits b).length = 2 * b.length := by
  induction b with
  | nil => rfl
  | cons x b ih =>
    have e : doubleBits (x :: b) = x :: x :: doubleBits b := rfl
    rw [e, List.length_cons, List.length_cons, ih, List.length_cons]
    omega

theorem doubleBits_getD (b : List Bit) (i : Nat) :
    (doubleBits b).getD (2 * i) 0 = b.getD i 0 ∧ (doubleBits b).getD (2 * i + 1) 0 = b.getD i 0 := by
  induction b generalizing i with
  | nil => simp [doubleBits]
  | cons x b ih =>
    have e : doubleBits (x :: b) = x :: x :: doubleBits b := rfl
    rw [e]
    cases i with
    | zero => simp
    | succ i =>
      rw [show 2 * (i + 1) = 2 * i + 1 + 1 by ring]
      simpa using ih i

theorem collapsePairs_length : ∀ b : List Bit, (collapsePairs b).length = b.length / 2
  | [] => rfl
  | [_] => by simp [collapsePairs]
  | x :: y :: t => by
    rw [collapsePairs, List.length_cons, collapsePairs_length t, List.length_cons, List.length_cons]
    omega

theorem collapsePairs_getD : ∀ (b : List Bit) (i : Nat), i < b.length / 2 →
    (collapsePairs b).getD i 0 = b.getD (2 * i) 0 ||| b.getD (2 * i + 1) 0
  | [], i, h => by simp at h
  | [_], i, h => by simp at h
  | x :: y :: t, 0, _ => by simp [collapsePairs]
  | x :: y :: t, i + 1, h => by
    have h1 : i < t.length / 2 := by
      simp only [List.length_cons] at h
      omega
    rw [collapsePairs, show 2 * (i + 1) = 2 * i + 1 + 1 by ring]
    simpa using collapsePairs_getD t i h1

theorem bit_or_eq_one (x y : Bit) : x ||| y = 1 ↔ x = 1 ∨ y = 1 := by
  revert x y
  decide

theorem collapsePairs_doubleBits (b : List Bit) : collapsePairs (doubleBits b) = b := by
  induction b with
  | nil => rfl
  | cons x b ih =>
    have e : doubleBits (x :: b) = x :: x :: doubleBits b := rfl
    rw [e, collapsePairs, ih]
    simp

/-! ## Groups -/

theorem groupValue_eight (a b c d e f g h : Bit) :
    groupValue [a, b, c, d, e, f, g, h] = a.toNat * 128 + b.toNat * 64 + c.toNat * 32 + d.toNat * 16 + e.toNat * 8 +
      f.toNat * 4 + g.toNat * 2 + h.toNat := by
  simp only [groupValue, List.foldl_cons, List.foldl_nil]
  ring

/-- The groups of a stream, group by group. -/
theorem groupChars_eq (n : Nat) (b : List Bit) :
    groupChars n b = (((List.range n).map fun g => groupValue ((b.drop (8 * g)).take 8)).filter (· ≠ 0)).map
      (BitVec.ofNat 32) := by
  induction n generalizing b with
  | zero => rfl
  | succ n ih =>
    rw [List.range_succ_eq_map, List.map_cons, List.map_map]
    have e : ((fun g => groupValue ((b.drop (8 * g)).take 8)) ∘ Nat.succ) =
        fun g => groupValue (((b.drop 8).drop (8 * g)).take 8) := by
      funext g
      simp only [Function.comp_apply, List.drop_drop]
      rw [show 8 * Nat.succ g = 8 + 8 * g by rw [Nat.succ_eq_add_one]; ring]
    rw [e, groupChars]
    by_cases h : groupValue (b.take 8) = 0
    · rw [if_pos h, ih, List.filter_cons_of_neg (by simpa using h)]
    · rw [if_neg h, ih, List.filter_cons_of_pos (by simpa using h)]
      rfl

/-- The value of a whole group is the sum of the rules. -/
theorem groupValue_sum (b : List Bit) (g : Nat) (h : 8 * g + 8 ≤ b.length) :
    groupValue ((b.drop (8 * g)).take 8) = ∑ k ∈ Finset.range 8, (b.getD (8 * g + k) 0).toNat * 2 ^ (7 - k) := by
  have e : (b.drop (8 * g)).take 8 = (List.range 8).map fun k => b.getD (8 * g + k) 0 := by
    refine List.ext_getElem (by simp; omega) fun i h1 h2 => ?_
    have hi : i < 8 := by simpa using h2
    have h3 : 8 * g + i < b.length := by omega
    simp [h3]
  have e8 : List.range 8 = [0, 1, 2, 3, 4, 5, 6, 7] := rfl
  rw [e, e8]
  simp only [List.map_cons, List.map_nil, groupValue_eight, Finset.sum_range_succ, Finset.sum_range_zero]
  norm_num

/-! ## Chunks -/

/-- A chunk index is below the chunk count exactly when its first bit is a bit of the stream. -/
theorem lt_chunkCount (len n j : Nat) (hn : 0 < n) : j < chunkCount len n ↔ j * n < len := by
  unfold chunkCount
  rw [Nat.lt_iff_add_one_le, Nat.le_div_iff_mul_le hn, Nat.add_mul, Nat.one_mul]
  omega

theorem ceil_div (len n : Nat) : ⌈(len : ℚ) / n⌉₊ = chunkCount len n := by
  rcases Nat.eq_zero_or_pos n with rfl | hn
  · simp [chunkCount]
  · refine eq_of_forall_ge_iff fun m => ?_
    have h := (lt_chunkCount len n m hn).not
    rw [not_lt, not_lt] at h
    rw [h, Nat.ceil_le, div_le_iff₀ (by exact_mod_cast hn)]
    exact_mod_cast Iff.rfl

/-! ## Bins -/

theorem argminFrom_mem (g : Nat → Nat) (best : Nat) (l : List Nat) : argminFrom g best l = best ∨ argminFrom g best l ∈ l := by
  induction l generalizing best with
  | nil => exact Or.inl rfl
  | cons k t ih =>
    rw [argminFrom]
    split
    · rcases ih k with h | h
      · exact Or.inr (by simp [h])
      · exact Or.inr (by simp [h])
    · rcases ih best with h | h
      · exact Or.inl h
      · exact Or.inr (by simp [h])

theorem argminFrom_le (g : Nat → Nat) (best : Nat) (l : List Nat) :
    g (argminFrom g best l) ≤ g best ∧ ∀ k ∈ l, g (argminFrom g best l) ≤ g k := by
  induction l generalizing best with
  | nil => exact ⟨le_rfl, by simp⟩
  | cons k t ih =>
    rw [argminFrom]
    split
    · next h =>
      refine ⟨(ih k).1.trans h.le, fun j hj => ?_⟩
      rcases List.mem_cons.mp hj with rfl | hj
      · exact (ih j).1
      · exact (ih k).2 j hj
    · next h =>
      refine ⟨(ih best).1, fun j hj => ?_⟩
      rcases List.mem_cons.mp hj with rfl | hj
      · exact (ih best).1.trans (not_lt.mp h)
      · exact (ih best).2 j hj

/-- Of equally near candidates the lowest is taken. -/
theorem argminFrom_first (g : Nat → Nat) (best : Nat) (l : List Nat) (hl : l.Pairwise (· < ·)) (hb : ∀ k ∈ l, best ≤ k) :
    ∀ k ∈ best :: l, k < argminFrom g best l → g (argminFrom g best l) < g k := by
  induction l generalizing best with
  | nil =>
    intro k hk h
    rw [argminFrom] at h ⊢
    simp only [List.mem_singleton] at hk
    omega
  | cons x t ih =>
    rw [List.pairwise_cons] at hl
    intro k hk h
    rw [argminFrom] at h ⊢
    split at h
    · next hx =>
      rw [if_pos hx]
      rcases List.mem_cons.mp hk with rfl | hk
      · exact (argminFrom_le g x t).1.trans_lt hx
      · rcases List.mem_cons.mp hk with rfl | hk
        · exact ih k hl.2 (fun j hj => (hl.1 j hj).le) k (by simp) h
        · exact ih x hl.2 (fun j hj => (hl.1 j hj).le) k (by simp [hk]) h
    · next hx =>
      rw [if_neg hx]
      have hb' : ∀ j ∈ t, best ≤ j := fun j hj => hb j (by simp [hj])
      rcases List.mem_cons.mp hk with rfl | hk
      · exact ih k hl.2 hb' k (by simp) h
      · rcases List.mem_cons.mp hk with rfl | hk
        · have h1 : best ≤ k := hb k (by simp)
          rcases Nat.lt_or_ge best (argminFrom g best t) with h2 | h2
          · exact (ih best hl.2 hb' best (by simp) h2).trans_le (not_lt.mp hx)
          · omega
        · exact ih best hl.2 hb' k (by simp [hk]) h

theorem binDistance_eq (fs f den num k : Nat) (hf : 0 < f) (hd : 0 < den) :
    (binDistance fs f den num k : ℚ) = |(k * fs : ℚ) / f - (num : ℚ) / den| * (f * den) := by
  have hf' : (f : ℚ) ≠ 0 := by exact_mod_cast hf.ne'
  have hd' : (den : ℚ) ≠ 0 := by exact_mod_cast hd.ne'
  have hp : (0 : ℚ) ≤ f * den := by positivity
  unfold binDistance
  have e : |(k * fs : ℚ) / f - (num : ℚ) / den| * (f * den) = |((k * fs : ℚ) / f - (num : ℚ) / den) * (f * den)| := by
    rw [abs_mul _ ((f : ℚ) * den), abs_of_nonneg hp]
  rw [Nat.cast_natAbs, Int.cast_abs, e]
  congr 1
  push_cast
  field_simp

/-- The bin FDEM looks a channel up in is the nearest of the rules (44_frame_demodulator.md R144). -/
theorem nearestBin_nearest (fs f den num : Nat) (hf : 0 < f) (hd : 0 < den) :
    NearestBin fs f ((num : ℚ) / den) (nearestBin fs f den num) := by
  have hp : (0 : ℚ) < f * den := by
    have h1 : (0 : ℚ) < f := by exact_mod_cast hf
    have h2 : (0 : ℚ) < den := by exact_mod_cast hd
    positivity
  have hle := argminFrom_le (binDistance fs f den num) 0 (List.range (f / 2 + 1))
  have hfirst := argminFrom_first (binDistance fs f den num) 0 (List.range (f / 2 + 1)) List.pairwise_lt_range
    fun _ _ => Nat.zero_le _
  have hk : nearestBin fs f den num ≤ f / 2 := by
    rcases argminFrom_mem (binDistance fs f den num) 0 (List.range (f / 2 + 1)) with h | h
    · unfold nearestBin
      omega
    · have := List.mem_range.mp h
      unfold nearestBin
      omega
  refine ⟨hk, fun j hj => ?_, fun j hj => ?_⟩
  · have h := hle.2 j (List.mem_range.mpr (by omega))
    have h' : (binDistance fs f den num (nearestBin fs f den num) : ℚ) ≤ binDistance fs f den num j := by
      exact_mod_cast h
    rw [binDistance_eq _ _ _ _ _ hf hd, binDistance_eq _ _ _ _ _ hf hd] at h'
    exact le_of_mul_le_mul_right h' hp
  · have h := hfirst j (by
      refine List.mem_cons_of_mem _ (List.mem_range.mpr ?_)
      omega) hj
    have h' : (binDistance fs f den num (nearestBin fs f den num) : ℚ) < binDistance fs f den num j := by
      exact_mod_cast h
    rw [binDistance_eq _ _ _ _ _ hf hd, binDistance_eq _ _ _ _ _ hf hd] at h'
    exact lt_of_mul_lt_mul_right h' hp.le

/-! ## Activity -/

theorem lt_peakAbs (win : List Sample) (x : Nat) : x < peakAbs win ↔ ∃ q ∈ win, x < q.toInt.natAbs := by
  induction win with
  | nil => simp [peakAbs]
  | cons q t ih =>
    have e : peakAbs (q :: t) = max q.toInt.natAbs (peakAbs t) := rfl
    rw [e, lt_max_iff, ih]
    simp

/-- The activity test is that of the rules (45_carousel_demodulator.md R150). -/
theorem active_iff (s : State) (win : List Sample) (h : 0 < s.inst.actThrDen) :
    active s.inst win = true ↔ s.IsActive win := by
  have hd : (0 : ℚ) < s.inst.actThrDen := by exact_mod_cast h
  have key : ∀ q : Sample, ((s.inst.actThrNum : ℚ) / s.inst.actThrDen < (|q.toInt| : ℚ) / 32768) ↔
      s.inst.actThrNum * 32768 < q.toInt.natAbs * s.inst.actThrDen := by
    intro q
    rw [div_lt_div_iff₀ hd (by norm_num)]
    have e : (|(q.toInt : ℚ)|) = ((q.toInt.natAbs : Nat) : ℚ) := by
      rw [Nat.cast_natAbs, Int.cast_abs]
    rw [e]
    exact_mod_cast Iff.rfl
  unfold active State.IsActive Config.dqDiv
  simp only [decide_eq_true_eq, key]
  constructor
  · intro h1
    have h2 : s.inst.actThrNum * 32768 / s.inst.actThrDen < peakAbs win := Nat.div_lt_of_lt_mul (by linarith)
    obtain ⟨q, hq, h3⟩ := (lt_peakAbs _ _).mp h2
    exact ⟨q, hq, by rw [Nat.div_lt_iff_lt_mul h] at h3; exact h3⟩
  · rintro ⟨q, hq, h1⟩
    refine h1.trans_le (Nat.mul_le_mul_right _ ?_)
    by_contra h2
    exact lt_irrefl _ ((lt_peakAbs _ _).mpr ⟨q, hq, not_le.mp h2⟩)

end Sys2Proof.Laws
end

