-- ==== Sys2Proof/Laws/Lengths.lean ====
section
/-! SUPPORT. The lengths of what the commands write (20_memory.md R55, 43_carousel_modulator.md R134,
45_carousel_demodulator.md R152). -/

namespace Sys2Proof.Laws

open Sys2Proof.Machine

theorem refine_some {α : Type} {run : Bool → Nat → Option α} {n p : Nat} {r : α} (h : refine run n p = some r) :
    ∃ last q, run last q = some r := by
  induction n generalizing p with
  | zero => exact ⟨true, p, h⟩
  | succ n ih =>
    unfold refine at h
    split at h
    · next r' h' => exact ⟨false, p, by rw [h', h]⟩
    · exact ih h

theorem allSettled_length {α : Type} {l : List (Option α)} {r : List α} (h : allSettled l = some r) :
    r.length = l.length := by
  induction l generalizing r with
  | nil =>
    rw [allSettled, Option.some.injEq] at h
    rw [← h]
    rfl
  | cons x t ih =>
    cases x with
    | none => simp [allSettled] at h
    | some a =>
      rw [allSettled, Option.map_eq_some_iff] at h
      obtain ⟨r', hr', rfl⟩ := h
      rw [List.length_cons, List.length_cons, ih hr']

/-- A search gives a list of the length its runs give, or nothing. -/
theorem refine_length_le {α : Type} (run : Bool → Nat → Option (List α)) (n p m : Nat)
    (h : ∀ last q r, run last q = some r → r.length = m) : ((refine run n p).getD []).length ≤ m := by
  cases hr : refine run n p with
  | none => simp
  | some r =>
    obtain ⟨last, q, hq⟩ := refine_some hr
    rw [Option.getD_some, h last q r hq]

theorem frameInts_length_le (d : Nat) (tones : List Nat) (f : Nat) : (frameInts d tones f).length ≤ f := by
  refine refine_length_le _ _ _ _ fun last q r h => ?_
  unfold frameAt at h
  simp only at h
  split at h
  · rw [Option.some.injEq] at h
    rw [← h, List.length_replicate]
  · split at h
    · simp at h
    · simpa using allSettled_length h

theorem frame_length_le (s : State) (j : Nat) : (s.frame j).length ≤ s.fLen := by
  unfold State.frame frameSamples
  rw [List.length_map]
  exact frameInts_length_le _ _ _

theorem preamble_length_le (s : State) : s.preamble.length ≤ s.pLen := by
  unfold State.preamble
  rw [List.length_map]
  refine refine_length_le _ _ _ _ fun last q r h => ?_
  unfold preambleAt at h
  simp only at h
  split at h
  · cases h
  · simpa using allSettled_length h

theorem flatMap_length_le {α β : Type} (l : List α) (f : α → List β) (m : Nat) (h : ∀ a ∈ l, (f a).length ≤ m) :
    (l.flatMap f).length ≤ l.length * m := by
  induction l with
  | nil => simp
  | cons a t ih =>
    rw [List.flatMap_cons, List.length_append, List.length_cons, Nat.add_mul, Nat.one_mul, Nat.add_comm]
    exact Nat.add_le_add (ih fun b hb => h b (by simp [hb])) (h a (by simp))

theorem cycle_length_le (s : State) : s.cycle.length ≤ s.pLen + s.chunks * (s.fLen + s.gLen) + s.cLen := by
  unfold State.cycle zeroSamples
  rw [List.length_append, List.length_append, List.length_replicate]
  have h1 := preamble_length_le s
  have h2 := flatMap_length_le (List.range s.chunks) (fun j => s.frame j ++ List.replicate s.gLen (0 : Sample))
    (s.fLen + s.gLen) fun j _ => by
      rw [List.length_append, List.length_replicate]
      exact Nat.add_le_add_right (frame_length_le s j) _
  rw [List.length_range] at h2
  omega

theorem carousel_length_le (s : State) : s.carousel.length ≤ s.carouselLen := by
  unfold State.carousel State.carouselLen
  rw [List.length_flatten, List.map_replicate, List.sum_replicate, smul_eq_mul]
  exact Nat.mul_le_mul_left _ (cycle_length_le s)

theorem fdemWindow_length_le (s : State) (win : List Sample) : (s.fdemWindow win).length ≤ s.nChan := by
  unfold State.fdemWindow fdemBits
  refine refine_length_le _ _ _ _ fun last q r h => ?_
  unfold fdemAt at h
  have := allSettled_length h
  simpa [State.channelBins, State.plan, Buf.take, elements_length] using this

theorem bitsText_length_le (b : List Bit) : (bitsText b).length ≤ b.length / 8 := by
  unfold bitsText
  rw [groupChars_eq, List.length_map]
  refine (List.length_filter_le _ _).trans ?_
  simp

/-- The walk stops at the first test with more than BIT_CAP bits, so it gathers at most BIT_CAP + N. -/
theorem walk_length_le (s : State) (n cur : Nat) (out : List Bit) (h : out.length ≤ s.inst.bitCap + s.nChan) :
    (s.walk n cur out).2.length ≤ s.inst.bitCap + s.nChan := by
  induction n generalizing cur out with
  | zero => exact h
  | succ n ih =>
    rw [State.walk]
    split
    · next hc =>
      split
      · refine ih _ _ ?_
        rw [List.length_append]
        exact Nat.add_le_add hc.2 (fdemWindow_length_le s _)
      · exact ih _ _ h
    · exact h

end Sys2Proof.Laws
end

