-- ==== Sys2Proof/Laws/PerInstr.lean ====
section
/-! SUPPORT. What holds of every command as syntax, one lemma per constructor. -/

namespace Sys2Proof.Laws

/-- The command is well formed, its word has the fields of 30_encoding.md R70, and its code stands for it in the opcode
map (30_encoding.md R71). -/
def EncodedFields.Statement (i : Instr) : Prop :=
  i.wf = true ∧ mbzField (encode i) = 0 ∧ opcField (encode i) = i.opcode ∧ decodeOpc i.opcode.toNat = some i

theorem EncodedFields.cfg : EncodedFields.Statement .cfg := ⟨rfl, by decide, by decide, rfl⟩
theorem EncodedFields.tnorm : EncodedFields.Statement .tnorm := ⟨rfl, by decide, by decide, rfl⟩
theorem EncodedFields.t2b : EncodedFields.Statement .t2b := ⟨rfl, by decide, by decide, rfl⟩
theorem EncodedFields.repx : EncodedFields.Statement .repx := ⟨rfl, by decide, by decide, rfl⟩
theorem EncodedFields.fmod : EncodedFields.Statement .fmod := ⟨rfl, by decide, by decide, rfl⟩
theorem EncodedFields.cmod : EncodedFields.Statement .cmod := ⟨rfl, by decide, by decide, rfl⟩
theorem EncodedFields.fdem : EncodedFields.Statement .fdem := ⟨rfl, by decide, by decide, rfl⟩
theorem EncodedFields.cdem : EncodedFields.Statement .cdem := ⟨rfl, by decide, by decide, rfl⟩
theorem EncodedFields.repc : EncodedFields.Statement .repc := ⟨rfl, by decide, by decide, rfl⟩
theorem EncodedFields.b2t : EncodedFields.Statement .b2t := ⟨rfl, by decide, by decide, rfl⟩

end Sys2Proof.Laws
end

