-- ==== Sys2Proof/Laws/Spectrum.lean ====
section
/-! SUPPORT. FDEM's decision is that of the rules over the real numbers (44_frame_demodulator.md R140 to R145). -/

namespace Sys2Proof.Laws

open Sys2Proof.Machine

/-! ## The transform over the real numbers -/

theorem cos_turn_mod (a d : ℕ) (hd : 0 < d) : Real.cos (turn a d) = Real.cos (turn (a % d) d) := by
  have hd' : (d : ℝ) ≠ 0 := by exact_mod_cast hd.ne'
  have hsum : ((d : ℝ) * ((a / d : ℕ) : ℝ) + ((a % d : ℕ) : ℝ)) = a := by exact_mod_cast Nat.div_add_mod a d
  have e : turn a d = turn (a % d) d + ((a / d : ℕ) : ℝ) * (2 * Real.pi) := by
    rw [turn, turn, ← hsum]
    field_simp
    ring
  rw [e, Real.cos_add_nat_mul_two_pi]

/-- `65536 · u[n]`: twice the window times the integer sample. -/
noncomputable def tapReal (q : List ℤ) (n : ℕ) : ℝ := (q.getD n 0 : ℤ) * (2 * Signal.hann q.length n)

/-- The real part of `65536 · X[k]`. -/
noncomputable def reSum (q : List ℤ) (k : ℕ) : ℝ :=
  ((List.range q.length).map fun n => tapReal q n * Real.cos (turn (k * n % q.length) q.length)).sum

/-- The imaginary part of `65536 · X[k]`, negated. -/
noncomputable def imSum (q : List ℤ) (k : ℕ) : ℝ :=
  ((List.range q.length).map fun n => tapReal q n * Real.sin (turn (k * n % q.length) q.length)).sum

/-- `|65536 · X[k]|²`. -/
noncomputable def energy (q : List ℤ) (k : ℕ) : ℝ := reSum q k ^ 2 + imSum q k ^ 2

theorem energy_nonneg (q : List ℤ) (k : ℕ) : 0 ≤ energy q k := by unfold energy; positivity

theorem finset_list_sum {M : Type} [AddCommMonoid M] (f : ℕ → M) (n : ℕ) :
    ∑ i ∈ Finset.range n, f i = ((List.range n).map f).sum := by
  induction n with
  | zero => simp
  | succ n ih => simp [List.range_succ, Finset.sum_range_succ, ih]

theorem exp_turn (k n f : ℕ) (hf : 0 < f) :
    Complex.exp (-2 * Real.pi * Complex.I * k * n / f) =
      ((Real.cos (turn (k * n % f) f) : ℝ) : ℂ) - ((Real.sin (turn (k * n % f) f) : ℝ) : ℂ) * Complex.I := by
  rw [← cos_turn_mod _ _ hf, ← turn_mod _ _ hf]
  have e : -2 * (Real.pi : ℂ) * Complex.I * k * n / f = ((-turn (k * n) f : ℝ) : ℂ) * Complex.I := by
    simp only [turn]
    push_cast
    ring
  rw [e, Complex.exp_mul_I, ← Complex.ofReal_cos, ← Complex.ofReal_sin, Real.cos_neg, Real.sin_neg]
  push_cast
  ring

theorem transform_eq (q : List ℤ) (k : ℕ) :
    65536 * Signal.transform q k = (reSum q k : ℂ) - (imSum q k : ℂ) * Complex.I := by
  unfold Signal.transform reSum imSum
  rw [← finset_list_sum, ← finset_list_sum, Complex.ofReal_sum, Complex.ofReal_sum, Finset.mul_sum, Finset.sum_mul,
    ← Finset.sum_sub_distrib]
  refine Finset.sum_congr rfl fun n hn => ?_
  rw [exp_turn k n _ (by have := Finset.mem_range.mp hn; omega)]
  simp only [Signal.windowed, tapReal]
  push_cast
  ring

theorem magnitude_eq (q : List ℤ) (k : ℕ) : Signal.magnitude q k = √(energy q k) / 65536 := by
  have h : ‖(65536 : ℂ) * Signal.transform q k‖ = √(energy q k) := by
    rw [transform_eq, Complex.norm_def, energy]
    congr 1
    simp [Complex.normSq_apply]
    ring
  rw [norm_mul] at h
  rw [Signal.magnitude, ← h]
  norm_num

theorem supOf_map_mono (g : ℝ → ℝ) (hg : Monotone g) (h0 : g 0 = 0) (l : List ℝ) : supOf (l.map g) = g (supOf l) := by
  induction l with
  | nil => exact h0.symm
  | cons a t ih =>
    have e1 : supOf ((a :: t).map g) = max (g a) (supOf (t.map g)) := rfl
    have e2 : supOf (a :: t) = max a (supOf t) := rfl
    rw [e1, e2, ih, hg.map_max]

/-- The largest energy of the bins. -/
noncomputable def topEnergy (q : List ℤ) : ℝ := supOf ((List.range (q.length / 2 + 1)).map (energy q))

/-- The comparison of R145 on the squares. -/
theorem above_iff (q : List ℤ) (k : ℕ) :
    Signal.threshold q < Signal.magnitude q k ↔ 9 * topEnergy q < 100 * energy q k := by
  have h0 : 0 ≤ topEnergy q := supOf_nonneg _
  have h1 := energy_nonneg q k
  have e : Signal.magnitudeMax q = √(topEnergy q) / 65536 := by
    have h := supOf_map_mono (fun x => √x / 65536) (fun x y h => by
      simp only
      gcongr) (by simp) ((List.range (q.length / 2 + 1)).map (energy q))
    rw [List.map_map] at h
    have e2 : (fun x => √x / 65536) ∘ energy q = Signal.magnitude q := funext fun k => (magnitude_eq q k).symm
    rw [e2] at h
    exact h
  have e9 : √(9 * topEnergy q) = 3 * √(topEnergy q) := by
    rw [Real.sqrt_mul (by norm_num), show (9 : ℝ) = 3 ^ 2 by norm_num, Real.sqrt_sq (by norm_num)]
  have e100 : √(100 * energy q k) = 10 * √(energy q k) := by
    rw [Real.sqrt_mul (by norm_num), show (100 : ℝ) = 10 ^ 2 by norm_num, Real.sqrt_sq (by norm_num)]
  rw [← Real.sqrt_lt_sqrt_iff (x := 9 * topEnergy q) (by positivity), e9, e100, Signal.threshold, e, magnitude_eq]
  constructor <;> intro h <;> linarith

/-! ## Its enclosures -/

theorem hann_bounds {f n : ℕ} : |2 * Signal.hann f n| ≤ 2 := by
  unfold Signal.hann
  split
  · norm_num
  · have h1 := Real.neg_one_le_cos (2 * Real.pi * n / (f - 1))
    have h2 := Real.cos_le_one (2 * Real.pi * n / (f - 1))
    rw [abs_le]
    constructor <;> linarith

theorem hann_turn {f n : ℕ} (hf : 2 ≤ f) : 2 * Signal.hann f n = 1 + -Real.cos (turn n (f - 1)) := by
  rw [Signal.hann, if_neg (by omega), turn, Nat.cast_sub (by omega), Nat.cast_one]
  have e : 2 * Real.pi * ((n : ℝ) / ((f : ℝ) - 1)) = 2 * Real.pi * n / (f - 1) := by ring
  rw [e]
  ring

theorem hannTwice_encl (p : ℕ) (hp : 16 ≤ p) {f : ℕ} (hf : 0 < f) (n : ℕ) :
    Encl (hannTwice p (halfPi p) f n) (2 ^ p) (2 * Signal.hann f n) ∧
      width (hannTwice p (halfPi p) f n) ≤ 2 * sinErr p := by
  unfold hannTwice
  split
  · next h =>
    have h1 : f = 1 := by omega
    subst h1
    exact ⟨Encl.exact (by simp [Signal.hann, mul_comm]), by simp⟩
  · next h =>
    have hc := cosIv_spec p n (f - 1) hp (by omega)
    rw [hann_turn (by omega)]
    refine ⟨Encl.add (Encl.exact (by simp)) hc.1.neg, ?_⟩
    simpa using hc.2

theorem zipIdx_map_range {α β : Type} (l : List α) (d : α) (g : α × ℕ → β) :
    l.zipIdx.map g = (List.range l.length).map fun n => g (l.getD n d, n) := by
  refine List.ext_getElem (by simp) fun n h1 h2 => ?_
  have hn : n < l.length := by simpa using h1
  simp [hn]

/-- The enclosure of one tap. -/
def tapIv (p : ℕ) (q : List ℤ) (n : ℕ) : Iv := (hannTwice p (halfPi p) q.length n).scale (q.getD n 0)

theorem windowed_eq (p : ℕ) (q : List ℤ) : windowed p (halfPi p) q = (List.range q.length).map (tapIv p q) :=
  zipIdx_map_range q 0 _

theorem binSum_eq (p : ℕ) (q : List ℤ) (t : ℕ → Iv) (k : ℕ) :
    binSum (windowed p (halfPi p) q) ((List.range q.length).map t).toArray k =
      Iv.sum ((List.range q.length).map fun n => (tapIv p q n).mul (t (k * n % q.length))) := by
  unfold binSum
  rw [windowed_eq, zipIdx_map_range _ (.exact 0), List.length_map, List.length_range]
  congr 1
  refine List.map_congr_left fun n hn => ?_
  have hn' := List.mem_range.mp hn
  have hm : k * n % q.length < q.length := Nat.mod_lt _ (by omega)
  simp [hn', hm]

theorem width_mul_le {b c : Iv} {s r x y v w : ℝ} (hs : 0 ≤ s) (hr : 0 ≤ r) (hb : Encl b s x) (hc : Encl c r y)
    (hv : width b ≤ v) (hw : width c ≤ w) :
    width (b.mul c) ≤ (s * |x| + v) * w + (r * |y| + w) * v := by
  have key : ∀ a₁ a₂ d₁ d₂ : ℝ, (b.lo : ℝ) ≤ a₁ → a₁ ≤ b.hi → (b.lo : ℝ) ≤ a₂ → a₂ ≤ b.hi → (c.lo : ℝ) ≤ d₁ → d₁ ≤ c.hi →
      (c.lo : ℝ) ≤ d₂ → d₂ ≤ c.hi → a₁ * d₁ - a₂ * d₂ ≤ (s * |x| + v) * w + (r * |y| + w) * v := by
    intro a₁ a₂ d₁ d₂ h1 h2 h3 h4 h5 h6 h7 h8
    simp only [width] at hv hw
    have ha : |a₁| ≤ s * |x| + v := by
      have h := abs_sub_abs_le_abs_sub a₁ (s * x)
      have h' : |a₁ - s * x| ≤ v := abs_le.mpr ⟨by linarith [hb.1, hb.2], by linarith [hb.1, hb.2]⟩
      rw [abs_mul s, abs_of_nonneg hs] at h
      linarith
    have hd : |d₂| ≤ r * |y| + w := by
      have h := abs_sub_abs_le_abs_sub d₂ (r * y)
      have h' : |d₂ - r * y| ≤ w := abs_le.mpr ⟨by linarith [hc.1, hc.2], by linarith [hc.1, hc.2]⟩
      rw [abs_mul r, abs_of_nonneg hr] at h
      linarith
    have hda : |d₁ - d₂| ≤ w := abs_le.mpr ⟨by linarith, by linarith⟩
    have haa : |a₁ - a₂| ≤ v := abs_le.mpr ⟨by linarith, by linarith⟩
    have e : a₁ * d₁ - a₂ * d₂ = a₁ * (d₁ - d₂) + d₂ * (a₁ - a₂) := by ring
    rw [e]
    refine add_le_add ?_ ?_
    · refine (le_abs_self _).trans ?_
      rw [abs_mul]
      exact mul_le_mul ha hda (abs_nonneg _) ((abs_nonneg _).trans ha)
    · refine (le_abs_self _).trans ?_
      rw [abs_mul]
      exact mul_le_mul hd haa (abs_nonneg _) ((abs_nonneg _).trans hd)
  have hbl : (b.lo : ℝ) ≤ b.hi := hb.1.trans hb.2
  have hcl : (c.lo : ℝ) ≤ c.hi := hc.1.trans hc.2
  simp only [width, Iv.mul, Int.cast_min, Int.cast_max, Int.cast_mul]
  have hmax : ∃ a d : ℝ, ((b.lo : ℝ) ≤ a ∧ a ≤ b.hi ∧ (c.lo : ℝ) ≤ d ∧ d ≤ c.hi) ∧
      max (max ((b.lo : ℝ) * c.lo) (b.lo * c.hi)) (max ((b.hi : ℝ) * c.lo) (b.hi * c.hi)) = a * d := by
    rcases max_choice (max ((b.lo : ℝ) * c.lo) (b.lo * c.hi)) (max ((b.hi : ℝ) * c.lo) (b.hi * c.hi)) with h | h <;> rw [h]
    · rcases max_choice ((b.lo : ℝ) * c.lo) (b.lo * c.hi) with h | h <;> rw [h] <;>
        exact ⟨_, _, ⟨by linarith, by linarith, by linarith, by linarith⟩, rfl⟩
    · rcases max_choice ((b.hi : ℝ) * c.lo) (b.hi * c.hi) with h | h <;> rw [h] <;>
        exact ⟨_, _, ⟨by linarith, by linarith, by linarith, by linarith⟩, rfl⟩
  have hmin : ∃ a d : ℝ, ((b.lo : ℝ) ≤ a ∧ a ≤ b.hi ∧ (c.lo : ℝ) ≤ d ∧ d ≤ c.hi) ∧
      min (min ((b.lo : ℝ) * c.lo) (b.lo * c.hi)) (min ((b.hi : ℝ) * c.lo) (b.hi * c.hi)) = a * d := by
    rcases min_choice (min ((b.lo : ℝ) * c.lo) (b.lo * c.hi)) (min ((b.hi : ℝ) * c.lo) (b.hi * c.hi)) with h | h <;> rw [h]
    · rcases min_choice ((b.lo : ℝ) * c.lo) (b.lo * c.hi) with h | h <;> rw [h] <;>
        exact ⟨_, _, ⟨by linarith, by linarith, by linarith, by linarith⟩, rfl⟩
    · rcases min_choice ((b.hi : ℝ) * c.lo) (b.hi * c.hi) with h | h <;> rw [h] <;>
        exact ⟨_, _, ⟨by linarith, by linarith, by linarith, by linarith⟩, rfl⟩
  obtain ⟨a₁, d₁, ⟨h1, h2, h3, h4⟩, e1⟩ := hmax
  obtain ⟨a₂, d₂, ⟨h5, h6, h7, h8⟩, e2⟩ := hmin
  rw [e1, e2]
  exact key a₁ a₂ d₁ d₂ h1 h2 h5 h6 h3 h4 h7 h8

theorem width_sq_le {b : Iv} {s x w : ℝ} (hs : 0 ≤ s) (hb : Encl b s x) (hw : width b ≤ w) :
    width b.sq ≤ w * (2 * (s * |x|) + w) := by
  have h := hb.abs hs
  have h0 : (0 : ℝ) ≤ b.abs.lo := by exact_mod_cast Iv.abs_lo_nonneg b
  have h1 := (width_abs_le b hb.le).trans hw
  have h2 := h.1
  have h3 := h.2
  have e : width b.sq = width b.abs * ((b.abs.hi : ℝ) + b.abs.lo) := by
    simp only [width, Iv.sq, Int.cast_mul]
    ring
  rw [e]
  simp only [width] at *
  have h4 : 0 ≤ s * |x| := by positivity
  refine mul_le_mul h1 (by linarith) (by linarith) (by linarith)

theorem abs_sum_le (l : List ℕ) (f g : ℕ → ℝ) (h : ∀ n, |f n| ≤ g n) : |(l.map f).sum| ≤ (l.map g).sum := by
  induction l with
  | nil => simp
  | cons a t ih =>
    simp only [List.map_cons, List.sum_cons]
    exact (abs_add_le _ _).trans (add_le_add (h a) ih)

section
variable (p : ℕ) (q : List ℤ)

/-- The sum of the samples' absolute values. -/
def absSum (q : List ℤ) : ℕ := (q.map Int.natAbs).sum

theorem absSum_eq : (absSum q : ℝ) = ((List.range q.length).map fun n => |((q.getD n 0 : ℤ) : ℝ)|).sum := by
  have h : q.map Int.natAbs = (List.range q.length).map fun n => (q.getD n 0).natAbs :=
    List.ext_getElem (by simp) fun n h1 h2 => by
      have hn : n < q.length := by simpa using h1
      simp [hn]
  rw [absSum, h, Nat.cast_list_sum, List.map_map]
  congr 1
  refine List.map_congr_left fun n _ => ?_
  simp [Nat.cast_natAbs]

theorem tapIv_encl (hp : 16 ≤ p) {n : ℕ} (hn : n < q.length) :
    Encl (tapIv p q n) (2 ^ p) (tapReal q n) ∧
      width (tapIv p q n) ≤ |((q.getD n 0 : ℤ) : ℝ)| * (2 * sinErr p) := by
  have h := hannTwice_encl p hp (f := q.length) (by omega) n
  refine ⟨h.1.scale _, ?_⟩
  unfold tapIv
  rw [width_scale]
  exact mul_le_mul_of_nonneg_left h.2 (abs_nonneg _)

theorem tapReal_le (n : ℕ) : |tapReal q n| ≤ |((q.getD n 0 : ℤ) : ℝ)| * 2 := by
  rw [tapReal, abs_mul]
  exact mul_le_mul_of_nonneg_left hann_bounds (abs_nonneg _)

theorem sinErr_le (hp : 64 ≤ p) : 8 * (sinErr p : ℝ) ≤ 2 ^ p := by
  have h : ∀ n : ℕ, 64 ≤ n → 8 * (4 * n + 32) ≤ 2 ^ n := by
    intro n hn
    induction n, hn using Nat.le_induction with
    | base => norm_num
    | succ n hn ih => rw [pow_succ]; omega
  have h2 : 8 * sinErr p ≤ 2 ^ p := h p hp
  exact_mod_cast h2

/-- One part of a bin, against a table of numbers of absolute value at most 1. -/
theorem binSum_encl (hp : 64 ≤ p) (t : ℕ → Iv) (y : ℕ → ℝ)
    (ht : ∀ j, Encl (t j) (2 ^ p) (y j) ∧ width (t j) ≤ 2 * sinErr p) (hy : ∀ j, |y j| ≤ 1) (k : ℕ) :
    Encl (binSum (windowed p (halfPi p) q) ((List.range q.length).map t).toArray k) (2 ^ p * 2 ^ p)
        ((List.range q.length).map fun n => tapReal q n * y (k * n % q.length)).sum ∧
      width (binSum (windowed p (halfPi p) q) ((List.range q.length).map t).toArray k) ≤
        absSum q * (8 * sinErr p * 2 ^ p) ∧
      |((List.range q.length).map fun n => tapReal q n * y (k * n % q.length)).sum| ≤ 2 * absSum q := by
  have hp16 : 16 ≤ p := by omega
  have he := sinErr_le p hp
  have h0 : (0 : ℝ) ≤ sinErr p := Nat.cast_nonneg _
  have h2p : (0 : ℝ) < 2 ^ p := by positivity
  rw [binSum_eq]
  refine ⟨Encl.sum _ _ _ fun n hn => (tapIv_encl p q hp16 (List.mem_range.mp hn)).1.mul (ht _).1, ?_, ?_⟩
  · rw [absSum_eq, ← List.sum_map_mul_right]
    refine width_sum_le _ _ _ fun n hn => ?_
    have hu := tapIv_encl p q hp16 (List.mem_range.mp hn)
    refine (width_mul_le h2p.le h2p.le hu.1 (ht _).1 hu.2 (ht _).2).trans ?_
    have h1 := tapReal_le q n
    have h3 := hy (k * n % q.length)
    have h4 : 0 ≤ |((q.getD n 0 : ℤ) : ℝ)| := abs_nonneg _
    have h5 : 2 ^ p * |tapReal q n| ≤ 2 ^ p * (|((q.getD n 0 : ℤ) : ℝ)| * 2) := mul_le_mul_of_nonneg_left h1 h2p.le
    have h6 : 2 ^ p * |y (k * n % q.length)| ≤ 2 ^ p * 1 := mul_le_mul_of_nonneg_left h3 h2p.le
    generalize |((q.getD n 0 : ℤ) : ℝ)| = a at *
    generalize (sinErr p : ℝ) = e at *
    generalize (2 : ℝ) ^ p = s at *
    have h7 : (s * |tapReal q n| + a * (2 * e)) * (2 * e) ≤ (s * (a * 2) + a * (2 * e)) * (2 * e) := by gcongr
    have h8 : (s * |y (k * n % q.length)| + 2 * e) * (a * (2 * e)) ≤ (s * 1 + 2 * e) * (a * (2 * e)) := by gcongr
    have h9 : a * e * (8 * e) ≤ a * e * s := mul_le_mul_of_nonneg_left he (by positivity)
    have h10 : 0 ≤ a * e * s := by positivity
    linarith
  · rw [absSum_eq, ← List.sum_map_mul_left]
    refine abs_sum_le _ _ _ fun n => ?_
    have h1 := tapReal_le q n
    have h3 := hy (k * n % q.length)
    rw [abs_mul]
    nlinarith [abs_nonneg (tapReal q n)]

/-- The enclosure of one bin's energy. -/
def energyIv (k : ℕ) : Iv :=
  (binSum (windowed p (halfPi p) q) ((List.range q.length).map fun j => cosIv p (halfPi p) j q.length).toArray k).sq.add
    (binSum (windowed p (halfPi p) q) ((List.range q.length).map fun j => sinIv p (halfPi p) j q.length).toArray k).sq

theorem spectrum_eq : spectrum p q = (List.range (q.length / 2 + 1)).map (energyIv p q) := rfl

/-- The scale of an energy at precision `p`. -/
noncomputable def energyScale (p : ℕ) : ℝ := 2 ^ p * 2 ^ p * (2 ^ p * 2 ^ p)

theorem energyIv_encl (hp : 64 ≤ p) (hq : 0 < q.length) (k : ℕ) :
    Encl (energyIv p q k) (energyScale p) (energy q k) ∧
      width (energyIv p q k) ≤ 80 * ((absSum q : ℝ) ^ 2 * sinErr p * (2 ^ p * 2 ^ p * 2 ^ p)) := by
  have hp16 : 16 ≤ p := by omega
  have hc := binSum_encl p q hp (fun j => cosIv p (halfPi p) j q.length) (fun j => Real.cos (turn j q.length))
    (fun j => cosIv_spec p j _ hp16 hq) (fun j => Real.abs_cos_le_one _) k
  have hs := binSum_encl p q hp (fun j => sinIv p (halfPi p) j q.length) (fun j => Real.sin (turn j q.length))
    (fun j => sinIv_spec p j _ hp16 hq) (fun j => Real.abs_sin_le_one _) k
  have h2p : (0 : ℝ) < 2 ^ p := by positivity
  have he := sinErr_le p hp
  have h0 : (0 : ℝ) ≤ sinErr p := Nat.cast_nonneg _
  have hS : (0 : ℝ) ≤ absSum q := Nat.cast_nonneg _
  have hc2 := width_sq_le (by positivity) hc.1 hc.2.1
  have hs2 := width_sq_le (by positivity) hs.1 hs.2.1
  refine ⟨(hc.1.sq (by positivity)).add (hs.1.sq (by positivity)), ?_⟩
  have key : ∀ z : ℝ, |z| ≤ 2 * absSum q →
      (absSum q * (8 * sinErr p * 2 ^ p) : ℝ) * (2 * (2 ^ p * 2 ^ p * |z|) + absSum q * (8 * sinErr p * 2 ^ p)) ≤
        40 * ((absSum q : ℝ) ^ 2 * sinErr p * (2 ^ p * 2 ^ p * 2 ^ p)) := by
    intro z hz
    generalize (absSum q : ℝ) = S at *
    generalize (sinErr p : ℝ) = e at *
    generalize (2 : ℝ) ^ p = s at *
    have h1 : S * (8 * e * s) * (2 * (s * s * |z|) + S * (8 * e * s)) ≤
        S * (8 * e * s) * (2 * (s * s * (2 * S)) + S * (s * s)) := by
      gcongr
    refine h1.trans (le_of_eq ?_)
    ring
  have h1 := key _ hc.2.2
  have h2 := key _ hs.2.2
  unfold energyIv
  rw [width_add]
  have h3 := hc2.trans h1
  have h4 := hs2.trans h2
  linarith

/-! ## Equality or distance -/

theorem energy_cycInt (hq : 0 < q.length) (k : ℕ) :
    CycInt (q.length * max (q.length - 1) 1) (16 * (absSum q : ℝ) ^ 2) ((4 * energy q k : ℝ) : ℂ) := by
  have hN : 0 < q.length * max (q.length - 1) 1 := by positivity
  have hw : ∀ n, CycInt (q.length * max (q.length - 1) 1) 4 ((2 * (2 * Signal.hann q.length n) : ℝ) : ℂ) := by
    intro n
    by_cases h1 : q.length = 1
    · have h := CycInt.int (q.length * max (q.length - 1) 1) 4
      have e : ((2 * (2 * Signal.hann q.length n) : ℝ) : ℂ) = ((4 : ℤ) : ℂ) := by
        rw [h1, Signal.hann, if_pos rfl]
        norm_num
      rw [e]
      norm_num at h
      exact_mod_cast h
    · have h := (CycInt.int (q.length * max (q.length - 1) 1) 2).sub
        (two_cos_cycInt hN n (q.length - 1) (by omega) (by rw [max_eq_left (by omega)]; exact dvd_mul_left _ _))
      have e : ((2 * (2 * Signal.hann q.length n) : ℝ) : ℂ) =
          ((2 : ℤ) : ℂ) - ((2 * Real.cos (turn n (q.length - 1)) : ℝ) : ℂ) := by
        rw [hann_turn (by omega)]
        push_cast
        ring
      rw [e]
      refine h.mono ?_
      norm_num
  have hterm : ∀ n ∈ List.range q.length, CycInt (q.length * max (q.length - 1) 1) (4 * |((q.getD n 0 : ℤ) : ℝ)|)
      (((2 * tapReal q n : ℝ) : ℂ) * ((starRingEnd ℂ)
        (Complex.exp (2 * Real.pi * Complex.I * (((k * n % q.length : ℕ) : ℂ) / q.length))))) := by
    intro n hn
    have h1 := ((hw n).smul (q.getD n 0)).mul
      ((CycInt.root hN (k * n % q.length) q.length hq (dvd_mul_right _ _)).conj hN)
    have e : ((q.getD n 0 : ℤ) : ℂ) * ((2 * (2 * Signal.hann q.length n) : ℝ) : ℂ) = ((2 * tapReal q n : ℝ) : ℂ) := by
      rw [tapReal]
      push_cast
      ring
    rw [e] at h1
    refine h1.mono (le_of_eq ?_)
    ring
  have hZ := CycInt.sum _ _ _ hterm
  rw [List.sum_map_mul_left, ← absSum_eq] at hZ
  have e1 : ((List.range q.length).map fun n => ((2 * tapReal q n : ℝ) : ℂ) * ((starRingEnd ℂ)
        (Complex.exp (2 * Real.pi * Complex.I * (((k * n % q.length : ℕ) : ℂ) / q.length))))).sum =
      2 * ((reSum q k : ℂ) - (imSum q k : ℂ) * Complex.I) := by
    rw [← finset_list_sum, reSum, imSum, ← finset_list_sum, ← finset_list_sum, Complex.ofReal_sum, Complex.ofReal_sum,
      Finset.sum_mul, ← Finset.sum_sub_distrib, Finset.mul_sum]
    refine Finset.sum_congr rfl fun n _ => ?_
    have e2 : 2 * (Real.pi : ℂ) * Complex.I * (((k * n % q.length : ℕ) : ℂ) / q.length) =
        ((turn (k * n % q.length) q.length : ℝ) : ℂ) * Complex.I := by
      simp only [turn]
      push_cast
      ring
    rw [e2, Complex.exp_mul_I, ← Complex.ofReal_cos, ← Complex.ofReal_sin]
    simp only [map_add, map_mul, Complex.conj_ofReal, Complex.conj_I]
    push_cast
    ring
  rw [e1] at hZ
  have h2 := hZ.mul (hZ.conj hN)
  have e3 : 2 * ((reSum q k : ℂ) - (imSum q k : ℂ) * Complex.I) *
      (starRingEnd ℂ) (2 * ((reSum q k : ℂ) - (imSum q k : ℂ) * Complex.I)) = ((4 * energy q k : ℝ) : ℂ) := by
    simp only [map_mul, map_sub, Complex.conj_ofReal, Complex.conj_I, map_ofNat, energy]
    push_cast
    linear_combination (-4 * (imSum q k : ℂ) ^ 2) * Complex.I_sq
  rw [e3] at h2
  refine h2.mono (le_of_eq ?_)
  ring

theorem spectrumBits_bound (k : ℕ) : 17440 * (k : ℝ) ^ 2 ≤ 2 ^ (18 + 2 * Nat.log2 k) := by
  have h : k < 2 ^ (Nat.log2 k + 1) := Nat.lt_log2_self
  have h2 : (k : ℝ) ≤ 2 ^ (Nat.log2 k + 1) := by exact_mod_cast h.le
  have h3 : (k : ℝ) ^ 2 ≤ (2 ^ (Nat.log2 k + 1)) ^ 2 := by gcongr
  have e : (2 : ℝ) ^ (18 + 2 * Nat.log2 k) = 65536 * (2 ^ (Nat.log2 k + 1)) ^ 2 := by
    rw [← pow_mul, show (65536 : ℝ) = 2 ^ 16 by norm_num, ← pow_add]
    congr 1
    ring
  rw [e]
  nlinarith [sq_nonneg (k : ℝ)]

theorem energy_separated (hq : 0 < q.length)
    (hp : 2 * ((18 + 2 * Nat.log2 (absSum q)) * (q.length * max (q.length - 1) 1 + 1)) + 64 ≤ p) (k : ℕ)
    (hne : 100 * energy q k - 9 * topEnergy q ≠ 0) :
    8720 * ((absSum q : ℝ) ^ 2 * sinErr p) < 2 ^ p * |100 * energy q k - 9 * topEnergy q| := by
  have hN : 0 < q.length * max (q.length - 1) 1 := by positivity
  obtain ⟨σ, m, hσ, hm⟩ : ∃ (σ : ℤ) (m : ℕ), |σ| ≤ 1 ∧ topEnergy q = σ * energy q m := by
    rcases supOf_mem ((List.range (q.length / 2 + 1)).map (energy q)) with h | h
    · exact ⟨0, 0, by norm_num, by rw [topEnergy, h]; simp⟩
    · obtain ⟨m, _, hm⟩ := List.mem_map.mp h
      exact ⟨1, m, by norm_num, by rw [topEnergy, ← hm]; simp⟩
  have hcyc := ((energy_cycInt q hq k).smul 100).add ((energy_cycInt q hq m).smul (-(9 * σ)))
  have e : ((100 : ℤ) : ℂ) * ((4 * energy q k : ℝ) : ℂ) + ((-(9 * σ) : ℤ) : ℂ) * ((4 * energy q m : ℝ) : ℂ) =
      ((2 * (2 * (100 * energy q k - 9 * topEnergy q)) : ℝ) : ℂ) := by
    rw [hm]
    push_cast
    ring
  rw [e] at hcyc
  have hS : (0 : ℝ) ≤ (absSum q : ℝ) ^ 2 := by positivity
  have hb : |((100 : ℤ) : ℝ)| * (16 * (absSum q : ℝ) ^ 2) + |((-(9 * σ) : ℤ) : ℝ)| * (16 * (absSum q : ℝ) ^ 2) ≤
      2 ^ (18 + 2 * Nat.log2 (absSum q)) := by
    have h1 : |((-(9 * σ) : ℤ) : ℝ)| ≤ 9 := by
      rw [Int.cast_neg, abs_neg, Int.cast_mul, abs_mul]
      have : |(σ : ℝ)| ≤ 1 := by exact_mod_cast hσ
      norm_num
      linarith
    have h2 : |((100 : ℤ) : ℝ)| = 100 := by norm_num
    rw [h2]
    refine le_trans ?_ (spectrumBits_bound (absSum q))
    nlinarith
  have hs := separated_at hN hp (hcyc.mono hb) (by simpa using hne)
  have h1 := mul_le_mul_of_nonneg_right (spectrumBits_bound (absSum q)) (Nat.cast_nonneg (α := ℝ) (sinErr p))
  rw [abs_mul, abs_mul, abs_of_pos (by norm_num : (0 : ℝ) < 2), abs_of_pos (by positivity : (0 : ℝ) < 2 ^ p)] at hs
  linarith

/-! ## The decision -/

/-- The decision of R145 on bin `k`. -/
noncomputable def bitReal (k : ℕ) : Bit := if Signal.threshold q < Signal.magnitude q k then 1 else 0

/-- The enclosure of the largest energy. -/
def topIv : Iv := Iv.sup (spectrum p q)

theorem topIv_encl (hp : 64 ≤ p) (hq : 0 < q.length) :
    Encl (topIv p q) (energyScale p) (topEnergy q) ∧
      width (topIv p q) ≤ 80 * ((absSum q : ℝ) ^ 2 * sinErr p * (2 ^ p * 2 ^ p * 2 ^ p)) := by
  unfold topIv
  rw [spectrum_eq]
  refine ⟨Encl.sup _ _ _ (by unfold energyScale; positivity) fun k _ => (energyIv_encl p q hp hq k).1,
    width_sup_le _ _ _ (by positivity) fun k _ => (energyIv_encl p q hp hq k).2⟩

theorem decideBit_sound (hp : 64 ≤ p) (hq : 0 < q.length) (k : ℕ) :
    (Config.detNum ^ 2 * (topIv p q).hi < Config.detDen ^ 2 * (energyIv p q k).lo → bitReal q k = 1) ∧
      (Config.detDen ^ 2 * (energyIv p q k).hi ≤ Config.detNum ^ 2 * (topIv p q).lo → bitReal q k = 0) := by
  have h1 := (topIv_encl p q hp hq).1
  have h2 := (energyIv_encl p q hp hq k).1
  have hs : 0 < energyScale p := by unfold energyScale; positivity
  unfold bitReal
  simp only [above_iff, Config.detNum, Config.detDen]
  constructor <;> intro h
  · have h' : (9 : ℝ) * (topIv p q).hi < 100 * (energyIv p q k).lo := by
      norm_num at h
      exact_mod_cast h
    rw [if_pos]
    have h3 : energyScale p * (9 * topEnergy q) < energyScale p * (100 * energy q k) := by
      linarith [h1.2, h2.1]
    exact lt_of_mul_lt_mul_left h3 hs.le
  · have h' : (100 : ℝ) * (energyIv p q k).hi ≤ 9 * (topIv p q).lo := by
      norm_num at h
      exact_mod_cast h
    rw [if_neg]
    have h3 : energyScale p * (100 * energy q k) ≤ energyScale p * (9 * topEnergy q) := by
      linarith [h1.1, h2.2]
    exact not_lt.mpr (le_of_mul_le_mul_left h3 hs)

theorem decideBit_false (hp : 64 ≤ p) (hq : 0 < q.length) (k : ℕ) {b : Bit}
    (h : decideBit false (topIv p q) (energyIv p q k) = some b) : b = bitReal q k := by
  have hs := decideBit_sound p q hp hq k
  unfold decideBit at h
  split at h
  · next hc => rw [hs.1 hc]; exact (Option.some.inj h).symm
  · split at h
    · next hc =>
      rw [hs.2 (by simpa using hc)]
      exact (Option.some.inj h).symm
    · simp at h

theorem decideBit_true (hq : 0 < q.length)
    (hp : 2 * ((18 + 2 * Nat.log2 (absSum q)) * (q.length * max (q.length - 1) 1 + 1)) + 64 ≤ p) (k : ℕ) :
    decideBit true (topIv p q) (energyIv p q k) = some (bitReal q k) := by
  have hp64 : 64 ≤ p := by omega
  have hs := decideBit_sound p q hp64 hq k
  unfold decideBit
  split
  · next hc => rw [hs.1 hc]
  · next hc =>
    rw [if_pos (Or.inr rfl)]
    have h1 := topIv_encl p q hp64 hq
    have h2 := energyIv_encl p q hp64 hq k
    rw [bitReal, if_neg]
    rw [above_iff]
    intro hlt
    have hsep := energy_separated p q hq hp k (by linarith)
    rw [abs_of_pos (by linarith)] at hsep
    have h8 : (0 : ℝ) < 2 ^ p * 2 ^ p * 2 ^ p := by positivity
    have hc' : (100 : ℝ) * (energyIv p q k).lo ≤ 9 * (topIv p q).hi := by
      simp only [Config.detNum, Config.detDen] at hc
      norm_num at hc
      exact_mod_cast hc
    have h3 := h1.1.1
    have h4 := h2.1.2
    have h5 := h1.2
    have h6 := h2.2
    simp only [width] at h5 h6
    have h7 := mul_lt_mul_of_pos_left hsep h8
    have e : (2 : ℝ) ^ p * 2 ^ p * 2 ^ p * (2 ^ p * (100 * energy q k - 9 * topEnergy q)) =
        100 * (energyScale p * energy q k) - 9 * (energyScale p * topEnergy q) := by
      unfold energyScale
      ring
    rw [e] at h7
    have e2 : (2 : ℝ) ^ p * 2 ^ p * 2 ^ p * (8720 * ((absSum q : ℝ) ^ 2 * sinErr p)) =
        109 * (80 * ((absSum q : ℝ) ^ 2 * sinErr p * (2 ^ p * 2 ^ p * 2 ^ p))) := by ring
    rw [e2] at h7
    linarith

theorem fdemAt_eq (bins : List ℕ) (hb : ∀ k ∈ bins, k ≤ q.length / 2) (last : Bool) :
    fdemAt q bins last p = allSettled (bins.map fun k => decideBit last (topIv p q) (energyIv p q k)) := by
  unfold fdemAt
  simp only
  congr 1
  refine List.map_congr_left fun k hk => ?_
  have h : k < q.length / 2 + 1 := by have := hb k hk; omega
  rw [spectrum_eq]
  simp [topIv, spectrum_eq, h]

end

/-- The bits the machine decides are the bits of the rules. -/
theorem fdemBits_signal (q : List ℤ) (hq : 0 < q.length) (bins : List ℕ) (hb : ∀ k ∈ bins, k ≤ q.length / 2) :
    fdemBits q bins = bins.map fun k => if Signal.threshold q < Signal.magnitude q k then 1 else 0 := by
  have h := refine_good (fdemAt q bins) (fun r => r = bins.map (bitReal q)) (fdemDepth q) firstPrecision
    (fun p hp r hr => by
      have hp64 : 64 ≤ p := by unfold firstPrecision at hp; omega
      rw [fdemAt_eq p q bins hb] at hr
      exact allSettled_eq bins _ _ (fun k _ b hbk => decideBit_false p q hp64 hq k hbk) hr)
    ⟨_, by
      rw [fdemAt_eq _ q bins hb]
      exact allSettled_map bins _ _ fun k _ => decideBit_true _ q hq (depthFor_large _ _) k, rfl⟩
  obtain ⟨r, h1, rfl⟩ := h
  rw [fdemBits, h1, Option.getD_some]
  rfl

end Sys2Proof.Laws
end

