-- ==== Sys2Proof/Laws/Waveform.lean ====
section
/-! SUPPORT. FMOD's frame and CMOD's preamble are those of the rules over the real numbers (42_frame_modulator.md R121
to R123, 43_carousel_modulator.md R130). -/

namespace Sys2Proof.Laws

open Sys2Proof.Machine

theorem turn_tone (fs den a n : ℕ) (hfs : 0 < fs) (hden : 0 < den) :
    turn (a * n) (den * fs) = 2 * Real.pi * ((a : ℝ) / den) * n / fs := by
  have h1 : (fs : ℝ) ≠ 0 := by exact_mod_cast hfs.ne'
  have h2 : (den : ℝ) ≠ 0 := by exact_mod_cast hden.ne'
  simp only [turn]
  push_cast
  field_simp

/-- The tone sum of the rules, over the channels in order. -/
theorem toneSum_eq (fs den : ℕ) (hfs : 0 < fs) (hden : 0 < den) (plan : List ℕ) (c : List Bit) (n : ℕ) :
    tonesReal (den * fs) (activeTones plan c) n = Signal.toneSum fs den plan c n := by
  unfold Signal.toneSum Signal.carrier
  induction c generalizing plan with
  | nil => simp [activeTones, tonesReal]
  | cons b t ih =>
    rw [List.length_cons, Finset.sum_range_succ']
    cases plan with
    | nil => simp [activeTones, tonesReal]
    | cons a q =>
      have h := ih q
      simp only [List.getD_cons_succ, List.getD_cons_zero] at h ⊢
      rw [← h]
      simp only [activeTones, tonesReal, List.zip_cons_cons, List.filterMap_cons]
      by_cases hb : b = 1#1
      · simp [hb, turn_tone fs den a n hfs hden, add_comm]
      · simp [hb]

/-- The samples of one frame (42_frame_modulator.md R121 to R123). -/
theorem frameInts_signal (fs den f : ℕ) (hfs : 0 < fs) (hden : 0 < den) (plan : List ℕ) (c : List Bit) :
    frameInts (den * fs) (activeTones plan c) f =
      (List.range f).map fun n => Signal.quantise (Signal.normalise (Signal.toneSum fs den plan c) f n) := by
  have h : tonesReal (den * fs) (activeTones plan c) = Signal.toneSum fs den plan c :=
    funext fun n => toneSum_eq fs den hfs hden plan c n
  rw [frameInts_eq (Nat.mul_pos hden hfs), frameReal, h]

/-! ## The preamble -/

section
variable {fs fp : ℕ} {x : Amplitude}

theorem preamble_value (hfs : 0 < fs) (n : ℕ) :
    ((x.num : ℤ) : ℝ) * Real.sin (turn (fp * n) fs) / divisorReal x = Signal.preamble fs fp (Signal.amplitude x) n := by
  have h := turn_tone fs 1 fp n hfs one_pos
  rw [one_mul] at h
  rw [h, Signal.preamble, amplitude_eq]
  push_cast
  rw [div_one, ← mul_div_right_comm]

theorem preambleOrder_pos (hfs : 0 < fs) (hd : 0 < x.turnDen) : 0 < preambleOrder fs fp x :=
  Nat.lcm_pos (toneOrder_pos hfs) (by omega)

theorem sin_preamble_cycInt (hfs : 0 < fs) (hd : 0 < x.turnDen) (n : ℕ) :
    CycInt (preambleOrder fs fp x) 2 ((2 * Real.sin (turn (fp * n) fs) : ℝ) : ℂ) := by
  have hdvd := toneGcd_dvd fs [fp]
  have hg : 0 < toneGcd fs [fp] := Nat.pos_of_dvd_of_pos hdvd.1 hfs
  have e := turn_reduce (toneGcd fs [fp]) (fp / toneGcd fs [fp] * n) (fs / toneGcd fs [fp]) hg
  rw [Nat.mul_div_cancel' hdvd.1, ← mul_assoc, Nat.mul_div_cancel' (hdvd.2 fp (by simp))] at e
  rw [e]
  exact two_sin_cycInt (preambleOrder_pos hfs hd) _ _ (Nat.div_pos (Nat.le_of_dvd hfs hdvd.1) hg)
    (Nat.dvd_lcm_left _ _)

/-- The preamble the machine computes is the preamble of the rules. -/
theorem preambleInts_signal (hfs : 0 < fs) (hpos : 0 < x.den) (ha : 0 < x.turnNum) (hd : 2 * x.turnNum < x.turnDen)
    (hle : (x.num : ℝ) ≤ divisorReal x) (len : ℕ) :
    preambleInts fs fp x len =
      (List.range len).map fun n => Signal.quantise (Signal.preamble fs fp (Signal.amplitude x) n) := by
  have hd0 : 0 < x.turnDen := by omega
  have hdiv : 0 < divisorReal x := mul_pos (by exact_mod_cast hpos) (sin_turn_pos ha hd)
  have hy : ∀ p n, 16 ≤ p → Encl ((sinIv p (halfPi p) (fp * n) fs).scale x.num) (2 ^ p)
        (((x.num : ℤ) : ℝ) * Real.sin (turn (fp * n) fs)) ∧
      width ((sinIv p (halfPi p) (fp * n) fs).scale x.num) ≤ (max x.num x.den : ℕ) * (2 * (sinErr p : ℝ)) := fun p n hp =>
    scaled_encl hp _ _ _ _ (le_max_left _ _) hfs
  have h := refine_good (preambleAt fs fp x len)
    (fun r => r = (List.range len).map fun n => Signal.quantise (Signal.preamble fs fp (Signal.amplitude x) n))
    (depthFor (amplitudeBits x) (preambleOrder fs fp x)) firstPrecision ?_ ⟨_, ?_, rfl⟩
  · obtain ⟨r, h1, rfl⟩ := h
    rw [preambleInts, h1, Option.getD_some]
  · intro p hp r hr
    have hp16 : 16 ≤ p := by unfold firstPrecision at hp; omega
    unfold preambleAt at hr
    simp only at hr
    split at hr
    · cases hr
    · next hlo =>
      refine allSettled_eq (List.range len) _ _ (fun n _ z hz => ?_) hr
      rw [quantIv_false (by positivity) (hy p n hp16).1 (divisor_encl hp16 hd0).1 (not_le.mp hlo) hz, preamble_value hfs]
  · have hp := depthFor_large (amplitudeBits x) (preambleOrder fs fp x)
    generalize firstPrecision * 2 ^ depthFor (amplitudeBits x) (preambleOrder fs fp x) = p at hp
    have hp16 : 16 ≤ p := by omega
    have hn := preambleOrder_pos (fp := fp) (x := x) hfs hd0
    have hw := divisor_encl (x := x) hp16 hd0
    have hw0 : (0 : ℝ) ≤ (max x.num x.den : ℕ) * (2 * (sinErr p : ℝ)) := by positivity
    have hlo : 0 < (amplitudeDivisor p (halfPi p) x).lo := by
      have hs := divisor_separated (x := x) (c := 0) (k := 1) (y := Real.sin (turn (fp * 0) fs)) hn hp hd0
        (Nat.dvd_lcm_right _ _) (by norm_num) (by norm_num) (sin_preamble_cycInt hfs hd0 0)
        (by
          push_cast
          rw [zero_mul, zero_sub, one_mul]
          exact neg_ne_zero.mpr hdiv.ne')
      have e : |2 ^ p * (((0 : ℤ) : ℝ) * (((x.num : ℤ) : ℝ) * Real.sin (turn (fp * 0) fs)) - ((1 : ℤ) : ℝ) * divisorReal x)| =
          2 ^ p * divisorReal x := by
        push_cast
        rw [zero_mul, zero_sub, one_mul, mul_neg, abs_neg, abs_of_pos (by positivity)]
      rw [e] at hs
      have h1 := hw.1.2
      have h2 := hw.2
      unfold width at h2
      have : (0 : ℝ) < (amplitudeDivisor p (halfPi p) x).lo := by linarith
      exact_mod_cast this
    unfold preambleAt
    simp only
    rw [if_neg (not_le.mpr hlo)]
    refine allSettled_map (List.range len) _ _ fun n _ => ?_
    rw [← preamble_value hfs]
    refine quantIv_true (by positivity) (hy p n hp16).1 hw.1 hlo ?_ fun k hk hne => ?_
    · rw [abs_mul, abs_of_nonneg (by positivity : (0 : ℝ) ≤ ((x.num : ℤ) : ℝ))]
      have h1 := Real.abs_sin_le_one (turn (fp * n) fs)
      have h3 : (0 : ℝ) ≤ ((x.num : ℤ) : ℝ) := by positivity
      refine le_trans (mul_le_of_le_one_right h3 h1) ?_
      exact_mod_cast hle
    · have hs := divisor_separated (x := x) (c := 65534) (k := k) hn hp hd0 (Nat.dvd_lcm_right _ _) (by norm_num) hk
        (sin_preamble_cycInt (fp := fp) hfs hd0 n) (by push_cast at hne ⊢; exact hne)
      have h2 := (hy p n hp16).2
      have h3 := hw.2
      push_cast at hs ⊢
      refine lt_of_le_of_lt ?_ hs
      push_cast at h2 h3
      linarith

end

end Sys2Proof.Laws
end

