-- ==== Sys2Proof/Laws/Segments.lean ====
section
/-! SUPPORT. What a frame, the preamble and a demodulated window are in terms of the rules, sample by sample and bit by
bit (42_frame_modulator.md R121 to R123, 43_carousel_modulator.md R130, 44_frame_demodulator.md R140 to R145). -/

namespace Sys2Proof.Laws

open Sys2Proof.Machine

/-- Sample `n` of chunk `j`'s frame, by the rules. -/
noncomputable abbrev frameSignal (s : State) (j n : ℕ) : ℤ :=
  Signal.quantise (Signal.normalise (Signal.toneSum s.fs s.den s.plan (chunk s.bits s.nChan j)) s.fLen n)

theorem frame_eq (s : State) (j : ℕ) (hfs : 0 < s.fs) (hden : 0 < s.den) :
    s.frame j = (List.range s.fLen).map fun n => BitVec.ofInt 16 (frameSignal s j n) := by
  unfold State.frame frameSamples
  rw [frameInts_signal _ _ _ hfs hden, List.map_map]
  rfl

theorem frame_length (s : State) (j : ℕ) (hfs : 0 < s.fs) (hden : 0 < s.den) : (s.frame j).length = s.fLen := by
  rw [frame_eq s j hfs hden, List.length_map, List.length_range]

theorem preamble_eq (s : State) (hfs : 0 < s.fs) (hok : s.inst.preAmpOk = true) :
    s.preamble = (List.range s.pLen).map fun n =>
      BitVec.ofInt 16 (Signal.quantise (Signal.preamble s.fs s.fp (Signal.amplitude s.inst.preAmp) n)) := by
  obtain ⟨_, h2, h3, h4, h5⟩ := (preAmpOk_iff s.inst).mp hok
  unfold State.preamble
  rw [preambleInts_signal hfs h2 h3 h4 h5, List.map_map]
  rfl

theorem preamble_length (s : State) (hfs : 0 < s.fs) (hok : s.inst.preAmpOk = true) : s.preamble.length = s.pLen := by
  rw [preamble_eq s hfs hok, List.length_map, List.length_range]

/-- A number in 16-bit range away from −32768 survives the sample. -/
theorem sample_toInt {z : ℤ} (h : -32767 ≤ z ∧ z ≤ 32767) : (BitVec.ofInt 16 z).toInt = z := by
  rw [BitVec.toInt_ofInt]
  apply Int.bmod_eq_of_le <;> norm_num <;> omega

theorem quantise_bounds {x : ℝ} (h : |x| ≤ 1) : -32767 ≤ Signal.quantise x ∧ Signal.quantise x ≤ 32767 := by
  obtain ⟨h1, h2⟩ := abs_le.mp h
  have a := rne_mono (x := ((-32767 : ℤ) : ℝ)) (y := 32767 * x) (by push_cast; linarith)
  have b := rne_mono (x := 32767 * x) (y := ((32767 : ℤ) : ℝ)) (by push_cast; linarith)
  rw [rne_intCast] at a b
  exact ⟨a, b⟩

theorem window_length (s : State) (off : ℕ) (h : off + s.fLen ≤ s.wLen) : (s.window off).length = s.fLen := by
  unfold State.window
  have hw : s.wave.length = s.wLen := State.wave_length s
  rw [List.length_take, List.length_drop, hw]
  omega

theorem fdemWindow_eq (s : State) (win : List Sample) (hw : win.length = s.fLen) (hf : 0 < s.fLen) (hd : 0 < s.den) :
    s.fdemWindow win = s.plan.map fun num =>
      if Signal.threshold (win.map BitVec.toInt) <
        Signal.magnitude (win.map BitVec.toInt) (nearestBin s.fs s.fLen s.den num) then 1 else 0 := by
  unfold State.fdemWindow
  have hl : (windowInts win).length = s.fLen := by rw [windowInts, List.length_map, hw]
  rw [fdemBits_signal _ (by omega), State.channelBins, List.map_map]
  · rfl
  · intro k hk
    obtain ⟨num, -, rfl⟩ := List.mem_map.mp hk
    rw [hl]
    exact (nearestBin_nearest _ _ _ _ hf hd).1

/-- The bits of a window are `fdem` of the rules. -/
theorem fdemWindow_isFdem (s : State) (win : List Sample) (hw : win.length = s.fLen) (hf : 0 < s.fLen)
    (hd : 0 < s.den) : s.IsFdem win (s.fdemWindow win) := by
  rw [fdemWindow_eq s win hw hf hd]
  refine ⟨by simp, fun i hi =>
    ⟨nearestBin s.fs s.fLen s.den (s.plan.getD i 0), nearestBin_nearest _ _ _ _ hf hd, ?_⟩⟩
  have hl : i < s.plan.length := by simpa using hi
  rw [List.getD_eq_getElem _ _ (by simpa using hi), List.getElem_map, List.getD_eq_getElem _ _ hl]
  split <;> simp_all

/-- The nearest bin, lowest on a tie, is one bin (44_frame_demodulator.md R144). -/
theorem nearestBin_unique {fs f : ℕ} {x : ℚ} {k k' : ℕ} (h : NearestBin fs f x k) (h' : NearestBin fs f x k') :
    k = k' := by
  rcases Nat.lt_trichotomy k k' with hk | hk | hk
  · exact absurd (h'.2.2 k hk) (not_lt.mpr (h.2.1 _ h'.1))
  · exact hk
  · exact absurd (h.2.2 k' hk) (not_lt.mpr (h'.2.1 _ h.1))

/-- A window has at most one `fdem` (44_frame_demodulator.md R145). -/
theorem isFdem_unique {s : State} {win : List Sample} {b c : List Bit} (hb : s.IsFdem win b) (hc : s.IsFdem win c) :
    b = c := by
  have bit_ext : ∀ x y : Bit, (x = 1 ↔ y = 1) → x = y := by decide
  refine List.ext_getElem (hb.1.trans hc.1.symm) fun i h1 h2 => ?_
  have hi : i < s.nChan := hb.1 ▸ h1
  obtain ⟨k, hk, e⟩ := hb.2 i hi
  obtain ⟨k', hk', e'⟩ := hc.2 i hi
  obtain rfl := nearestBin_unique hk hk'
  rw [List.getD_eq_getElem _ _ h1] at e
  rw [List.getD_eq_getElem _ _ h2] at e'
  exact bit_ext _ _ (e.trans e'.symm)

end Sys2Proof.Laws
end

