-- ==== Sys2Proof/Tests/Slice0.lean ====
section
/-!
SUPPORT. Tests by evaluation: well-formedness, decoding, one step per command against the vectors of
95_test_vectors.md (each names its vector), and for every statement with hypotheses a state that meets them.
-/

namespace Sys2Proof.Tests

open Sys2Proof.Machine

-- One test after another: tests that wait for the kernel hold one thread each otherwise.
set_option Elab.async false

/-! ## Small states -/

/-- The configuration TINY of 95_test_vectors.md in READY: fs 16, N 2, 2 to 4 Hz, F 16, R 1, fp 6, P 16, G 4, C 8. -/
def tiny : State :=
  { State.reset with
    mode := .ready, sampleRate := 16, channelCount := 2, freqMin := 2, freqMax := 4, frameLen := 16, repeatCount := 1
    preFreq := 6, preLen := 16, gapLen := 4, cgapLen := 8, planDen := 1
    mem := { State.reset.mem with plan := ⟨1, [], [(0, 2), (1, 4)]⟩ } }

/-- TINY before CFG. -/
def tinyOpen : State := { tiny with mode := .unconfigured, planDen := 0, mem := State.reset.mem }

/-- TINY after a CFG that failed its checks. -/
def tinyFailed : State := { tinyOpen with mode := .failed, frameLen := 0 }

/-- The smallest instance that holds one carousel of TINY with one chunk. -/
def small : Instance where
  nMax := 2
  txtMax := 1
  bitMax := 16
  waveMax := 44
  bitCap := 14
  actThrNum := 0
  actThrDen := 1
  preAmp := .ratio 1 1

/-- TINY on that instance. -/
def tinySmall : State := { tiny with inst := small }

/-- The state an answer holds. -/
def after (o : Host.Outcome State Fault Refusal) : State :=
  match o with
  | .next t => t
  | .fault _ | .refused _ => State.reset

/-- LAST, INFO and ERRS: the outcome of a command. -/
def verdict (s : State) : ErrCode × Nat × Nat := (s.last, s.info.toNat, s.errs.toNat)

/-- V21's frame, for the chunk `10`. -/
def toneFrame : List Sample :=
  [0, 23170, 32767, 23170, 0, -23170, -32767, -23170, 0, 23170, 32767, 23170, 0, -23170, -32767, -23170]

/-- `n` samples of silence with one sample `v` at index `k`. -/
def impulse (n k : Nat) (v : Sample) : List Sample := (List.replicate n 0).set k v

theorem narrow {l : List Word} (h : (l.all fun c => decide (c.toNat ≤ 255)) = true) : ∀ c ∈ l, c.toNat ≤ 255 :=
  fun c hc => of_decide_eq_true (List.all_eq_true.mp h c hc)

theorem positive {l : List Word} (h : (l.all fun c => decide (1 ≤ c.toNat)) = true) : ∀ c ∈ l, 1 ≤ c.toNat :=
  fun c hc => of_decide_eq_true (List.all_eq_true.mp h c hc)

theorem sounding {l : List Sample} (h : (l.any fun q => decide (q ≠ 0)) = true) : ∃ q ∈ l, q ≠ 0 :=
  let ⟨q, hq, hz⟩ := List.any_eq_true.mp h
  ⟨q, hq, of_decide_eq_true hz⟩

/-! ## Well-formedness (00_scope.md R5): one ill-formed term for each check -/

theorem test_reference_well_formed : Config.reference.wf = true ∧ small.wf = true := by decide +kernel
theorem small_wf : small.wf = true := by decide +kernel
theorem test_wf_refuses_no_channel :
    Instance.wf { Config.reference with nMax := 0 } = false ∧ Instance.nMaxOk { Config.reference with nMax := 0 } = false := by
  decide
theorem test_wf_refuses_text_capacity :
    Instance.txtMaxOk { small with txtMax := 0 } = false ∧ Instance.txtMaxOk { small with txtMax := 2 ^ 32 } = false := by
  decide
theorem test_wf_refuses_bit_capacity :
    Instance.bitMaxOk { small with bitMax := 15 } = false ∧ Instance.bitMaxOk { small with bitCap := 15 } = false ∧
      Instance.bitMaxOk { small with bitMax := 2 ^ 32 } = false := by decide
theorem test_wf_refuses_wave_capacity :
    Instance.waveMaxOk { small with waveMax := 0 } = false ∧ Instance.waveMaxOk { small with waveMax := 2 ^ 32 } = false := by
  decide
theorem test_wf_refuses_no_cap : Instance.bitCapOk { small with bitCap := 0 } = false := by decide
theorem test_wf_refuses_threshold : Instance.actThrOk { small with actThrNum := 1 } = false := by decide
/-- Zero, 2, the turn of a whole half, and √2 (the sine of an eighth of a turn below 1). -/
theorem test_wf_refuses_amplitude :
    Instance.preAmpOk { small with preAmp := .ratio 0 1 } = false ∧
      Instance.preAmpOk { small with preAmp := .ratio 2 1 } = false ∧
      Instance.preAmpOk { small with preAmp := ⟨1, 2, 2, 4⟩ } = false ∧
      Instance.preAmpOk { small with preAmp := ⟨1, 1, 1, 8⟩ } = false := by decide +kernel

/-- PRE_AMP = 1/√2 is an amplitude. By hand from 43_carousel_modulator.md R130, with sin(3π/4) = 1/√2 and sin(3π/2) = −1:
0, rne(16383.5) = 16384 (a tie, to the even one), rne(−23169.8). -/
theorem test_irrational_amplitude :
    Instance.wf { small with preAmp := ⟨1, 2, 1, 8⟩ } = true ∧
      (after (exec .cmod { tinySmall with inst := { small with preAmp := ⟨1, 2, 1, 8⟩ } })).wave.take 3 =
        [0, 16384, -23170] := by decide +kernel

/-! ## Decoding: the words of 30_encoding.md R71, bits 31:8 then bits 7:0 -/

theorem test_decode_cfg : decode ((0x000000 : BitVec 24) ++ 0b00000001#8) = .ok .cfg := rfl
theorem test_decode_tnorm : decode ((0x000000 : BitVec 24) ++ 0b00010000#8) = .ok .tnorm := rfl
theorem test_decode_t2b : decode ((0x000000 : BitVec 24) ++ 0b00010001#8) = .ok .t2b := rfl
theorem test_decode_repx : decode ((0x000000 : BitVec 24) ++ 0b00010010#8) = .ok .repx := rfl
theorem test_decode_fmod : decode ((0x000000 : BitVec 24) ++ 0b00010011#8) = .ok .fmod := rfl
theorem test_decode_cmod : decode ((0x000000 : BitVec 24) ++ 0b00010100#8) = .ok .cmod := rfl
theorem test_decode_fdem : decode ((0x000000 : BitVec 24) ++ 0b00100000#8) = .ok .fdem := rfl
theorem test_decode_cdem : decode ((0x000000 : BitVec 24) ++ 0b00100001#8) = .ok .cdem := rfl
theorem test_decode_repc : decode ((0x000000 : BitVec 24) ++ 0b00100010#8) = .ok .repc := rfl
theorem test_decode_b2t : decode ((0x000000 : BitVec 24) ++ 0b00100011#8) = .ok .b2t := rfl

/-- V9's words. -/
theorem test_illegal_words :
    decode 0x00000002#32 = .error .unknownOpcode ∧ decode 0x00000113#32 = .error .mbzNotZero ∧
      decode 0x00000000#32 = .error .unknownOpcode ∧ decode 0xFFFFFFFF#32 = .error .mbzNotZero := by decide

/-- V9 in UNCONFIGURED: E_ILLEGAL, not E_STATE. -/
theorem test_illegal_step :
    verdict (after (step (State.reset.withFetchWord 32 0x113))) = (.eIllegal, 0x113, 2) := by decide

/-- The table's row for B2T, as the host asks for it. -/
theorem test_table_word : decodeTableWord 32 0x23 = some .b2t ∧ decodeTableWord 32 0x24 = none := by decide

/-! ## One step of each command -/

/-- V2: a plan entry that is no whole number of hertz. -/
theorem test_cfg_plan :
    (after (exec .cfg { tinyOpen with channelCount := 3, freqMin := 100, freqMax := 201, preFreq := 300 })).plan =
      [200, 301, 402] := by decide +kernel

/-- V4: CFG straight after reset. -/
theorem test_cfg_rejects :
    verdict (after (exec .cfg State.reset)) = (.eConfig, 0x3FB, 8) ∧
      (after (exec .cfg State.reset)).statusWord = 0x302 := by decide +kernel

/-- V10. -/
theorem test_tnorm :
    (after (exec .tnorm (tiny.putText [0x41, 0x20, 0x09, 0x0A, 0x20, 0x42, 0x20, 0x20]))).text =
      [0x41, 0x20, 0x42, 0x20] := by decide +kernel

/-- V12. -/
theorem test_t2b :
    (after (exec .t2b (tiny.putText [0x48, 0x49]))).bits = [0, 1, 0, 0, 1, 0, 0, 0, 0, 1, 0, 0, 1, 0, 0, 1] := by
  decide +kernel

/-- V14. -/
theorem test_t2b_domain :
    verdict (after (exec .t2b (tiny.putText [0x48, 0x100, 0x49, 0x20AC]))) = (.eDomain, 1, 0x10) := by decide +kernel

/-- V15. -/
theorem test_repx : (after (exec .repx (tiny.putBits [1, 0]))).bits = [1, 1, 0, 0] := by decide +kernel

/-- V21. -/
theorem test_fmod : (after (exec .fmod (tiny.putBits [1, 0]))).wave = toneFrame := by decide +kernel

/-- V25. -/
theorem test_fmod_argument :
    verdict (after (exec .fmod { tiny.putBits [1, 1, 1, 1] with arg := 2 })) = (.eArg, 2, 0x20) := by decide +kernel

/-- V29 and R133 with `K = 0`: the preamble, then the eight zeros of the cycle gap. -/
theorem test_cmod :
    (after (exec .cmod tiny)).wave = [0, 23170, -32767, 23170, 0, -23170, 32767, -23170, 0, 23170, -32767, 23170, 0,
      -23170, 32767, -23170] ++ List.replicate 8 0 := by decide +kernel

/-- V31: the length and INFO of one chunk. -/
theorem test_cmod_length :
    (after (exec .cmod (tiny.putBits [0]))).waveLen = 44 ∧ (after (exec .cmod (tiny.putBits [0]))).info = 1 := by
  decide +kernel

/-- V37, first row. -/
theorem test_fdem : (after (exec .fdem (tiny.putWave toneFrame))).bits = [1, 0] := by decide +kernel

/-- V35: the hand example. -/
theorem test_fdem_four :
    (after (exec .fdem { tiny.putWave [0, 32767, 0, -32767] with
      sampleRate := 4, frameLen := 4, mem := { (tiny.putWave [0, 32767, 0, -32767]).mem with plan := ⟨1, [], [(0, 1), (1, 2)]⟩ }
      })).bits = [1, 1] := by decide +kernel

/-- V44: one window short, and one silent window. -/
theorem test_cdem_short :
    (after (exec .cdem (tiny.putWave (List.replicate 32 0)))).statusWord = 0x15 ∧
      (after (exec .cdem (tiny.putWave (List.replicate 33 0)))).statusWord = 0x05 := by decide +kernel

/-- V48: the least active impulse decodes to `11`. -/
theorem test_cdem_impulse :
    (after (exec .cdem (tiny.putWave (impulse 33 24 328)))).bits = [1, 1] ∧
      verdict (after (exec .cdem (tiny.putWave (impulse 33 24 327)))) = (.eNone, 20, 0) := by decide +kernel

/-- V50, V52. -/
theorem test_repc :
    (after (exec .repc (tiny.putBits [0, 0, 1, 1, 0, 0, 0, 0, 1, 1, 0, 0, 0, 0, 1, 1]))).bits = [0, 1, 0, 0, 1, 0, 0, 1] ∧
      (after (exec .repc (tiny.putBits [1, 0, 1]))).bits = [1] := by decide +kernel

/-- V53. -/
theorem test_b2t :
    (after (exec .b2t (tiny.putBits [0, 1, 0, 0, 1, 0, 0, 0, 0, 1, 0, 0, 1, 0, 0, 1]))).text = [0x48, 0x49] := by
  decide +kernel

/-! ## The hypotheses of the statements can be met -/

theorem tiny_inv : tiny.Inv where
  instWf := by decide
  memWf := by decide
  cellsBelow := by decide
  lengths := by decide
  errsReserved := by decide
  lastRecorded := by decide
  flags := by decide
  unplanned := by decide
  rejected := by decide
  planned := by decide +kernel

theorem witness_LegalAndIllegalWords :
    (∃ (s : State) (v : Word) (rest : List HostMove), s.pending = HostMove.writeReg 0 v :: rest ∧
        v.extractLsb' 8 24 = 0#24 ∧ v.extractLsb' 0 8 = 0x23#8) ∧
      ∃ (s : State) (v : Word) (rest : List HostMove), s.pending = HostMove.writeReg 0 v :: rest ∧
        v.extractLsb' 8 24 = 1#24 ∧ v.extractLsb' 0 8 = 0x13#8 :=
  ⟨⟨{ tiny with pending := [.writeReg 0 0x23] }, 0x23, [], rfl, by decide, by decide⟩,
    ⟨{ tiny with pending := [.writeReg 0 0x113] }, 0x113, [], rfl, by decide, by decide⟩⟩

theorem witness_StepRunsDecodedCommand :
    ∃ (s : State) (v : Word) (i : Instr) (rest : List HostMove), s.pending = .writeReg 0 v :: rest ∧ decode v = .ok i :=
  ⟨{ tiny with pending := [.writeReg 0 0x10] }, 0x10, .tnorm, [], rfl, rfl⟩

theorem witness_StepServesNextMove :
    tiny.pending = [] ∧ ∃ (s : State) (m : HostMove) (rest : List HostMove), s.pending = m :: rest ∧ m.commandWord = none :=
  ⟨rfl, { tiny with pending := [.readReg 0, .reset] }, .readReg 0, [.reset], rfl, rfl⟩

theorem witness_WrongStateRaisesEState :
    (if (Instr.cfg : Instr) = .cfg then tiny.mode ≠ .unconfigured else tiny.mode ≠ .ready) ∧
      (if (Instr.b2t : Instr) = .cfg then tinyFailed.mode ≠ .unconfigured else tinyFailed.mode ≠ .ready) ∧
      if (Instr.tnorm : Instr) = .cfg then tinyOpen.mode ≠ .unconfigured else tinyOpen.mode ≠ .ready := by decide

theorem witness_CommandsWriteTheirDestinationOnly : ∀ i : Instr, ∃ t, exec i (tiny.putBits [1, 0]) = .next t := by
  intro i
  cases i <;> exact ⟨_, rfl⟩

theorem witness_DestinationSpecifiedBelowItsLength :
    (∃ s t : State, s.Inv ∧ exec .cdem s = .next t ∧ t.last = .eNone) ∧
      ∃ s t : State, s.Inv ∧ exec .cfg s = .next t ∧ t.last = .eNone :=
  ⟨⟨tiny, _, tiny_inv, rfl, rfl⟩,
    ⟨tinyOpen, _, { tiny_inv with
      memWf := by decide, cellsBelow := by decide, unplanned := fun _ => rfl, rejected := by decide, planned := by decide }, rfl,
      by decide +kernel⟩⟩

theorem witness_UnspecifiedElementReadsFree : ¬ tiny.Specified .plan 2 ∧ ¬ State.reset.Specified .txt 0 :=
  ⟨(by decide : 2 ∉ [0, 1]), List.not_mem_nil⟩

theorem witness_FlagsWrittenByCdemOnly :
    (∃ t, exec .fmod (tiny.putBits [1, 0]) = .next t) ∧ ∃ t, exec .cfg tinyOpen = .next t := ⟨⟨_, rfl⟩, ⟨_, rfl⟩⟩

/-- Two states that differ in a move to come and in an element beyond BITS_LEN. -/
theorem witness_UnspecifiedElementsNeverMatter :
    ∃ s u s' u' : State, s ≠ u ∧ s.mode = u.mode ∧ s.last = u.last ∧ (∀ k, s.register k = u.register k) ∧
      s.inst = u.inst ∧ s.text = u.text ∧ s.bits = u.bits ∧ s.wave = u.wave ∧ s.plan = u.plan ∧
      exec .fmod s = .next s' ∧ exec .fmod u = .next u' :=
  ⟨{ tiny with bitsLen := 1, mem := { tiny.mem with bits := ⟨0, [], [(0, 1)]⟩ } },
    { tiny with bitsLen := 1, mem := { tiny.mem with bits := ⟨3, [1], [(0, 1), (1, 1)]⟩ }, pending := [.reset] }, _, _,
    by decide, rfl, rfl, fun _ => rfl, rfl, rfl, rfl, rfl, rfl, rfl, rfl⟩

theorem witness_InvariantKeptByStep : ∃ s t : State, s.Inv ∧ step s = .next t ∧ t ≠ s :=
  ⟨{ tiny with pending := [.writeReg 0 0x10] }, _, { tiny_inv with }, rfl, by decide +kernel⟩

theorem witness_InvariantAtReset : small.wf = true := by decide

theorem witness_StateTransitions :
    (∃ s t : State, step s = .next t ∧ t.mode ≠ s.mode ∧ t.mode = .unconfigured) ∧
      (∃ s t : State, step s = .next t ∧ t.mode ≠ s.mode ∧ t.mode = .ready) ∧
      ∃ s t : State, step s = .next t ∧ t.mode ≠ s.mode ∧ t.mode = .failed :=
  ⟨⟨{ tiny with pending := [.reset] }, _, rfl, by decide, by decide⟩,
    ⟨{ tinyOpen with pending := [.writeReg 0 1] }, _, rfl, by decide +kernel, by decide +kernel⟩,
    ⟨{ State.reset with pending := [.writeReg 0 1] }, _, rfl, by decide +kernel, by decide +kernel⟩⟩

theorem witness_ErrsIsSticky :
    ∃ (s t : State) (b : Nat), step s = .next t ∧ s.errs.getLsbD b = true :=
  ⟨{ tiny with errs := 0x200, pending := [.writeReg 0 0x10] }, _, 9, rfl, by decide⟩

theorem witness_FrozenConfiguration :
    (∃ s t : State, s.mode ≠ .unconfigured ∧ step s = .next t ∧ s.pending = [.writeReg 12 1]) ∧
      ∃ s t : State, s.mode ≠ .unconfigured ∧ step s = .next t ∧ s.pending = [.reset] :=
  ⟨⟨{ tiny with pending := [.writeReg 12 1] }, _, by decide, rfl, rfl⟩,
    ⟨{ tinyFailed with pending := [.reset] }, _, by decide, rfl, rfl⟩⟩

theorem witness_ResetEffect : ∃ (s : State) (rest : List HostMove), s.pending = .reset :: rest :=
  ⟨{ tiny with errs := 2, pending := [.reset, .readReg 2] }, [.readReg 2], rfl⟩

theorem witness_RegisterReads (k : Nat) (_ : k = 0 ∨ k = 18 ∨ k = 19) :
    ∃ (s : State) (rest : List HostMove), s.pending = .readReg k :: rest :=
  ⟨{ tiny with pending := [.readReg k] }, [], rfl⟩

theorem witness_ArgAndReadOnlyWrites (k : Nat) (_ : k = 1 ∨ k = 2 ∨ k = 3 ∨ k = 4 ∨ k = 18 ∨ k = 19) :
    ∃ (s : State) (v : Word) (rest : List HostMove), s.pending = .writeReg k v :: rest :=
  ⟨{ tiny with pending := [.writeReg k 5] }, 5, [], rfl⟩

theorem witness_ConfigurationLock (k : Nat) (h : k = 8 ∨ k = 17) :
    (∃ (s : State) (v : Word) (rest : List HostMove), 8 ≤ k ∧ k ≤ 17 ∧ s.pending = .writeReg k v :: rest ∧
        s.mode = .unconfigured) ∧
      ∃ (s : State) (v : Word) (rest : List HostMove), 8 ≤ k ∧ k ≤ 17 ∧ s.pending = .writeReg k v :: rest ∧
        s.mode ≠ .unconfigured :=
  ⟨⟨{ tinyOpen with pending := [.writeReg k 5] }, 5, [], by omega, by omega, rfl, rfl⟩,
    ⟨{ tiny with pending := [.writeReg k 5] }, 5, [], by omega, by omega, rfl, (by decide : tiny.mode ≠ .unconfigured)⟩⟩

theorem witness_LengthRegisterWrites :
    (∃ (s : State) (sp : Space) (v : Word) (rest : List HostMove), sp ≠ .plan ∧
        s.pending = .writeReg (4 + sp.id) v :: rest ∧ v.toNat = s.writableElements sp ∧ s.lengthOf sp ≤ v.toNat) ∧
      (∃ (s : State) (sp : Space) (v : Word) (rest : List HostMove), sp ≠ .plan ∧
        s.pending = .writeReg (4 + sp.id) v :: rest ∧ v.toNat ≤ s.writableElements sp ∧ v.toNat + 1 = s.lengthOf sp) ∧
      ∃ (s : State) (sp : Space) (v : Word) (rest : List HostMove), sp ≠ .plan ∧
        s.pending = .writeReg (4 + sp.id) v :: rest ∧ v.toNat = s.writableElements sp + 1 :=
  ⟨⟨{ tinySmall with pending := [.writeReg 7 44] }, .wave, 44, [], by decide, rfl, rfl, by decide⟩,
    ⟨{ tinySmall.putBits [1, 0, 1] with pending := [.writeReg 6 2] }, .bits, 2, [], by decide, rfl, by decide, by decide⟩,
    ⟨{ tinySmall with pending := [.writeReg 6 17] }, .bits, 17, [], by decide, rfl, rfl⟩⟩

theorem witness_BufferWrites :
    (∃ (s : State) (v : Word) (rest : List HostMove), s.pending = .writeBuf .wave 43 v :: rest ∧
        43 < s.writableElements .wave) ∧
      (∃ (s : State) (v : Word) (rest : List HostMove), s.pending = .writeBuf .wave 44 v :: rest ∧
        ¬ 44 < s.writableElements .wave) ∧
      ∃ (s : State) (v : Word) (rest : List HostMove), s.pending = .writeBuf .plan 0 v :: rest ∧
        ¬ 0 < s.writableElements .plan :=
  ⟨⟨{ tinySmall with pending := [.writeBuf .wave 43 0x18000] }, 0x18000, [], rfl, by decide⟩,
    ⟨{ tinySmall with pending := [.writeBuf .wave 44 0] }, 0, [], rfl, by decide⟩,
    ⟨{ tinySmall with pending := [.writeBuf .plan 0 7] }, 7, [], rfl, by decide⟩⟩

theorem witness_BufferReads :
    (∃ (s : State) (rest : List HostMove), s.pending = .readBuf .plan 1 :: rest ∧ s.Readable .plan 1) ∧
      (∃ (s : State) (rest : List HostMove), s.pending = .readBuf .plan 2 :: rest ∧ ¬ s.Readable .plan 2) ∧
      ∃ (s : State) (rest : List HostMove), s.pending = .readBuf .txt 1 :: rest ∧ ¬ s.Readable .txt 1 :=
  ⟨⟨{ tiny with pending := [.readBuf .plan 1] }, [], rfl, by decide, fun _ => by decide⟩,
    ⟨{ tiny with pending := [.readBuf .plan 2] }, [], rfl, fun h => absurd (h.2 rfl) (by decide)⟩,
    ⟨{ tinySmall with pending := [.readBuf .txt 1] }, [], rfl,
      fun h => absurd (show 1 < small.txtMax from h) (by decide)⟩⟩

theorem witness_SequencesAreElements : (tiny.putBits [1, 0, 1]).mem.wf := by decide

/-- The boundary of every check at once: one channel, lengths of 1, PRE_FREQ one above FREQ_MAX. -/
theorem witness_CfgAcceptsAndPlans :
    ∃ s : State, s.mode = .unconfigured ∧ 1 ≤ s.fs ∧ 1 ≤ s.nChan ∧ s.nChan ≤ s.inst.nMax ∧
      s.freqMin.toNat < s.freqMax.toNat ∧ 1 ≤ s.fLen ∧ 1 ≤ s.pLen ∧ 1 ≤ s.gLen ∧ 1 ≤ s.cLen ∧ 1 ≤ s.rCount ∧
      s.freqMax.toNat < s.fp :=
  ⟨{ tinyOpen with
      sampleRate := 1, channelCount := 1, freqMin := 0, freqMax := 1, frameLen := 1, preFreq := 2, preLen := 1, gapLen := 1
      cgapLen := 1 }, by decide⟩

theorem witness_CfgRejectsWithMask :
    ∃ s : State, s.mode = .unconfigured ∧ s.fp ≤ s.freqMax.toNat ∧ s.freqMax.toNat ≤ s.freqMin.toNat :=
  ⟨{ tinyOpen with freqMin := 4, freqMax := 4, preFreq := 4 }, by decide⟩

theorem witness_PlanProperties :
    ∃ s t : State, s.mode = .unconfigured ∧ exec .cfg s = .next t ∧ t.mode = .ready ∧ 2 ≤ s.nChan :=
  ⟨tinyOpen, _, rfl, rfl, by decide +kernel, by decide⟩

theorem witness_TnormNormalises : tiny.mode = .ready := rfl

theorem witness_TnormIsIdempotent :
    ∃ s t u : State, s.mode = .ready ∧ exec .tnorm s = .next t ∧ exec .tnorm t = .next u ∧ t.text = [0x20, 0x41, 0x20] :=
  ⟨tiny.putText [0x09, 0x20, 0x41, 0x0A], _, _, rfl, rfl, rfl, by decide +kernel⟩

theorem witness_T2bWritesBits :
    ∃ s : State, s.mode = .ready ∧ s.inst.wf = true ∧ (∀ c ∈ s.text, c.toNat ≤ 255) ∧
      8 * s.txtLen.toNat = s.inst.bitMax :=
  ⟨tinySmall.putText [255, 0], rfl, by decide, narrow (by decide +kernel), by decide⟩

theorem witness_T2bRejectsWideCharacter :
    ∃ (s : State) (i : Nat), s.mode = .ready ∧ i < s.txtLen.toNat ∧ 255 < (s.text.getD i 0).toNat ∧
      ∀ j, j < i → (s.text.getD j 0).toNat ≤ 255 :=
  ⟨tiny.putText [255, 256, 257], 1, rfl, by decide, by decide +kernel, by decide +kernel⟩

theorem witness_RepxDoublesBits :
    ∃ s : State, s.mode = .ready ∧ s.inst.wf = true ∧ 2 * s.bitsLen.toNat = s.inst.bitMax :=
  ⟨tinySmall.putBits (List.replicate 8 1), rfl, by decide, by decide⟩

theorem witness_CapacityErrors :
    (∃ s : State, s.mode = .ready ∧ (∀ c ∈ s.text, c.toNat ≤ 255) ∧ s.inst.bitMax < 8 * s.txtLen.toNat) ∧
      (∃ s : State, s.mode = .ready ∧ s.inst.bitMax < 2 * s.bitsLen.toNat) ∧
      (∃ s : State, s.mode = .ready ∧ 0 < s.nChan ∧ s.argNat * s.nChan < s.bitsLen.toNat ∧ s.inst.waveMax < s.fLen) ∧
      (∃ s : State, s.mode = .ready ∧
        s.inst.waveMax < s.rCount * (s.pLen + ⌈(s.bitsLen.toNat : ℚ) / s.nChan⌉₊ * (s.fLen + s.gLen) + s.cLen)) ∧
      (∃ s : State, s.mode = .ready ∧ s.argNat + s.fLen ≤ s.wLen ∧ s.inst.bitMax < s.nChan) ∧
      ∃ s : State, s.mode = .ready ∧ s.inst.txtMax < ((List.range (s.bitsLen.toNat / 8)).filter fun g =>
        (List.range 8).any fun k => s.bits.getD (8 * g + k) 0 = 1).length :=
  ⟨⟨tinySmall.putText [255, 1, 0], rfl, narrow (by decide +kernel), by decide⟩,
    ⟨tinySmall.putBits (List.replicate 9 1), rfl, by decide⟩,
    ⟨{ tinySmall.putBits [1] with inst := { small with waveMax := 15 } }, rfl, by decide, by decide, by decide⟩,
    ⟨{ tinySmall.putBits [1] with inst := { small with waveMax := 43 } }, rfl, by rw [Laws.ceil_div]; decide⟩,
    ⟨{ tinySmall.putWave toneFrame with inst := { small with bitMax := 1 } }, rfl, by decide, by decide⟩,
    ⟨tinySmall.putBits (List.replicate 16 1), rfl, by decide +kernel⟩⟩

theorem witness_BitEncoderAsAWhole :
    ∃ s t u v : State, s.mode = .ready ∧ s.inst.wf = true ∧ s.txtLen.toNat = s.inst.txtMax ∧ exec .tnorm s = .next t ∧
      (∀ c ∈ t.text, c.toNat ≤ 255) ∧ exec .t2b t = .next u ∧ exec .repx u = .next v :=
  ⟨tinySmall.putText [255], _, _, _, rfl, by decide, rfl, rfl, narrow (by decide +kernel), rfl, rfl⟩

theorem witness_FmodWritesFrame :
    ∃ s : State, s.mode = .ready ∧ s.inst.wf = true ∧ 0 < s.fs ∧ 0 < s.den ∧ 0 < s.nChan ∧
      s.argNat * s.nChan < s.bitsLen.toNat ∧ s.fLen = s.inst.waveMax :=
  ⟨{ tiny.putBits [1, 0, 1] with arg := 1, inst := { small with waveMax := 16 } }, by decide⟩

/-- TINY with a frame of two samples and the chunk `01`. -/
def twoSamples : State := { tiny.putBits [0, 1] with frameLen := 2 }

theorem silent_tone_sum (fs den : ℕ) (plan : List ℕ) (n : ℕ) : Signal.toneSum fs den plan [0, 0] n = 0 := by
  simp [Signal.toneSum, Finset.sum_range_succ]

theorem one_tone_sum : Signal.toneSum 16 1 [2, 4] [0, 1] 1 = 1 := by
  have h : Signal.toneSum 16 1 [2, 4] [0, 1] 1 = Real.sin (Real.pi / 2) := by
    unfold Signal.toneSum Signal.carrier
    rw [List.length_cons, List.length_cons, List.length_nil, Finset.sum_range_succ, Finset.sum_range_succ,
      Finset.sum_range_zero, if_neg (by decide), if_pos (by decide), zero_add, zero_add]
    congr 1
    norm_num
    ring
  rw [h, Real.sin_pi_div_two]

/-- Both clauses: the peak of a chunk of zeros is 0; the peak of the chunk `01` is not. -/
theorem witness_FrameIsSilentOrFullScale :
    (∃ s t : State, s.mode = .ready ∧ s.inst.wf = true ∧ 0 < s.fs ∧ 0 < s.den ∧ exec .fmod s = .next t ∧ t.last = .eNone ∧
        Signal.peak (Signal.toneSum s.fs s.den s.plan
          ((List.range s.nChan).map fun i => s.bits.getD (s.argNat * s.nChan + i) 0)) s.fLen = 0) ∧
      ∃ s t : State, s.mode = .ready ∧ s.inst.wf = true ∧ 0 < s.fs ∧ 0 < s.den ∧ exec .fmod s = .next t ∧ t.last = .eNone ∧
        Signal.peak (Signal.toneSum s.fs s.den s.plan
          ((List.range s.nChan).map fun i => s.bits.getD (s.argNat * s.nChan + i) 0)) s.fLen ≠ 0 := by
  refine ⟨⟨tiny.putBits [0, 0], _, rfl, by decide, by decide, by decide, rfl, by decide +kernel, ?_⟩,
    ⟨twoSamples, _, rfl, by decide, by decide, by decide, rfl, by decide +kernel, ?_⟩⟩
  · have hc : ((List.range (tiny.putBits [0, 0]).nChan).map fun i => (tiny.putBits [0, 0]).bits.getD
        ((tiny.putBits [0, 0]).argNat * (tiny.putBits [0, 0]).nChan + i) 0) = [0, 0] := by decide +kernel
    rw [hc, show (tiny.putBits [0, 0]).fLen = 16 from rfl, Signal.peak,
      show List.range 16 = [0, 1, 2, 3, 4, 5, 6, 7, 8, 9, 10, 11, 12, 13, 14, 15] from rfl]
    simp only [List.map_cons, List.map_nil, silent_tone_sum, abs_zero, List.foldr_cons, List.foldr_nil, max_self]
  · have hc : ((List.range twoSamples.nChan).map fun i => twoSamples.bits.getD
        (twoSamples.argNat * twoSamples.nChan + i) 0) = [0, 1] := by decide +kernel
    have hp : twoSamples.plan = [2, 4] := by decide +kernel
    rw [hc, hp, show twoSamples.fLen = 2 from rfl, show twoSamples.fs = 16 from rfl, show twoSamples.den = 1 from rfl,
      Signal.peak, show List.range 2 = [0, 1] from rfl]
    simp only [List.map_cons, List.map_nil, one_tone_sum, abs_one, List.foldr_cons, List.foldr_nil]
    exact (lt_max_of_lt_right (lt_max_of_lt_left one_pos)).ne'

theorem witness_ArgumentErrors :
    (∃ s : State, s.mode = .ready ∧ 0 < s.nChan ∧ s.bitsLen.toNat = s.argNat * s.nChan) ∧
      ∃ s : State, s.mode = .ready ∧ s.wLen + 1 = s.argNat + s.fLen :=
  ⟨⟨{ tiny.putBits [1, 1] with arg := 1 }, by decide⟩, ⟨tiny.putWave (List.replicate 15 0), by decide⟩⟩

theorem witness_CmodLength :
    ∃ s : State, s.mode = .ready ∧ s.inst.wf = true ∧ 0 < s.fs ∧ 0 < s.den ∧
      s.rCount * (s.pLen + ⌈(s.bitsLen.toNat : ℚ) / s.nChan⌉₊ * (s.fLen + s.gLen) + s.cLen) = s.inst.waveMax :=
  ⟨tinySmall.putBits [1], rfl, by decide, by decide, by decide, by rw [Laws.ceil_div]; decide⟩

/-- Every clause: a chunk 0 below the chunk count 1, a frame of 16 samples, a gap of 4. -/
theorem witness_CmodLayout :
    ∃ (s t : State) (K S r : Nat), s.mode = .ready ∧ s.inst.wf = true ∧ 0 < s.fs ∧ 0 < s.den ∧
      K = ⌈(s.bitsLen.toNat : ℚ) / s.nChan⌉₊ ∧ S = s.pLen + K * (s.fLen + s.gLen) + s.cLen ∧ r < s.rCount ∧
      exec .cmod s = .next t ∧ t.last = .eNone ∧ 0 < K ∧ 0 < s.pLen ∧ 0 < s.cLen ∧
      ∃ u, exec .fmod { s with arg := BitVec.ofNat 32 0 } = .next u :=
  ⟨tinySmall.putBits [1], _, 1, 44, 0, rfl, by decide, by decide, by decide, by rw [Laws.ceil_div]; decide, by decide,
    by decide, rfl, by decide +kernel, by decide, by decide, by decide, _, rfl⟩

theorem witness_EveryPreambleAmplitude :
    (0 : ℝ) < 1 ∧ (1 : ℝ) ≤ 1 ∧ ∃ s t : State, s.mode = .ready ∧ s.inst.wf = true ∧ s.inst.preAmp = .ratio 1 1 ∧ 0 < s.fs ∧
      0 < s.den ∧ 0 < s.rCount ∧ exec .cmod s = .next t ∧ t.last = .eNone ∧ 0 < s.pLen :=
  ⟨one_pos, le_rfl, tinySmall, _, rfl, small_wf, rfl, by decide, by decide, by decide, rfl, by decide +kernel, by decide⟩

/-- The window is the last of the waveform. -/
theorem witness_FdemDecidesBits :
    ∃ (s : State) (b : List Bit), s.mode = .ready ∧ s.inst.wf = true ∧ 0 < s.fLen ∧ 0 < s.den ∧
      s.argNat + s.fLen = s.wLen ∧ s.nChan ≤ s.inst.bitMax ∧ s.IsFdem ((s.wave.drop s.argNat).take s.fLen) b :=
  ⟨{ tinySmall.putWave (0 :: toneFrame) with arg := 1 }, _, rfl, small_wf, by decide, by decide, by decide, by decide,
    Laws.fdemWindow_isFdem _ _ (Laws.window_length _ _ (by decide)) (by decide) (by decide)⟩

/-- Both clauses: the window of FDEM, and the walk that stops at once on a waveform as long as the preamble. -/
theorem witness_DemodulationIsDetermined :
    ∃ (s t u : State) (b : List Bit), s.mode = .ready ∧ s.inst.wf = true ∧ 0 < s.fLen ∧ 0 < s.den ∧ exec .fdem s = .next t ∧
      t.last = .eNone ∧ s.IsFdem (s.window s.argNat) b ∧ 0 < s.gLen ∧ s.nChan ≤ s.inst.nMax ∧ exec .cdem s = .next u ∧
      s.Walk s.pLen [] s.pLen [] :=
  ⟨tinySmall.putWave toneFrame, _, _, _, rfl, small_wf, by decide, by decide, rfl, by decide +kernel,
    Laws.fdemWindow_isFdem _ _ (Laws.window_length _ _ (by decide)) (by decide) (by decide), by decide, by decide, rfl,
    .stop fun h => absurd h.1 (by decide)⟩

theorem witness_VeryShortFrames :
    (∃ s t : State, s.mode = .ready ∧ s.inst.wf = true ∧ 0 < s.fs ∧ 0 < s.den ∧ t.last = .eNone ∧ s.fLen = 1 ∧
        exec .fmod s = .next t) ∧
      ∃ s t : State, s.mode = .ready ∧ s.inst.wf = true ∧ 0 < s.fs ∧ 0 < s.den ∧ t.last = .eNone ∧ s.fLen = 2 ∧
        exec .fdem s = .next t :=
  ⟨⟨{ tiny.putBits [1, 0] with frameLen := 1 }, after (exec .fmod { tiny.putBits [1, 0] with frameLen := 1 }), rfl, by decide,
      by decide, by decide, by decide +kernel, rfl, rfl⟩,
    ⟨{ tiny.putWave [1, 2] with frameLen := 2 }, after (exec .fdem { tiny.putWave [1, 2] with frameLen := 2 }), rfl,
      by decide, by decide, by decide, by decide +kernel, rfl, rfl⟩⟩

theorem witness_CdemWalks :
    ∃ s : State, s.mode = .ready ∧ s.inst.wf = true ∧ 0 < s.fLen ∧ 0 < s.gLen ∧ 0 < s.den ∧ s.nChan = s.inst.nMax ∧
      s.wLen = s.pLen + s.fLen + 1 :=
  ⟨tinySmall.putWave (impulse 33 24 328), by decide⟩

theorem silent_window : (tiny.putWave (List.replicate 33 0)).window 16 = List.replicate 16 0 := by decide +kernel

/-- Both clauses: a waveform one sample short of a window, and one with one window, which is silent. -/
theorem witness_CdemBounds :
    (∃ s t : State, s.Inv ∧ s.mode = .ready ∧ exec .cdem s = .next t ∧ t.short = true ∧ s.Walk s.pLen [] s.pLen []) ∧
      ∃ s t : State, s.Inv ∧ s.mode = .ready ∧ exec .cdem s = .next t ∧ t.short = false ∧
        s.Walk s.pLen [] (s.pLen + s.gLen) [] := by
  have h : ∀ xs : List Sample, xs.length ≤ 33 → (tiny.putWave xs).Inv := fun xs hx =>
    { tiny_inv with
      memWf := ⟨tiny_inv.memWf.1, tiny_inv.memWf.2.1, Buf.replace_wf _ _, tiny_inv.memWf.2.2.2⟩
      cellsBelow := ⟨tiny_inv.cellsBelow.1, tiny_inv.cellsBelow.2.1, fun c hc =>
        (Buf.replace_below _ hc).trans_le (hx.trans (by decide : 33 ≤ tiny.inst.waveMax)), tiny_inv.cellsBelow.2.2.2⟩
      lengths := ⟨tiny_inv.lengths.1, tiny_inv.lengths.2.1, by
        rw [State.putWave_waveLen, BitVec.toNat_ofNat]
        exact (Nat.mod_le _ _).trans (hx.trans (by decide : 33 ≤ tiny.inst.waveMax))⟩ }
  exact ⟨⟨tiny.putWave (List.replicate 32 0), _, h _ (by decide), rfl, rfl, by decide +kernel,
      .stop fun h => absurd h.1 (by decide)⟩,
    ⟨tiny.putWave (List.replicate 33 0), _, h _ (by decide), rfl, rfl, by decide +kernel,
      .silent ⟨by decide, by decide⟩ (fun ⟨q, hq, hlt⟩ => by
        obtain rfl : q = 0 := List.eq_of_mem_replicate (silent_window ▸ hq)
        rw [show ((0 : Sample).toInt : ℚ) = 0 from rfl, abs_zero, zero_div] at hlt
        exact absurd hlt (not_lt.mpr (div_nonneg (Nat.cast_nonneg _) (Nat.cast_nonneg _)))) (.stop fun h => absurd h.1 (by decide))⟩⟩

theorem witness_CdemOnOwnCarousel :
    ∃ (s w t : State) (K : Nat), s.Inv ∧ s.mode = .ready ∧ s.rCount = 1 ∧ K = ⌈(s.bitsLen.toNat : ℚ) / s.nChan⌉₊ ∧
      exec .cmod s = .next w ∧ w.last = .eNone ∧
      (∀ j u, j < K → exec .fmod { s with arg := BitVec.ofNat 32 j } = .next u → ∃ q ∈ u.wave, q ≠ 0) ∧
      (s.inst.actThrNum : ℚ) / s.inst.actThrDen < 32767 / 32768 ∧ (K - 1) * s.nChan ≤ s.inst.bitCap ∧
      exec .cdem w = .next t ∧ 0 < K := by
  refine ⟨tiny.putBits [1, 0], _, _, 1, ?_, rfl, rfl, by rw [Laws.ceil_div]; decide, rfl, by decide +kernel, ?_, ?_, by decide,
    rfl, by decide⟩
  · exact { tiny_inv with memWf := by decide, cellsBelow := by decide, lengths := by decide }
  · intro j u hj hu
    obtain rfl : j = 0 := by omega
    have e : u = after (exec .fmod { tiny.putBits [1, 0] with arg := BitVec.ofNat 32 0 }) := by rw [hu]; rfl
    rw [e]
    exact sounding (by decide +kernel)
  · show ((1 : ℕ) : ℚ) / ((100 : ℕ) : ℚ) < 32767 / 32768
    norm_num

theorem witness_RepcOrsPairs : (tiny.putBits [1, 0, 1]).mode = .ready := rfl

theorem witness_RepcUndoesRepx :
    ∃ s t u : State, s.mode = .ready ∧ s.inst.wf = true ∧ exec .repx s = .next t ∧ t.last = .eNone ∧
      exec .repc t = .next u ∧ 2 * s.bitsLen.toNat = s.inst.bitMax :=
  ⟨tinySmall.putBits (List.replicate 8 1), _, _, rfl, by decide, rfl, by decide +kernel, rfl, by decide⟩

theorem witness_B2tReadsGroups :
    ∃ (s : State) (vs : List Nat), s.mode = .ready ∧ s.inst.wf = true ∧
      vs = ((List.range (s.bitsLen.toNat / 8)).map fun g =>
        ∑ k ∈ Finset.range 8, (s.bits.getD (8 * g + k) 0).toNat * 2 ^ (7 - k)).filter (· ≠ 0) ∧
      vs.length = s.inst.txtMax :=
  ⟨tinySmall.putBits (List.replicate 15 1), [255], rfl, by decide, by decide +kernel, by decide⟩

theorem witness_BitPathRoundTrip :
    ∃ (s a b c d e : State) (k : Nat), s.mode = .ready ∧ s.inst.wf = true ∧ s.txtLen.toNat = s.inst.txtMax ∧
      (∀ x ∈ s.text, x.toNat ≤ 255) ∧ exec .t2b s = .next a ∧ exec .repx a = .next b ∧ c.mode = .ready ∧
      c.inst = s.inst ∧ c.bits = b.bits ++ List.replicate k 0 ∧ exec .repc c = .next d ∧ exec .b2t d = .next e ∧
      ∀ x ∈ s.text, 1 ≤ x.toNat :=
  ⟨tinySmall.putText [1], _, _, tinySmall.putBits (List.replicate 14 0 ++ [1, 1] ++ List.replicate 3 0), _, _, 3, rfl,
    by decide, rfl, narrow (by decide +kernel), rfl, rfl, rfl, rfl, by decide +kernel, rfl, rfl, positive (by decide +kernel)⟩

end Sys2Proof.Tests
end

section
/-! PROOFS. The two statements of 00_scope.md: the sequences commands read are the host's elements (R9), and every real
PRE_AMP in (0, 1] is one with which CMOD writes its preamble (R5). -/

namespace Sys2Proof.Proofs

open Sys2Proof.Machine Sys2Proof.Laws

/-! ## Sequences and elements -/

/-- Entry `i` of the sequence `S[0 : n)` is the element that a read of index `i` gives. -/
theorem take_getD {w : Nat} {sp : Space} {b : Buf w} {i n : Nat} (hb : b.wf) (hi : i < n) (d : BitVec w) :
    (b.take sp n).getD i d = b.get sp i := by
  rw [Buf.take_eq _ _ hb]
  simp [hi]

theorem plan_getD {s : State} {i : Nat} (hb : s.mem.plan.wf) (hi : i < s.nChan) :
    s.plan.getD i 0 = s.element .plan i := calc
  s.plan.getD i 0 = ((s.mem.plan.take .plan s.nChan).getD i 0).toNat := List.getD_map _ (0 : Numerator) BitVec.toNat
  _ = s.element .plan i := congrArg BitVec.toNat (take_getD hb hi 0)

/-- Settles O28: in canonical form a buffer's sequence is its elements read one by one. -/
theorem sequencesAreElements : Obligations.SequencesAreElements := by
  unfold Obligations.SequencesAreElements
  rintro s ⟨htxt, hbits, hwave, hplan⟩
  exact ⟨⟨s.text_length, fun i hi => congrArg BitVec.toNat (take_getD htxt hi 0)⟩,
    ⟨s.bits_length, fun i hi => congrArg BitVec.toNat (take_getD hbits hi 0)⟩,
    ⟨s.wave_length, fun i hi => congrArg BitVec.toNat (take_getD hwave hi 0)⟩,
    ⟨s.plan_length, fun i hi => plan_getD hplan hi⟩⟩

/-! ## What well-formed parameters give -/

theorem wf_iff (c : Instance) : c.wf = true ↔
    c.nMaxOk = true ∧ c.txtMaxOk = true ∧ c.bitMaxOk = true ∧ c.waveMaxOk = true ∧ c.bitCapOk = true ∧
      c.actThrOk = true ∧ c.preAmpOk = true := by
  simp only [Instance.wf, Bool.and_eq_true, and_assoc]

theorem preAmpOk_of_wf {c : Instance} (h : c.wf = true) : c.preAmpOk = true := by
  obtain ⟨-, -, -, -, -, -, hamp⟩ := (wf_iff c).mp h
  exact hamp

theorem waveMax_lt_of_wf {c : Instance} (h : c.wf = true) : c.waveMax < 2 ^ 32 := by
  obtain ⟨-, -, -, hwave, -⟩ := (wf_iff c).mp h
  simp only [Instance.waveMaxOk, Bool.and_eq_true, decide_eq_true_eq] at hwave
  exact hwave.2

/-- PRE_AMP is under no constraint but its own (00_scope.md R5). -/
theorem wf_with_preAmp {c : Instance} {a : Amplitude} (hc : c.wf = true)
    (ha : Instance.preAmpOk { c with preAmp := a } = true) : Instance.wf { c with preAmp := a } = true := by
  obtain ⟨hn, htxt, hbit, hwave, hcap, hthr, -⟩ := (wf_iff c).mp hc
  exact (wf_iff _).mpr ⟨hn, htxt, hbit, hwave, hcap, hthr, ha⟩

/-! ## The preamble and the carousel it opens -/

theorem abs_preamble_le_one {amp : ℝ} (h : |amp| ≤ 1) (fs fp n : ℕ) : |Signal.preamble fs fp amp n| ≤ 1 := by
  rw [Signal.preamble, abs_mul]
  exact mul_le_one₀ h (abs_nonneg _) (Real.abs_sin_le_one _)

/-- The check on PRE_AMP bounds the real number it stands for. -/
theorem abs_amplitude_le_one {c : Instance} (h : c.preAmpOk = true) : |Signal.amplitude c.preAmp| ≤ 1 := by
  obtain ⟨hnum, -, -, -, hle⟩ := (preAmpOk_iff c).mp h
  have hpos : 0 < divisorReal c.preAmp := lt_of_lt_of_le (Nat.cast_pos.mpr hnum) hle
  rw [amplitude_eq, abs_of_nonneg (by positivity), div_le_one hpos]
  exact hle

/-- No sample of the preamble is lost in its 16 bits (43_carousel_modulator.md R130). -/
theorem preamble_getD_toInt {s : State} {n : ℕ} (hfs : 0 < s.fs) (hok : s.inst.preAmpOk = true) (hn : n < s.pLen) :
    (s.preamble.getD n 0).toInt =
      Signal.quantise (Signal.preamble s.fs s.fp (Signal.amplitude s.inst.preAmp) n) := by
  have hget : s.preamble.getD n 0 =
      BitVec.ofInt 16 (Signal.quantise (Signal.preamble s.fs s.fp (Signal.amplitude s.inst.preAmp) n)) := by
    rw [preamble_eq s hfs hok]
    simp [hn]
  rw [hget, sample_toInt (quantise_bounds (abs_preamble_le_one (abs_amplitude_le_one hok) _ _ _))]

/-- A carousel of at least one cycle opens with the preamble (43_carousel_modulator.md R131, R133). -/
theorem carousel_getD_of_lt_preamble {s : State} {n : ℕ} (hR : 0 < s.rCount) (hn : n < s.preamble.length) :
    s.carousel.getD n 0 = s.preamble.getD n 0 := by
  obtain ⟨r, hr⟩ := Nat.exists_eq_succ_of_ne_zero hR.ne'
  rw [State.carousel, hr, List.replicate_succ, List.flatten_cons, State.cycle, List.append_assoc, List.append_assoc,
    List.getD_append _ _ _ _ hn]

/-- WAVE after a CMOD that completes is the carousel (43_carousel_modulator.md R133). -/
theorem cmod_wave {s t : State} (hmode : s.mode = .ready) (hwf : s.inst.wf = true) (h : exec .cmod s = .next t)
    (hlast : t.last = .eNone) : t.wave = s.carousel := by
  rw [exec_cmod hmode, Host.Outcome.next.injEq] at h
  split at h
  · subst h
    cases hlast
  · next hcap =>
    have hlen : s.carousel.length < 2 ^ 32 :=
      ((carousel_length_le s).trans (not_lt.mp hcap)).trans_lt (waveMax_lt_of_wf hwf)
    rw [← h, State.wave_complete, State.wave_putWave _ _ hlen]

/-- The first `P` samples after a CMOD that completes are the preamble of the rules. -/
theorem cmod_wave_preamble {s t : State} {n : ℕ} (hmode : s.mode = .ready) (hwf : s.inst.wf = true) (hfs : 0 < s.fs)
    (hR : 0 < s.rCount) (h : exec .cmod s = .next t) (hlast : t.last = .eNone) (hn : n < s.pLen) :
    (t.wave.getD n 0).toInt = Signal.quantise (Signal.preamble s.fs s.fp (Signal.amplitude s.inst.preAmp) n) := by
  have hok := preAmpOk_of_wf hwf
  rw [cmod_wave hmode hwf h hlast, carousel_getD_of_lt_preamble hR (by rwa [preamble_length s hfs hok]),
    preamble_getD_toInt hfs hok hn]

/-- Settles O44: the amplitude that covers `x` passes the check on PRE_AMP, the only check of R5 that sees it,
and CMOD writes its preamble, sample for sample that of `x`. -/
theorem everyPreambleAmplitude : Obligations.EveryPreambleAmplitude := by
  unfold Obligations.EveryPreambleAmplitude
  intro x hx hx1
  obtain ⟨a, hok, hsame⟩ := amplitude_covers x hx hx1
  refine ⟨a, fun c hc => wf_with_preAmp hc (hok _ rfl), ?_⟩
  intro s t hmode hwf ha hfs _ hR hexec hlast n hn
  rw [cmod_wave_preamble hmode hwf hfs hR hexec hlast hn, ha, hsame s.fs s.fp n hfs s.sampleRate.isLt]

end Sys2Proof.Proofs
end

section
/-! PROOFS. What one step can do, said once: each move of the host as one named update of the state, every answer of a
host move and of a step as an inductive case list, and the two directions of decoding a step needs. -/

namespace Sys2Proof.Proofs

open Sys2Proof.Machine Sys2Proof.Laws

section
variable {s t : State} {k : Nat} {v : Word} {sp : Space} {rest : List HostMove}

/-! ## Registers by index -/

/-- The table of 10_state.md R21. -/
theorem register_of_lt (hk : k < 19) :
    s.register k = some ([0, s.arg, s.statusWord, s.errs, s.info, s.txtLen, s.bitsLen, s.waveLen, s.sampleRate,
      s.channelCount, s.freqMin, s.freqMax, s.frameLen, s.repeatCount, s.preFreq, s.preLen, s.gapLen, s.cgapLen,
      s.planDen].getD k 0) := by
  interval_cases k <;> rfl

theorem register_of_ge (hk : 19 ≤ k) : s.register k = none := by
  obtain ⟨j, rfl⟩ := Nat.exists_eq_add_of_le' hk
  rfl

theorem hostReadReg_of_some (h : s.register k = some v) : s.hostReadReg k = s.answer (.word v) := by
  simp only [State.hostReadReg, h]

theorem hostReadReg_of_none (h : s.register k = none) : s.hostReadReg k = s.hostAcc.answer (.word 0) := by
  simp only [State.hostReadReg, h]

/-! ## Writes to registers -/

theorem hostWriteReg_readOnly (hk : k = 2 ∨ k = 3 ∨ k = 4 ∨ 18 ≤ k) : s.hostWriteReg k v = s.hostAcc := by
  obtain rfl | rfl | rfl | hk := hk
  · rfl
  · rfl
  · rfl
  · obtain ⟨j, rfl⟩ := Nat.exists_eq_add_of_le' hk
    rfl

theorem setArg_frame (s : State) (v : Word) : s.Frame [1] [] { s with arg := v } := by
  refine ⟨fun k hk => ?_, fun _ _ _ => rfl, rfl, rfl, rfl⟩
  have hk : k ≠ 1 := by simpa using hk
  unfold State.register
  split <;> first | rfl | omega

theorem lockedWrite_unconfigured (h : s.mode = .unconfigured) : s.lockedWrite t = t := by
  simp only [State.lockedWrite, h]

theorem lockedWrite_locked (h : s.mode ≠ .unconfigured) : s.lockedWrite t = s.lockWr := by
  cases hm : s.mode with
  | unconfigured => exact absurd hm h
  | ready => simp only [State.lockedWrite, hm]
  | failed => simp only [State.lockedWrite, hm]

/-- A write of configuration register `k` that is served (10_state.md R27 to R36). -/
def setConfig (s : State) (k : Nat) (v : Word) : State :=
  match k with
  | 8 => { s with sampleRate := v }
  | 9 => { s with channelCount := v }
  | 10 => { s with freqMin := v }
  | 11 => { s with freqMax := v }
  | 12 => { s with frameLen := v }
  | 13 => { s with repeatCount := v }
  | 14 => { s with preFreq := v }
  | 15 => { s with preLen := v }
  | 16 => { s with gapLen := v }
  | 17 => { s with cgapLen := v }
  | _ => s

theorem hostWriteReg_config (h8 : 8 ≤ k) (h17 : k ≤ 17) :
    s.hostWriteReg k v = s.lockedWrite (setConfig s k v) := by
  interval_cases k <;> rfl

theorem hostWriteReg_unconfigured (h8 : 8 ≤ k) (h17 : k ≤ 17) (hm : s.mode = .unconfigured) :
    s.hostWriteReg k v = setConfig s k v := by
  rw [hostWriteReg_config h8 h17, lockedWrite_unconfigured hm]

theorem hostWriteReg_locked (h8 : 8 ≤ k) (h17 : k ≤ 17) (hm : s.mode ≠ .unconfigured) :
    s.hostWriteReg k v = s.lockWr := by
  rw [hostWriteReg_config h8 h17, lockedWrite_locked hm]

@[simp] theorem setConfig_mode : (setConfig s k v).mode = s.mode := by unfold setConfig; split <;> rfl

@[simp] theorem setConfig_errs : (setConfig s k v).errs = s.errs := by unfold setConfig; split <;> rfl

theorem setConfig_register (h8 : 8 ≤ k) (h17 : k ≤ 17) : (setConfig s k v).register k = some v := by
  interval_cases k <;> rfl

theorem setConfig_frame (h8 : 8 ≤ k) (h17 : k ≤ 17) : s.Frame [k] [] (setConfig s k v) := by
  have hreg : ∀ j, j ≠ k → (setConfig s k v).register j = s.register j := by
    intro j hj
    unfold State.register
    interval_cases k <;> split <;> first | rfl | omega
  refine ⟨fun j hj => hreg j (by simpa using hj), ?_⟩
  interval_cases k <;> exact ⟨fun _ _ _ => rfl, rfl, rfl, rfl⟩

/-! ## Writes to length registers -/

/-- A write of the length register of a space that is served (10_state.md R38); PLAN has none. -/
def setLength (s : State) (sp : Space) (v : Word) : State :=
  match sp with
  | .txt => s.setTextLen v
  | .bits => s.setBitsLen v
  | .wave => s.setWaveLen v
  | .plan => s

theorem hostWriteReg_length (hsp : sp ≠ .plan) :
    s.hostWriteReg (4 + sp.id) v = if v.toNat ≤ s.writableElements sp then setLength s sp v else s.hostAcc := by
  cases sp with
  | plan => exact absurd rfl hsp
  | txt => rfl
  | bits => rfl
  | wave => rfl

theorem hostWriteReg_length_of_le (hsp : sp ≠ .plan) (hv : v.toNat ≤ s.writableElements sp) :
    s.hostWriteReg (4 + sp.id) v = setLength s sp v := by
  rw [hostWriteReg_length hsp, if_pos hv]

theorem hostWriteReg_length_of_not_le (hsp : sp ≠ .plan) (hv : ¬ v.toNat ≤ s.writableElements sp) :
    s.hostWriteReg (4 + sp.id) v = s.hostAcc := by
  rw [hostWriteReg_length hsp, if_neg hv]

@[simp] theorem setLength_mode : (setLength s sp v).mode = s.mode := by cases sp <;> rfl

@[simp] theorem setLength_errs : (setLength s sp v).errs = s.errs := by cases sp <;> rfl

theorem setLength_register (hsp : sp ≠ .plan) : (setLength s sp v).register (4 + sp.id) = some v := by
  cases sp with
  | plan => exact absurd rfl hsp
  | txt => rfl
  | bits => rfl
  | wave => rfl

theorem setLength_frame (s : State) (sp : Space) (v : Word) : s.Frame [4 + sp.id] [sp] (setLength s sp v) := by
  cases sp with
  | txt => exact s.setTextLen_frame v
  | bits => exact s.setBitsLen_frame v
  | wave => exact s.setWaveLen_frame v
  | plan => exact .refl _ _ _

theorem setLength_element {i : Nat} (hi : i < v.toNat) : (setLength s sp v).element sp i = s.element sp i := by
  cases sp with
  | txt => exact congrArg BitVec.toNat (Buf.get_relength _ _ hi)
  | bits => exact congrArg BitVec.toNat (Buf.get_relength _ _ hi)
  | wave => exact congrArg BitVec.toNat (Buf.get_relength _ _ hi)
  | plan => rfl

/-- Below the new length a buffer lists what it listed. -/
theorem relength_keys {w : Nat} {b : Buf w} {old new i : Nat} (hi : i < new) :
    i ∈ (b.relength old new).cells.map Prod.fst ↔ i ∈ b.cells.map Prod.fst := by
  unfold Buf.relength
  split
  · simp [hi]
  · rfl

theorem not_mem_relength_keys {w : Nat} {b : Buf w} {old new i : Nat} (hfall : new < old) (hi : new ≤ i) :
    i ∉ (b.relength old new).cells.map Prod.fst := by
  intro hmem
  obtain ⟨c, hc, rfl⟩ := List.mem_map.mp hmem
  exact absurd (Buf.relength_below b hfall hc) (not_lt.mpr hi)

theorem setLength_specified {i : Nat} (hi : i < v.toNat) : (setLength s sp v).Specified sp i ↔ s.Specified sp i := by
  cases sp with
  | txt => exact relength_keys hi
  | bits => exact relength_keys hi
  | wave => exact relength_keys hi
  | plan => exact Iff.rfl

theorem setLength_not_specified {i : Nat} (hsp : sp ≠ .plan) (hfall : v.toNat < s.lengthOf sp) (hi : v.toNat ≤ i) :
    ¬ (setLength s sp v).Specified sp i := by
  cases sp with
  | txt => exact not_mem_relength_keys hfall hi
  | bits => exact not_mem_relength_keys hfall hi
  | wave => exact not_mem_relength_keys hfall hi
  | plan => exact absurd rfl hsp

/-- A length that does not fall leaves the memory as it is. -/
theorem setLength_mem (hle : s.lengthOf sp ≤ v.toNat) : (setLength s sp v).mem = s.mem := by
  cases sp with
  | txt => exact congrArg (fun b => { s.mem with txt := b }) (Buf.relength_of_le _ hle)
  | bits => exact congrArg (fun b => { s.mem with bits := b }) (Buf.relength_of_le _ hle)
  | wave => exact congrArg (fun b => { s.mem with wave := b }) (Buf.relength_of_le _ hle)
  | plan => rfl

/-! ## Elements of equal memories -/

theorem element_congr (h : t.mem = s.mem) (sp : Space) (i : Nat) : t.element sp i = s.element sp i := by
  simp only [State.element, h]

theorem specified_congr (h : t.mem = s.mem) (sp : Space) (i : Nat) : t.Specified sp i ↔ s.Specified sp i := by
  simp only [State.Specified, h]

theorem frame_of_mem_eq {regs : List Nat} {sps : List Space} (hf : s.Frame regs sps t) (hmem : t.mem = s.mem) :
    s.Frame regs [] t :=
  ⟨hf.1, fun sp _ i => element_congr hmem sp i, hf.2.2⟩

/-! ## Writes to buffers -/

/-- A write of an element of a buffer that is served (20_memory.md R54); PLAN is read only. -/
def setElement (s : State) (sp : Space) (i : Nat) (v : Word) : State :=
  match sp with
  | .txt => { s with mem := { s.mem with txt := s.mem.txt.set i v } }
  | .bits => { s with mem := { s.mem with bits := s.mem.bits.set i (v.setWidth 1) } }
  | .wave => { s with mem := { s.mem with wave := s.mem.wave.set i (v.setWidth 16) } }
  | .plan => s

theorem hostWriteBuf_plan (s : State) (i : Nat) (v : Word) : s.hostWriteBuf .plan i v = s.hostAcc := by
  unfold State.hostWriteBuf
  split <;> rfl

theorem hostWriteBuf_eq (s : State) (sp : Space) (i : Nat) (v : Word) :
    s.hostWriteBuf sp i v = if i < s.writableElements sp then setElement s sp i v else s.hostAcc := by
  cases sp with
  | plan => exact hostWriteBuf_plan s i v
  | txt => exact (if_congr not_lt.symm rfl rfl).trans (ite_not ..)
  | bits => exact (if_congr not_lt.symm rfl rfl).trans (ite_not ..)
  | wave => exact (if_congr not_lt.symm rfl rfl).trans (ite_not ..)

@[simp] theorem setElement_mode {i : Nat} : (setElement s sp i v).mode = s.mode := by cases sp <;> rfl

@[simp] theorem setElement_errs {i : Nat} : (setElement s sp i v).errs = s.errs := by cases sp <;> rfl

theorem setElement_frame (s : State) (sp : Space) (i : Nat) (v : Word) : s.Frame [] [sp] (setElement s sp i v) := by
  have hother : ∀ sp', sp' ≠ sp → ∀ j, (setElement s sp i v).element sp' j = s.element sp' j := by
    intro sp' hsp' j
    cases sp <;> cases sp' <;> first | rfl | exact absurd rfl hsp'
  refine ⟨?_, fun sp' hsp' => hother sp' (by simpa using hsp'), ?_⟩
  · cases sp <;> exact fun _ _ => rfl
  · cases sp <;> exact ⟨rfl, rfl, rfl⟩

/-! ## What a host move answers -/

/-- Every state that a move other than reset and other than a command leaves. -/
inductive MoveResult (s : State) : State → Prop where
  /-- A read that is served. -/
  | answered {d : HostData} : MoveResult s (s.answer d)
  /-- A read out of range or of an unimplemented register. -/
  | unreadable {d : HostData} : MoveResult s (s.hostAcc.answer d)
  /-- A write out of range, to a read-only register or element, or to an unimplemented register. -/
  | unwritable : MoveResult s s.hostAcc
  /-- A write to a locked configuration register. -/
  | locked : s.mode ≠ .unconfigured → MoveResult s s.lockWr
  | arg {v : Word} : MoveResult s { s with arg := v }
  | config {k : Nat} {v : Word} : s.mode = .unconfigured → MoveResult s (setConfig s k v)
  | length {sp : Space} {v : Word} : v.toNat ≤ s.writableElements sp → MoveResult s (setLength s sp v)
  | element {sp : Space} {i : Nat} {v : Word} : i < s.writableElements sp → MoveResult s (setElement s sp i v)

theorem hostWriteReg_result (hk : k ≠ 0) : MoveResult s (s.hostWriteReg k v) := by
  have length_result (sp : Space) (hsp : sp ≠ .plan) : MoveResult s (s.hostWriteReg (4 + sp.id) v) := by
    by_cases hv : v.toNat ≤ s.writableElements sp
    · exact hostWriteReg_length_of_le hsp hv ▸ .length hv
    · exact hostWriteReg_length_of_not_le hsp hv ▸ .unwritable
  have hcases : k = 1 ∨ (k = 2 ∨ k = 3 ∨ k = 4 ∨ 18 ≤ k) ∨ k = 5 ∨ k = 6 ∨ k = 7 ∨ (8 ≤ k ∧ k ≤ 17) := by omega
  obtain rfl | hro | rfl | rfl | rfl | ⟨h8, h17⟩ := hcases
  · exact .arg
  · exact hostWriteReg_readOnly hro ▸ .unwritable
  · exact length_result .txt nofun
  · exact length_result .bits nofun
  · exact length_result .wave nofun
  · by_cases hm : s.mode = .unconfigured
    · exact hostWriteReg_unconfigured h8 h17 hm ▸ .config hm
    · exact hostWriteReg_locked h8 h17 hm ▸ .locked hm

theorem hostReadReg_result (s : State) (k : Nat) : MoveResult s (s.hostReadReg k) := by
  by_cases hk : k < 19
  · exact hostReadReg_of_some (register_of_lt hk) ▸ .answered
  · exact hostReadReg_of_none (register_of_ge (not_lt.mp hk)) ▸ .unreadable

theorem hostWriteBuf_result (s : State) (sp : Space) (i : Nat) (v : Word) : MoveResult s (s.hostWriteBuf sp i v) := by
  rw [hostWriteBuf_eq]
  split
  · next hi => exact .element hi
  · exact .unwritable

theorem ite_read_result (s : State) (c : Prop) [Decidable c] (d e : HostData) :
    MoveResult s (if c then s.hostAcc.answer d else s.answer e) := by
  split
  · exact .unreadable
  · exact .answered

theorem hostReadBuf_result (s : State) (sp : Space) (i : Nat) : MoveResult s (s.hostReadBuf sp i) := by
  cases sp <;> exact ite_read_result s _ _ _

theorem hostMove_result {m : HostMove} (hcmd : m.commandWord = none) (hreset : m ≠ .reset) :
    MoveResult s (s.hostMove m) := by
  cases m with
  | reset => exact absurd rfl hreset
  | writeReg k v =>
    refine hostWriteReg_result fun hk => ?_
    subst hk
    cases hcmd
  | readReg k => exact hostReadReg_result s k
  | writeBuf sp i v => exact hostWriteBuf_result s sp i v
  | readBuf sp i => exact hostReadBuf_result s sp i

/-! ## What a step answers -/

theorem step_command (h : s.pending = .writeReg 0 v :: rest) : step s = command v { s with pending := rest } := by
  simp only [step, h]
  rfl

theorem step_hostMove {m : HostMove} (h : s.pending = m :: rest) (hm : m.commandWord = none) :
    step s = .next (State.hostMove { s with pending := rest } m) := by
  simp only [step, h, serve, hm]

theorem command_of_decode {i : Instr} (h : decode v = .ok i) : command v s = exec i s := by
  simp only [command, h]

theorem eq_writeReg_of_commandWord {m : HostMove} (h : m.commandWord = some v) : m = .writeReg 0 v := by
  cases m with
  | writeReg k u =>
    simp only [HostMove.commandWord, Option.ite_none_right_eq_some, Option.some.injEq] at h
    rw [h.1, h.2]
  | reset => cases h
  | readReg k => cases h
  | writeBuf sp i u => cases h
  | readBuf sp i => cases h

/-- Every state a step can answer, with the move that leads to it. -/
inductive StepResult (s : State) : State → Prop where
  | idle : s.pending = [] → StepResult s s
  | reset {rest : List HostMove} : s.pending = .reset :: rest →
      StepResult s (State.hostReset { s with pending := rest })
  | move {m : HostMove} {rest : List HostMove} {t : State} : s.pending = m :: rest →
      MoveResult { s with pending := rest } t → StepResult s t
  | illegal {v : Word} {rest : List HostMove} : s.pending = .writeReg 0 v :: rest →
      StepResult s (State.raise { s with pending := rest } .eIllegal v)
  | command {v : Word} {i : Instr} {rest : List HostMove} {t : State} : s.pending = .writeReg 0 v :: rest →
      decode v = .ok i → CommandResult { s with pending := rest } i t → StepResult s t

theorem step_result_of_command (hp : s.pending = .writeReg 0 v :: rest) (h : step s = .next t) : StepResult s t := by
  rw [step_command hp] at h
  cases hd : decode v with
  | error r =>
    simp only [command, hd, Host.Outcome.next.injEq] at h
    exact h ▸ .illegal hp
  | ok i => exact .command hp hd (exec_result (command_of_decode hd ▸ h))

theorem step_result (h : step s = .next t) : StepResult s t := by
  cases hp : s.pending with
  | nil =>
    simp only [step, hp, Host.Outcome.next.injEq] at h
    exact h ▸ .idle hp
  | cons m rest =>
    cases hm : m.commandWord with
    | some v => exact step_result_of_command (eq_writeReg_of_commandWord hm ▸ hp) h
    | none =>
      rw [step_hostMove hp hm, Host.Outcome.next.injEq] at h
      subst h
      by_cases hr : m = .reset
      · subst hr
        exact .reset hp
      · exact .move hp (hostMove_result hm hr)

/-! ## Decoding -/

theorem encodedFields (i : Instr) : EncodedFields.Statement i := by
  cases i with
  | cfg => exact EncodedFields.cfg
  | tnorm => exact EncodedFields.tnorm
  | t2b => exact EncodedFields.t2b
  | repx => exact EncodedFields.repx
  | fmod => exact EncodedFields.fmod
  | cmod => exact EncodedFields.cmod
  | fdem => exact EncodedFields.fdem
  | cdem => exact EncodedFields.cdem
  | repc => exact EncodedFields.repc
  | b2t => exact EncodedFields.b2t

theorem decode_encode (i : Instr) : decode (encode i) = .ok i := by
  obtain ⟨-, hmbz, hopc, hmap⟩ := encodedFields i
  simp only [decode, hmbz, hopc, hmap, ne_eq, not_true_eq_false, if_false]

theorem eq_opcode_of_decodeOpc {n : Nat} {i : Instr} (h : decodeOpc n = some i) : n = i.opcode.toNat := by
  unfold decodeOpc at h
  split at h <;> cases h <;> rfl

/-- A word is its two fields (30_encoding.md R70). -/
theorem mbzField_append_opcField (v : Word) : mbzField v ++ opcField v = v := by
  refine BitVec.eq_of_getLsbD_eq fun i hi => ?_
  rw [BitVec.getLsbD_append]
  split
  · next h => simp [opcField, h]
  · next h => simp [mbzField, show i - 8 < 24 by omega, show 8 + (i - 8) = i by omega]

/-- No word but its own stands for a command (30_encoding.md R71, R73). -/
theorem eq_encode_of_decode {i : Instr} (h : decode v = .ok i) : v = encode i := by
  unfold decode at h
  split at h
  · cases h
  · next hmbz =>
    split at h
    · next j hj =>
      cases h
      have hopc : opcField v = i.opcode := BitVec.eq_of_toNat_eq (eq_opcode_of_decodeOpc hj)
      rw [← mbzField_append_opcField v, not_not.mp hmbz, hopc]
      rfl
    · cases h

end

end Sys2Proof.Proofs
end

section
/-! PROOFS. The invariant of 10_state.md is kept by every step (R25, R38, R46): what it needs of buffers, errors, lengths
and the configuration, then every answer of a step. -/

namespace Sys2Proof.Proofs

open Sys2Proof.Machine Sys2Proof.Laws

/-! ## Buffers within their capacity -/

/-- A buffer in canonical form whose listed elements lie below `n`. -/
def BufWithin {w : Nat} (b : Buf w) (n : Nat) : Prop := b.wf ∧ ∀ c ∈ b.cells, c.1 < n

section
variable {w n : Nat} {b : Buf w}

theorem bufWithin_replace {xs : List (BitVec w)} (h : xs.length ≤ n) : BufWithin (b.replace xs) n :=
  ⟨b.replace_wf xs, fun _ hc => (b.replace_below hc).trans_le h⟩

theorem bufWithin_set (hb : BufWithin b n) {i : Nat} (hi : i < n) (v : BitVec w) : BufWithin (b.set i v) n := by
  refine ⟨b.set_wf i v hb.1, fun c hc => ?_⟩
  obtain rfl | hc := mem_putCell hc
  · exact hi
  · exact hb.2 c hc

theorem bufWithin_relength (hb : BufWithin b n) (old new : Nat) : BufWithin (b.relength old new) n :=
  ⟨b.relength_wf hb.1, fun c hc => hb.2 c (b.mem_relength hc)⟩

end

section
variable {s t : State}

theorem bufWithin_buffers (h : s.Inv) : BufWithin s.mem.txt s.inst.txtMax ∧ BufWithin s.mem.bits s.inst.bitMax ∧
    BufWithin s.mem.wave s.inst.waveMax := by
  obtain ⟨hwfTxt, hwfBits, hwfWave, -⟩ := h.memWf
  obtain ⟨hltTxt, hltBits, hltWave, -⟩ := h.cellsBelow
  exact ⟨⟨hwfTxt, hltTxt⟩, ⟨hwfBits, hltBits⟩, ⟨hwfWave, hltWave⟩⟩

/-- The invariant asks of TXT and TXT_LEN no more than that they stay within the capacity. -/
theorem inv_with_txt (h : s.Inv) {b : Buf 32} {len : Word} (hb : BufWithin b s.inst.txtMax)
    (hlen : len.toNat ≤ s.inst.txtMax) : State.Inv { s with mem := { s.mem with txt := b }, txtLen := len } := by
  obtain ⟨-, hwf⟩ := h.memWf
  obtain ⟨-, hbelow⟩ := h.cellsBelow
  obtain ⟨-, hlens⟩ := h.lengths
  exact { h with memWf := ⟨hb.1, hwf⟩, cellsBelow := ⟨hb.2, hbelow⟩, lengths := ⟨hlen, hlens⟩ }

/-- The same of BITS and BITS_LEN. -/
theorem inv_with_bits (h : s.Inv) {b : Buf 1} {len : Word} (hb : BufWithin b s.inst.bitMax)
    (hlen : len.toNat ≤ s.inst.bitMax) : State.Inv { s with mem := { s.mem with bits := b }, bitsLen := len } := by
  obtain ⟨hwfTxt, -, hwf⟩ := h.memWf
  obtain ⟨hltTxt, -, hbelow⟩ := h.cellsBelow
  obtain ⟨hlenTxt, -, hlenWave⟩ := h.lengths
  exact { h with
    memWf := ⟨hwfTxt, hb.1, hwf⟩, cellsBelow := ⟨hltTxt, hb.2, hbelow⟩, lengths := ⟨hlenTxt, hlen, hlenWave⟩ }

/-- The same of WAVE and WAVE_LEN. -/
theorem inv_with_wave (h : s.Inv) {b : Buf 16} {len : Word} (hb : BufWithin b s.inst.waveMax)
    (hlen : len.toNat ≤ s.inst.waveMax) : State.Inv { s with mem := { s.mem with wave := b }, waveLen := len } := by
  obtain ⟨hwfTxt, hwfBits, -, hwfPlan⟩ := h.memWf
  obtain ⟨hltTxt, hltBits, -, hltPlan⟩ := h.cellsBelow
  obtain ⟨hlenTxt, hlenBits, -⟩ := h.lengths
  exact { h with
    memWf := ⟨hwfTxt, hwfBits, hb.1, hwfPlan⟩
    cellsBelow := ⟨hltTxt, hltBits, hb.2, hltPlan⟩
    lengths := ⟨hlenTxt, hlenBits, hlen⟩ }

theorem toNat_ofNat_le {n m : Nat} (h : n ≤ m) : (BitVec.ofNat 32 n).toNat ≤ m :=
  (BitVec.toNat_ofNat n 32).symm ▸ (Nat.mod_le _ _).trans h

theorem inv_putText (h : s.Inv) {xs : List Word} (hx : xs.length ≤ s.inst.txtMax) : (s.putText xs).Inv :=
  inv_with_txt h (bufWithin_replace hx) (toNat_ofNat_le hx)

theorem inv_putBits (h : s.Inv) {xs : List Bit} (hx : xs.length ≤ s.inst.bitMax) : (s.putBits xs).Inv :=
  inv_with_bits h (bufWithin_replace hx) (toNat_ofNat_le hx)

theorem inv_putWave (h : s.Inv) {xs : List Sample} (hx : xs.length ≤ s.inst.waveMax) : (s.putWave xs).Inv :=
  inv_with_wave h (bufWithin_replace hx) (toNat_ofNat_le hx)

theorem inv_setLength (h : s.Inv) {sp : Space} {v : Word} (hv : v.toNat ≤ s.writableElements sp) :
    (setLength s sp v).Inv := by
  obtain ⟨htxt, hbits, hwave⟩ := bufWithin_buffers h
  cases sp with
  | txt => exact inv_with_txt h (bufWithin_relength htxt _ _) hv
  | bits => exact inv_with_bits h (bufWithin_relength hbits _ _) hv
  | wave => exact inv_with_wave h (bufWithin_relength hwave _ _) hv
  | plan => exact h

theorem inv_setElement (h : s.Inv) {sp : Space} {i : Nat} {v : Word} (hi : i < s.writableElements sp) :
    (setElement s sp i v).Inv := by
  obtain ⟨htxt, hbits, hwave⟩ := bufWithin_buffers h
  obtain ⟨hlenTxt, hlenBits, hlenWave⟩ := h.lengths
  cases sp with
  | txt => exact inv_with_txt h (bufWithin_set htxt hi v) hlenTxt
  | bits => exact inv_with_bits h (bufWithin_set hbits hi (v.setWidth 1)) hlenBits
  | wave => exact inv_with_wave h (bufWithin_set hwave hi (v.setWidth 16)) hlenWave
  | plan => exact h

/-! ## Errors, completions and flags -/

/-- Bit `n` is one of the bits of ERRS that something sets. -/
abbrev DefinedErr (n : Nat) : Prop := bitWord n &&& ~~~errsDefined = 0

theorem definedErr_code {e : ErrCode} (he : e ≠ .eNone) : DefinedErr e.code := by
  cases e with
  | eNone => exact absurd rfl he
  | _ => decide

theorem inv_setErr (h : s.Inv) {n : Nat} (hn : DefinedErr n) : (s.setErr n).Inv :=
  { h with
    errsReserved := by
      rw [State.setErr_errs, BitVec.and_or_distrib_right, h.errsReserved, hn, BitVec.or_self]
    lastRecorded := fun hl => by
      rw [State.setErr_errs, State.setErr_last, BitVec.getLsbD_or, h.lastRecorded hl, Bool.true_or] }

theorem inv_raise (h : s.Inv) {e : ErrCode} (he : e ≠ .eNone) (info : Word) : (s.raise e info).Inv := by
  obtain ⟨-, -, herrs, -⟩ := s.raise_raised e info
  have hrecorded : (s.raise e info).errs.getLsbD e.code = true := by
    rw [herrs, decide_eq_true rfl, Bool.or_true]
  exact { inv_setErr h (definedErr_code he) with lastRecorded := fun _ => hrecorded }

theorem inv_complete (h : s.Inv) (info : Word) : (s.complete info).Inv :=
  { h with lastRecorded := fun hl => absurd rfl hl }

/-- A walk with no window to inspect gathers nothing (45_carousel_demodulator.md R153). -/
theorem cdemResult_short (h : (s.wLen : Int) - s.pLen ≤ s.fLen) : s.cdemResult.2 = [] := by
  unfold State.cdemResult
  cases s.wLen with
  | zero => rfl
  | succ n =>
    rw [State.walk, if_neg]
    exact fun hgo => absurd hgo.1 (not_lt.mpr h)

theorem inv_setWalkFlags (h : s.Inv) {w p f n : Nat} (hshort : (w : Int) - p ≤ f → n = 0) :
    (s.setWalkFlags w p f n).Inv :=
  { h with
    flags := by
      simp only [State.setWalkFlags_short, State.setWalkFlags_nosig, State.setWalkFlags_caphit, decide_eq_true_eq,
        decide_eq_false_iff_not]
      exact ⟨hshort, fun hcap => by omega⟩ }

/-! ## The configuration -/

theorem maskOf_eq_zero {l : List Bool} (h : maskOf l = 0) : ∀ b ∈ l, b = false := by
  induction l with
  | nil => exact nofun
  | cons a t ih =>
    rw [maskOf] at h
    have ha : a = false := Bool.toNat_eq_zero.mp (by omega)
    have ht : maskOf t = 0 := by omega
    simpa [ha] using ih ht

theorem nChan_le_of_configMask (h : s.configMask = 0) : s.nChan ≤ s.inst.nMax := by
  have hcheck := maskOf_eq_zero h (decide (s.inst.nMax < s.channelCount.toNat)) (by simp [State.configChecks])
  exact not_lt.mp (of_decide_eq_false hcheck)

theorem inv_setConfig (h : s.Inv) (hm : s.mode = .unconfigured) (k : Nat) (v : Word) : (setConfig s k v).Inv := by
  have hready : s.mode ≠ .ready := by rw [hm]; decide
  have hfailed : s.mode ≠ .failed := by rw [hm]; decide
  unfold setConfig
  split <;>
    exact { h with rejected := fun hf => absurd hf hfailed, planned := fun hr => absurd hr hready }

theorem inv_rejected (h : s.Inv) (hm : s.mode = .unconfigured) (hmask : s.configMask ≠ 0) :
    State.Inv { s with mode := .failed } :=
  { h with
    unplanned := fun _ => h.unplanned (by rw [hm]; decide)
    rejected := fun _ => hmask
    planned := nofun }

theorem planOf_length (fmin fmax n : Nat) : (planOf fmin fmax n).length = n := by simp [planOf]

theorem planDenOf_lt {n : Nat} (h : n < 2 ^ 32) : planDenOf n < 2 ^ 32 := by
  unfold planDenOf
  omega

theorem inv_accepted (h : s.Inv) (hmask : s.configMask = 0) :
    State.Inv { s.putPlan (planDenOf s.nChan) (planOf s.freqMin.toNat s.freqMax.toNat s.nChan) with mode := .ready } := by
  have hlen : (planOf s.freqMin.toNat s.freqMax.toNat s.nChan).length = s.nChan := planOf_length _ _ _
  have hplan : BufWithin (s.mem.plan.replace (planOf s.freqMin.toNat s.freqMax.toNat s.nChan)) s.inst.nMax :=
    bufWithin_replace (hlen.le.trans (nChan_le_of_configMask hmask))
  have htake := s.mem.plan.take_replace .plan (planOf s.freqMin.toNat s.freqMax.toNat s.nChan)
  rw [hlen] at htake
  obtain ⟨hwfTxt, hwfBits, hwfWave, -⟩ := h.memWf
  obtain ⟨hltTxt, hltBits, hltWave, -⟩ := h.cellsBelow
  exact { h with
    memWf := ⟨hwfTxt, hwfBits, hwfWave, hplan.1⟩
    cellsBelow := ⟨hltTxt, hltBits, hltWave, hplan.2⟩
    unplanned := fun hne => absurd rfl hne
    rejected := nofun
    planned := fun _ =>
      ⟨hmask, (BitVec.toNat_ofNat _ _).trans (Nat.mod_eq_of_lt (planDenOf_lt s.channelCount.isLt)), htake⟩ }

theorem inv_hostReset (h : s.Inv) : s.hostReset.Inv where
  instWf := h.instWf
  memWf := ⟨Buf.forget_wf _, Buf.forget_wf _, Buf.forget_wf _, Buf.forget_wf _⟩
  cellsBelow := ⟨nofun, nofun, nofun, nofun⟩
  lengths := ⟨Nat.zero_le _, Nat.zero_le _, Nat.zero_le _⟩
  errsReserved := BitVec.zero_and
  lastRecorded := fun hl => absurd rfl hl
  flags := ⟨nofun, nofun⟩
  unplanned := fun _ => rfl
  rejected := nofun
  planned := nofun

/-! ## What a command writes fits its destination -/

theorem bitCap_add_nMax_le {c : Instance} (h : c.wf = true) : c.bitCap + c.nMax ≤ c.bitMax := by
  obtain ⟨-, -, hbit, -⟩ := (wf_iff c).mp h
  simp only [Instance.bitMaxOk, Bool.and_eq_true, decide_eq_true_eq] at hbit
  exact hbit.1.2

theorem cdemResult_length_le (h : s.Inv) (hm : s.mode = .ready) : s.cdemResult.2.length ≤ s.inst.bitMax := calc
  s.cdemResult.2.length ≤ s.inst.bitCap + s.nChan := walk_length_le s _ _ [] (Nat.zero_le _)
  _ ≤ s.inst.bitCap + s.inst.nMax := Nat.add_le_add_left (nChan_le_of_configMask (h.planned hm).1) _
  _ ≤ s.inst.bitMax := bitCap_add_nMax_le h.instWf

theorem inv_commandResult {i : Instr} (h : s.Inv) (hr : CommandResult s i t) : t.Inv := by
  obtain ⟨htxt, hbits, -⟩ := h.lengths
  cases hr with
  | raised he _ => exact inv_raise h he _
  | rejected hm hmask => exact inv_raise (e := .eConfig) (inv_rejected h hm hmask) nofun _
  | accepted _ hmask => exact inv_complete (inv_accepted h hmask) _
  | @text _ xs info _ hx =>
    refine inv_complete (inv_putText h ?_) _
    obtain ⟨-, rfl⟩ | ⟨-, -, hfit⟩ := hx
    · exact (collapse_length_le _ _).trans (s.text_length.le.trans htxt)
    · exact hfit
  | @bits _ xs info _ hx =>
    refine inv_complete (inv_putBits h ?_) _
    obtain ⟨-, rfl, hfit⟩ | ⟨-, rfl, hfit⟩ | ⟨-, rfl, hfit⟩ | ⟨-, rfl⟩ := hx
    · rwa [textBits_length, State.text_length]
    · rwa [doubleBits_length, State.bits_length]
    · exact (fdemWindow_length_le s _).trans hfit
    · rw [collapsePairs_length, State.bits_length]
      exact (Nat.div_le_self _ _).trans hbits
  | walked hm =>
    refine inv_complete (inv_setWalkFlags (inv_putBits h (cdemResult_length_le h hm)) fun hs => ?_) _
    rw [cdemResult_short hs, List.length_nil]
  | @wave _ xs info _ hx =>
    refine inv_complete (inv_putWave h ?_) _
    obtain ⟨-, rfl, hfit⟩ | ⟨-, rfl, hfit⟩ := hx
    · exact (frame_length_le s _).trans hfit
    · exact (carousel_length_le s).trans hfit

theorem inv_moveResult (h : s.Inv) (hr : MoveResult s t) : t.Inv := by
  have hacc : s.hostAcc.Inv := inv_setErr h (n := hostAccBit) (by decide)
  cases hr with
  | answered => exact { h with }
  | unreadable => exact { hacc with }
  | unwritable => exact hacc
  | locked => exact inv_setErr h (n := lockWrBit) (by decide)
  | arg => exact { h with }
  | config hm => exact inv_setConfig h hm _ _
  | length hv => exact inv_setLength h hv
  | element hi => exact inv_setElement h hi

/-- Settles O15: every answer of a step keeps the invariant. -/
theorem invariantKeptByStep : Obligations.InvariantKeptByStep := by
  unfold Obligations.InvariantKeptByStep
  intro s t h hstep
  have hrest (rest : List HostMove) : State.Inv { s with pending := rest } := { h with }
  cases step_result hstep with
  | idle => exact h
  | reset => exact inv_hostReset (hrest _)
  | move _ hr => exact inv_moveResult (hrest _) hr
  | illegal => exact inv_raise (e := .eIllegal) (hrest _) nofun _
  | command _ _ hr => exact inv_commandResult (hrest _) hr

end

end Sys2Proof.Proofs
end

section
/-! PROOFS. The other statements of 10_state.md: the fields of STATUS, what a step keeps of STATE, ERRS and the
configuration, the host's accesses to registers, and the step at a write to CMD. -/

namespace Sys2Proof.Proofs

open Sys2Proof.Machine Sys2Proof.Laws

section
variable {s t : State} {i : Instr} {rest : List HostMove}

/-! ## STATE and the flags of CDEM -/

/-- Only the verdict of CFG moves STATE (10_state.md R46). -/
theorem commandResult_mode (hr : CommandResult s i t) (hne : t.mode ≠ s.mode) :
    i = .cfg ∧ s.mode = .unconfigured ∧ (t.mode = .ready ∨ t.mode = .failed) := by
  cases hr with
  | raised => exact absurd rfl hne
  | rejected hm _ => exact ⟨rfl, hm, Or.inr rfl⟩
  | accepted hm _ => exact ⟨rfl, hm, Or.inl rfl⟩
  | text => exact absurd rfl hne
  | bits => exact absurd rfl hne
  | walked => exact absurd rfl hne
  | wave => exact absurd rfl hne

theorem commandResult_flags (hr : CommandResult s i t) (hi : i ≠ .cdem) :
    t.nosig = s.nosig ∧ t.caphit = s.caphit ∧ t.short = s.short := by
  cases hr with
  | raised => exact ⟨rfl, rfl, rfl⟩
  | rejected => exact ⟨rfl, rfl, rfl⟩
  | accepted => exact ⟨rfl, rfl, rfl⟩
  | text => exact ⟨rfl, rfl, rfl⟩
  | bits => exact ⟨rfl, rfl, rfl⟩
  | walked => exact absurd rfl hi
  | wave => exact ⟨rfl, rfl, rfl⟩

/-- Settles O13: of the answers of a command only CFG's verdicts hold a new STATE and only CDEM's walk new flags. -/
theorem flagsWrittenByCdemOnly : Obligations.FlagsWrittenByCdemOnly := by
  unfold Obligations.FlagsWrittenByCdemOnly
  intro i s t h
  have hr := exec_result h
  exact ⟨fun hi => by_contra fun hne => hi (commandResult_mode hr hne).1, commandResult_flags hr⟩

theorem moveResult_mode (hr : MoveResult s t) : t.mode = s.mode := by
  cases hr with
  | answered => rfl
  | unreadable => rfl
  | unwritable => rfl
  | locked => rfl
  | arg => rfl
  | config => exact setConfig_mode
  | length => exact setLength_mode
  | element => exact setElement_mode

/-- Settles O17: a step moves STATE at reset, or at the one word that decodes to CFG. -/
theorem stateTransitions : Obligations.StateTransitions := by
  unfold Obligations.StateTransitions
  intro s t hstep hne
  cases step_result hstep with
  | idle => exact absurd rfl hne
  | reset hp => exact Or.inl ⟨rfl, _, hp⟩
  | move _ hr => exact absurd (moveResult_mode hr) hne
  | illegal => exact absurd rfl hne
  | command hp hd hr =>
    obtain ⟨rfl, hm, ht⟩ := commandResult_mode hr hne
    exact Or.inr ⟨hm, ht, _, eq_encode_of_decode hd ▸ hp⟩

/-! ## ERRS -/

theorem setErr_keeps {b : Nat} (s : State) (n : Nat) (hb : s.errs.getLsbD b = true) :
    (s.setErr n).errs.getLsbD b = true := by
  rw [State.setErr_errs, BitVec.getLsbD_or, hb, Bool.true_or]

theorem commandResult_keeps_errs {b : Nat} (hr : CommandResult s i t) (hb : s.errs.getLsbD b = true) :
    t.errs.getLsbD b = true := by
  cases hr with
  | @raised _ e _ _ _ => exact setErr_keeps s e.code hb
  | rejected => exact setErr_keeps s ErrCode.eConfig.code hb
  | accepted => exact hb
  | text => exact hb
  | bits => exact hb
  | walked => exact hb
  | wave => exact hb

theorem moveResult_keeps_errs {b : Nat} (hr : MoveResult s t) (hb : s.errs.getLsbD b = true) :
    t.errs.getLsbD b = true := by
  cases hr with
  | answered => exact hb
  | unreadable => exact setErr_keeps s hostAccBit hb
  | unwritable => exact setErr_keeps s hostAccBit hb
  | locked => exact setErr_keeps s lockWrBit hb
  | arg => exact hb
  | config => rwa [setConfig_errs]
  | length => rwa [setLength_errs]
  | element => rwa [setElement_errs]

/-- Settles O18: every answer but reset's holds ERRS as it was or with one bit more. -/
theorem errsIsSticky : Obligations.ErrsIsSticky := by
  unfold Obligations.ErrsIsSticky
  intro s t b hstep hb
  cases step_result hstep with
  | idle => exact Or.inl hb
  | reset hp => exact Or.inr ⟨_, hp⟩
  | move _ hr => exact Or.inl (moveResult_keeps_errs hr hb)
  | illegal => exact Or.inl (setErr_keeps s ErrCode.eIllegal.code hb)
  | command _ _ hr => exact Or.inl (commandResult_keeps_errs hr hb)

/-! ## The frozen configuration -/

/-- Registers 8 to 18, the entries of PLAN, STATE and the parameters of the block are the same. -/
def SameConfig (s t : State) : Prop :=
  (∀ k, 8 ≤ k → k ≤ 18 → t.register k = s.register k) ∧ (∀ i, t.element .plan i = s.element .plan i) ∧
    t.mode = s.mode ∧ t.inst = s.inst

/-- An event that writes registers below 8 and buffers other than PLAN, and leaves STATE, keeps the configuration. -/
theorem sameConfig_of_frame {regs : List Nat} {sps : List Space} (hf : s.Frame regs sps t) (hregs : ∀ k ∈ regs, k < 8)
    (hplan : .plan ∉ sps) (hm : t.mode = s.mode) : SameConfig s t := by
  obtain ⟨hreg, helem, hinst, -, -⟩ := hf
  exact ⟨fun k h8 _ => hreg k fun hk => absurd (hregs k hk) (not_lt.mpr h8), helem .plan hplan, hm, hinst⟩

theorem sameConfig_trans {u : State} (h : SameConfig s t) (h' : SameConfig t u) : SameConfig s u := by
  obtain ⟨hreg, helem, hm, hinst⟩ := h
  obtain ⟨hreg', helem', hm', hinst'⟩ := h'
  exact ⟨fun k h8 h18 => (hreg' k h8 h18).trans (hreg k h8 h18), fun i => (helem' i).trans (helem i), hm'.trans hm,
    hinst'.trans hinst⟩

theorem sameConfig_setErr (s : State) (n : Nat) : SameConfig s (s.setErr n) :=
  sameConfig_of_frame (s.setErr_frame n) (by decide) (by decide) rfl

theorem sameConfig_complete (s : State) (info : Word) : SameConfig s (s.complete info) :=
  sameConfig_of_frame (s.complete_frame info) (by decide) (by decide) rfl

theorem sameConfig_raise (s : State) (e : ErrCode) (info : Word) : SameConfig s (s.raise e info) := by
  obtain ⟨-, -, -, -, hframe⟩ := s.raise_raised e info
  exact sameConfig_of_frame hframe (by decide) (by decide) rfl

theorem sameConfig_answer (s : State) (d : HostData) : SameConfig s (s.answer d) :=
  ⟨fun _ _ _ => rfl, fun _ => rfl, rfl, rfl⟩

theorem commandResult_sameConfig (hr : CommandResult s i t) (hm : s.mode ≠ .unconfigured) : SameConfig s t := by
  cases hr with
  | raised => exact sameConfig_raise s _ _
  | rejected hu _ => exact absurd hu hm
  | accepted hu _ => exact absurd hu hm
  | text =>
    exact sameConfig_trans (sameConfig_of_frame (s.putText_frame _) (by decide) (by decide) rfl)
      (sameConfig_complete _ _)
  | bits =>
    exact sameConfig_trans (sameConfig_of_frame (s.putBits_frame _) (by decide) (by decide) rfl)
      (sameConfig_complete _ _)
  | walked =>
    exact sameConfig_trans (sameConfig_of_frame (s.putBits_frame _) (by decide) (by decide) rfl)
      (sameConfig_trans (sameConfig_of_frame (State.setWalkFlags_frame _ _ _ _ _) (by decide) (by decide) rfl)
        (sameConfig_complete _ _))
  | wave =>
    exact sameConfig_trans (sameConfig_of_frame (s.putWave_frame _) (by decide) (by decide) rfl)
      (sameConfig_complete _ _)

theorem sameConfig_setLength (s : State) (sp : Space) (v : Word) : SameConfig s (setLength s sp v) := by
  have hframe := setLength_frame s sp v
  cases sp with
  | txt => exact sameConfig_of_frame hframe (by decide) (by decide) rfl
  | bits => exact sameConfig_of_frame hframe (by decide) (by decide) rfl
  | wave => exact sameConfig_of_frame hframe (by decide) (by decide) rfl
  | plan => exact sameConfig_of_frame (.refl s [] []) (by decide) (by decide) rfl

theorem sameConfig_setElement (s : State) (sp : Space) (i : Nat) (v : Word) : SameConfig s (setElement s sp i v) := by
  have hframe := setElement_frame s sp i v
  cases sp with
  | txt => exact sameConfig_of_frame hframe (by decide) (by decide) rfl
  | bits => exact sameConfig_of_frame hframe (by decide) (by decide) rfl
  | wave => exact sameConfig_of_frame hframe (by decide) (by decide) rfl
  | plan => exact sameConfig_of_frame (.refl s [] []) (by decide) (by decide) rfl

theorem moveResult_sameConfig (hr : MoveResult s t) (hm : s.mode ≠ .unconfigured) : SameConfig s t := by
  cases hr with
  | answered => exact sameConfig_answer s _
  | unreadable => exact sameConfig_trans (sameConfig_setErr s hostAccBit) (sameConfig_answer _ _)
  | unwritable => exact sameConfig_setErr s hostAccBit
  | locked => exact sameConfig_setErr s lockWrBit
  | arg => exact sameConfig_of_frame (setArg_frame s _) (by decide) (by decide) rfl
  | config hu => exact absurd hu hm
  | length => exact sameConfig_setLength s _ _
  | element => exact sameConfig_setElement s _ _ _

/-- Settles O19: outside UNCONFIGURED no answer but reset's touches the configuration or its plan. -/
theorem frozenConfiguration : Obligations.FrozenConfiguration := by
  unfold Obligations.FrozenConfiguration
  intro s t hm hstep
  have hrest (rest : List HostMove) : SameConfig s { s with pending := rest } :=
    ⟨fun _ _ _ => rfl, fun _ => rfl, rfl, rfl⟩
  cases step_result hstep with
  | idle => exact Or.inr ⟨fun _ _ _ => rfl, fun _ => rfl, rfl, rfl⟩
  | reset hp => exact Or.inl ⟨_, hp⟩
  | move _ hr => exact Or.inr (sameConfig_trans (hrest _) (moveResult_sameConfig hr hm))
  | illegal => exact Or.inr (sameConfig_trans (hrest _) (sameConfig_raise _ _ _))
  | command _ _ hr => exact Or.inr (sameConfig_trans (hrest _) (commandResult_sameConfig hr hm))

/-! ## The host's accesses to registers -/

/-- Settles O22: the table of R21 read at its nineteen indices, and a read beyond it. -/
theorem registerReads : Obligations.RegisterReads := by
  unfold Obligations.RegisterReads
  intro s k rest hp
  refine ⟨_, step_hostMove hp rfl, fun hk => ⟨_, register_of_lt hk, ?_, rfl⟩, fun hk => ?_⟩
  · exact hostReadReg_of_some (s := { s with pending := rest }) (register_of_lt hk)
  · rw [State.hostMove, hostReadReg_of_none (register_of_ge hk)]
    exact ⟨rfl, fun b => setErr_getLsbD s hostAccBit b (by decide),
      State.setErr_frame { s with pending := rest, reply := some (.word 0) } hostAccBit⟩

/-- A write that is ignored sets ERRS.HOSTACC and nothing else (60_exceptions.md R175). -/
theorem hostAcc_spec (s : State) :
    (∀ b, s.hostAcc.errs.getLsbD b = (s.errs.getLsbD b || decide (b = 8))) ∧ s.Frame [3] [] s.hostAcc :=
  ⟨fun b => setErr_getLsbD s hostAccBit b (by decide), s.setErr_frame hostAccBit⟩

theorem lockWr_spec (s : State) :
    (∀ b, s.lockWr.errs.getLsbD b = (s.errs.getLsbD b || decide (b = 9))) ∧ s.Frame [3] [] s.lockWr :=
  ⟨fun b => setErr_getLsbD s lockWrBit b (by decide), s.setErr_frame lockWrBit⟩

/-- A write to any register but CMD is no command. -/
theorem step_writeReg {k : Nat} {v : Word} (hp : s.pending = .writeReg k v :: rest) (hk : k ≠ 0) :
    step s = .next (State.hostWriteReg { s with pending := rest } k v) :=
  step_hostMove hp (if_neg hk)

/-- Settles O23: ARG takes the word in every STATE, the read-only and unimplemented registers take none. -/
theorem argAndReadOnlyWrites : Obligations.ArgAndReadOnlyWrites := by
  unfold Obligations.ArgAndReadOnlyWrites
  intro s k v rest hp
  refine ⟨?_, fun hro => ⟨_, step_writeReg hp (by omega), ?_⟩⟩
  · rintro rfl
    exact ⟨_, step_writeReg hp (by decide), rfl, setArg_frame _ v⟩
  · rw [hostWriteReg_readOnly hro]
    exact hostAcc_spec _

/-- Settles O24: the two branches of a locked write. -/
theorem configurationLock : Obligations.ConfigurationLock := by
  unfold Obligations.ConfigurationLock
  intro s k v rest h8 h17 hp
  refine ⟨_, step_writeReg hp (by omega), ?_⟩
  split
  · next hm =>
    rw [hostWriteReg_unconfigured (s := { s with pending := rest }) h8 h17 hm]
    exact ⟨setConfig_register h8 h17, setConfig_frame h8 h17⟩
  · next hm =>
    rw [hostWriteReg_locked (s := { s with pending := rest }) h8 h17 hm]
    exact lockWr_spec _

/-- Settles O25: a length up to the capacity is kept, and what a lower one leaves of the buffer lies below it. -/
theorem lengthRegisterWrites : Obligations.LengthRegisterWrites := by
  unfold Obligations.LengthRegisterWrites
  intro s sp v rest hsp hp
  refine ⟨_, step_writeReg hp (by omega), ?_⟩
  split
  · next hv =>
    rw [hostWriteReg_length_of_le (s := { s with pending := rest }) hsp hv]
    have hframe := setLength_frame { s with pending := rest } sp v
    refine ⟨setLength_register hsp, hframe, fun i hi => ⟨setLength_element hi, setLength_specified hi⟩, fun hle => ?_,
      fun hfall i hi => setLength_not_specified hsp hfall hi⟩
    have hmem := setLength_mem (s := { s with pending := rest }) hle
    exact ⟨frame_of_mem_eq hframe hmem, specified_congr hmem sp⟩
  · next hv =>
    rw [hostWriteReg_length_of_not_le (s := { s with pending := rest }) hsp hv]
    exact hostAcc_spec _

/-! ## The step at a write to CMD -/

/-- Settles O4: the write is the next move and its word decodes. -/
theorem stepRunsDecodedCommand : Obligations.StepRunsDecodedCommand := by
  unfold Obligations.StepRunsDecodedCommand
  intro s v i rest hp hd
  rw [step_command hp, command_of_decode hd]

/-- Settles O6: the word of the table row is the command's own, which decodes to it. -/
theorem fetchedWordRuns : Obligations.FetchedWordRuns := by
  unfold Obligations.FetchedWordRuns
  intro s i
  have hword : BitVec.ofNat 32 ((encode i).toNat % 2 ^ 32) = encode i := by
    rw [Nat.mod_eq_of_lt (encode i).isLt, BitVec.ofNat_toNat, BitVec.setWidth_eq]
  have hp : (s.withFetchWord 32 (encode i).toNat).pending = .writeReg 0 (encode i) :: s.pending := by
    rw [State.withFetchWord, hword]
  rw [step_command hp, command_of_decode (decode_encode i)]
  rfl

/-! ## The fields of STATUS -/

theorem mode_code_lt (m : Mode) : m.code < 3 := by cases m <;> decide

theorem errCode_code_lt (e : ErrCode) : e.code < 7 := by cases e <;> decide

/-- The value of STATUS, no field of which reaches the next one (10_state.md R24). -/
theorem statusWord_toNat (s : State) : s.statusWord.toNat =
    s.mode.code + 4 * s.nosig.toNat + 8 * s.caphit.toNat + 16 * s.short.toNat + 256 * s.last.code := by
  have hmode := mode_code_lt s.mode
  have hlast := errCode_code_lt s.last
  have hnosig := s.nosig.toNat_le
  have hcaphit := s.caphit.toNat_le
  have hshort := s.short.toNat_le
  exact (BitVec.toNat_ofNat _ _).trans (Nat.mod_eq_of_lt (by omega))

theorem extractLsb'_eq_ofNat {v : Word} {a n x : Nat} (h : v.toNat / 2 ^ a % 2 ^ n = x) :
    v.extractLsb' a n = BitVec.ofNat n x := by
  refine BitVec.eq_of_toNat_eq ?_
  rw [BitVec.extractLsb'_toNat, Nat.shiftRight_eq_div_pow, BitVec.toNat_ofNat, ← h, Nat.mod_mod]

theorem getLsbD_eq_of_div_mod {v : Word} {n : Nat} {b : Bool} (h : v.toNat / 2 ^ n % 2 = b.toNat) :
    v.getLsbD n = b := by
  rw [← BitVec.testBit_toNat, Nat.testBit_eq_decide_div_mod_eq, h]
  cases b <;> rfl

/-- Settles O21: each field is the value of STATUS divided and reduced by powers of two. -/
theorem statusFields : Obligations.StatusFields := by
  unfold Obligations.StatusFields
  intro s
  have hvalue := statusWord_toNat s
  have hmode := mode_code_lt s.mode
  have hlast := errCode_code_lt s.last
  have hnosig := s.nosig.toNat_le
  have hcaphit := s.caphit.toNat_le
  have hshort := s.short.toNat_le
  refine ⟨rfl, ?_, getLsbD_eq_of_div_mod ?_, getLsbD_eq_of_div_mod ?_, getLsbD_eq_of_div_mod ?_,
    extractLsb'_eq_ofNat ?_, ?_, extractLsb'_eq_ofNat ?_⟩
  · refine (extractLsb'_eq_ofNat (x := s.mode.code) (by omega)).trans ?_
    cases s.mode <;> rfl
  · omega
  · omega
  · omega
  · omega
  · refine (extractLsb'_eq_ofNat (x := s.last.code) (by omega)).trans ?_
    cases s.last <;> rfl
  · omega

end

end Sys2Proof.Proofs
end

section
/-! PROOFS. The statements of 20_memory.md: which move a step serves (R58, R62), what is specified after a command and
what any other element reads as (R55, R59), and the host's accesses to buffers (R54, R57). -/

namespace Sys2Proof.Proofs

open Sys2Proof.Machine Sys2Proof.Laws

/-! ## The keys of a buffer -/

section
variable {w n j : Nat} {b : Buf w} {xs : List (BitVec w)}

/-- A whole write lists an element at every index below its length, so what bounds the list bounds the length. -/
theorem length_le_of_replace_cells (h : ∀ c ∈ (b.replace xs).cells, c.1 < n) : xs.length ≤ n := by
  by_contra hlt
  have hkey : n ∈ (b.replace xs).cells.map Prod.fst := by
    rw [Buf.replace_keys]
    exact List.mem_range.mpr (not_le.mp hlt)
  obtain ⟨c, hc, hcn⟩ := List.mem_map.mp hkey
  exact absurd hcn (h c hc).ne

/-- Within a capacity that fits a register, a whole write lists what its length register says. -/
theorem mem_replace_keys_iff (h : ∀ c ∈ (b.replace xs).cells, c.1 < n) (hn : n < 2 ^ 32) :
    j ∈ (b.replace xs).cells.map Prod.fst ↔ j < (BitVec.ofNat 32 xs.length).toNat := by
  have hlen : xs.length < 2 ^ 32 := (length_le_of_replace_cells h).trans_lt hn
  rw [Buf.replace_keys, List.mem_range, BitVec.toNat_ofNat, Nat.mod_eq_of_lt hlen]

theorem get_of_not_mem_keys {sp : Space} (h : j ∉ b.cells.map Prod.fst) : b.get sp j = b.free sp j := by
  have hnone : cellAt j b.cells = none := cellAt_eq_none fun c hc hj => h (List.mem_map.mpr ⟨c, hc, hj⟩)
  rw [Buf.get, hnone, Option.getD_none]

end

section
variable {s : State} {sp : Space} {i : Nat} {v : Word}

/-! ## Capacities -/

theorem txtMax_lt_of_wf {c : Instance} (h : c.wf = true) : c.txtMax < 2 ^ 32 := by
  obtain ⟨-, htxt, -⟩ := (wf_iff c).mp h
  simp only [Instance.txtMaxOk, Bool.and_eq_true, decide_eq_true_eq] at htxt
  exact htxt.2

theorem bitMax_lt_of_wf {c : Instance} (h : c.wf = true) : c.bitMax < 2 ^ 32 := by
  obtain ⟨-, -, hbit, -⟩ := (wf_iff c).mp h
  simp only [Instance.bitMaxOk, Bool.and_eq_true, decide_eq_true_eq] at hbit
  exact hbit.2

/-! ## Specified elements -/

/-- Settles O11: a completed command has written its destination whole, and the invariant it keeps says that the length
fits the register. -/
theorem destinationSpecifiedBelowItsLength : Obligations.DestinationSpecifiedBelowItsLength := by
  unfold Obligations.DestinationSpecifiedBelowItsLength
  intro i s t h hexec hlast j
  have hr := exec_result hexec
  obtain ⟨htxt, hbits, hwave, -⟩ := (inv_commandResult h hr).cellsBelow
  cases hr with
  | raised he _ => exact absurd hlast he
  | rejected => cases hlast
  | accepted =>
    have hspec : j ∈ (s.mem.plan.replace (planOf s.freqMin.toNat s.freqMax.toNat s.nChan)).cells.map Prod.fst ↔
        j < s.nChan := by
      rw [Buf.replace_keys, List.mem_range, planOf_length]
    exact hspec
  | text _ hx =>
    have hspec := mem_replace_keys_iff (j := j) htxt (txtMax_lt_of_wf h.instWf)
    obtain ⟨rfl, -⟩ | ⟨rfl, -⟩ := hx
    · exact hspec
    · exact hspec
  | bits _ hx =>
    have hspec := mem_replace_keys_iff (j := j) hbits (bitMax_lt_of_wf h.instWf)
    obtain ⟨rfl, -⟩ | ⟨rfl, -⟩ | ⟨rfl, -⟩ | ⟨rfl, -⟩ := hx
    · exact hspec
    · exact hspec
    · exact hspec
    · exact hspec
  | walked => exact mem_replace_keys_iff hbits (bitMax_lt_of_wf h.instWf)
  | wave _ hx =>
    have hspec := mem_replace_keys_iff (j := j) hwave (waveMax_lt_of_wf h.instWf)
    obtain ⟨rfl, -⟩ | ⟨rfl, -⟩ := hx
    · exact hspec
    · exact hspec

/-- Settles O12: an element that is not listed is the free value of its buffer. -/
theorem unspecifiedElementReadsFree : Obligations.UnspecifiedElementReadsFree := by
  unfold Obligations.UnspecifiedElementReadsFree
  intro s sp i h
  cases sp with
  | txt => exact ⟨_, _, congrArg BitVec.toNat (get_of_not_mem_keys h)⟩
  | bits => exact ⟨_, _, congrArg BitVec.toNat (get_of_not_mem_keys h)⟩
  | wave => exact ⟨_, _, congrArg BitVec.toNat (get_of_not_mem_keys h)⟩
  | plan => exact ⟨_, _, congrArg BitVec.toNat (get_of_not_mem_keys h)⟩

/-! ## The next move -/

/-- Settles O5: an empty list makes the idle step, and a move that is no command is served whole. -/
theorem stepServesNextMove : Obligations.StepServesNextMove := by
  unfold Obligations.StepServesNextMove
  refine ⟨fun s hp => ?_, fun s m rest hp hm => step_hostMove hp hm⟩
  simp only [step, hp]

/-! ## The host's writes to buffers -/

theorem get_set_same {w : Nat} (b : Buf w) (x : BitVec w) : (b.set i x).get sp i = x := by
  rw [Buf.get_set, if_pos rfl]

theorem get_set_ne {w j : Nat} (b : Buf w) (x : BitVec w) (hj : j ≠ i) : (b.set i x).get sp j = b.get sp j := by
  rw [Buf.get_set, if_neg hj]

/-- The low bits of the data are kept (20_memory.md R54). -/
theorem setElement_element_same (hsp : sp ≠ .plan) : (setElement s sp i v).element sp i = v.toNat % 2 ^ sp.width := by
  cases sp with
  | txt => exact (congrArg BitVec.toNat (get_set_same _ v)).trans (Nat.mod_eq_of_lt v.isLt).symm
  | bits => exact (congrArg BitVec.toNat (get_set_same _ _)).trans (BitVec.toNat_setWidth 1 v)
  | wave => exact (congrArg BitVec.toNat (get_set_same _ _)).trans (BitVec.toNat_setWidth 16 v)
  | plan => exact absurd rfl hsp

theorem setElement_element_ne {j : Nat} (hj : j ≠ i) : (setElement s sp i v).element sp j = s.element sp j := by
  cases sp with
  | txt => exact congrArg BitVec.toNat (get_set_ne _ _ hj)
  | bits => exact congrArg BitVec.toNat (get_set_ne _ _ hj)
  | wave => exact congrArg BitVec.toNat (get_set_ne _ _ hj)
  | plan => rfl

theorem ne_plan_of_lt_writableElements (hi : i < s.writableElements sp) : sp ≠ .plan := by
  rintro rfl
  exact Nat.not_lt_zero i hi

/-- Settles O26: the two branches of a buffer write; PLAN has no element the host can write. -/
theorem bufferWrites : Obligations.BufferWrites := by
  unfold Obligations.BufferWrites
  intro s sp i v rest hp
  refine ⟨_, step_hostMove hp rfl, ?_⟩
  have hcap : State.writableElements { s with pending := rest } sp = s.writableElements sp := rfl
  rw [State.hostMove, hostWriteBuf_eq, hcap]
  by_cases hi : i < s.writableElements sp
  · simp only [if_pos hi]
    exact ⟨setElement_element_same (ne_plan_of_lt_writableElements hi), fun j hj => setElement_element_ne hj,
      setElement_frame _ sp i v⟩
  · simp only [if_neg hi]
    exact hostAcc_spec _

/-! ## The host's reads of buffers -/

/-- The two ways to say that a read of PLAN is out of range (10_state.md R39). -/
theorem planOutOfRange_iff : s.planOutOfRange i = true ↔ ¬ s.Readable .plan i := by
  simp only [State.planOutOfRange, State.Readable, State.nChan, Bool.or_eq_true, Bool.and_eq_true, decide_eq_true_eq,
    not_and_or, not_lt, Classical.not_imp]

/-- An element that is in range is answered extended as 20_memory.md R54 says. -/
theorem hostReadBuf_of_readable (h : s.Readable sp i) :
    s.hostReadBuf sp i = s.answer (sp.extended (s.element sp i)) := by
  cases sp with
  | txt =>
    have hi : ¬ s.inst.txtMax ≤ i := not_le.mpr h
    simp only [State.hostReadBuf, if_neg hi, State.element, Space.extended, BitVec.ofNat_toNat, BitVec.setWidth_eq]
  | bits =>
    have hi : ¬ s.inst.bitMax ≤ i := not_le.mpr h
    simp only [State.hostReadBuf, if_neg hi, State.element, Space.extended, BitVec.ofNat_toNat]
  | wave =>
    have hi : ¬ s.inst.waveMax ≤ i := not_le.mpr h
    simp only [State.hostReadBuf, if_neg hi, State.element, Space.extended, BitVec.ofNat_toNat, BitVec.setWidth_eq]
  | plan =>
    have hi : ¬ s.planOutOfRange i = true := planOutOfRange_iff.not_left.mpr h
    simp only [State.hostReadBuf, if_neg hi, State.element, Space.extended, BitVec.ofNat_toNat, BitVec.setWidth_eq]

theorem hostReadBuf_of_not_readable (h : ¬ s.Readable sp i) :
    s.hostReadBuf sp i = s.hostAcc.answer (sp.extended 0) := by
  cases sp with
  | txt => exact if_pos (not_lt.mp h)
  | bits => exact if_pos (not_lt.mp h)
  | wave => exact if_pos (not_lt.mp h)
  | plan => exact if_pos (planOutOfRange_iff.mpr h)

/-- Settles O27: a read in range, and a read out of range. -/
theorem bufferReads : Obligations.BufferReads := by
  unfold Obligations.BufferReads
  intro s sp i rest hp
  refine ⟨_, step_hostMove hp rfl, fun hin => ?_, fun hout => ?_⟩
  · exact hostReadBuf_of_readable (s := { s with pending := rest }) hin
  · rw [State.hostMove, hostReadBuf_of_not_readable (s := { s with pending := rest }) hout]
    exact ⟨rfl, fun b => setErr_getLsbD s hostAccBit b (by decide),
      State.setErr_frame { s with pending := rest, reply := some (sp.extended 0) } hostAccBit⟩

end

end Sys2Proof.Proofs
end

section
/-! PROOFS. The statements of 30_encoding.md on single commands: which words are legal and what the others do (R70 to
R73), the one outcome of a command (R78), and what a command leaves alone (R71). -/

namespace Sys2Proof.Proofs

open Sys2Proof.Machine Sys2Proof.Laws

section
variable {s t : State} {i : Instr} {v : Word}

/-! ## The command word -/

theorem decode_eq_ok_iff : decode v = .ok i ↔ v = encode i :=
  ⟨eq_encode_of_decode, fun h => h ▸ decode_encode i⟩

/-- A table row of 32 bits holds the word itself. -/
theorem tableWord_toNat (v : Word) : tableWord 32 v.toNat = some v := by
  simp only [tableWord, Nat.mod_eq_of_lt v.isLt, v.isLt, if_true, BitVec.ofNat_toNat, BitVec.setWidth_eq]

theorem decodeTableWord_eq_some_iff : decodeTableWord 32 v.toNat = some i ↔ decode v = .ok i := by
  simp only [decodeTableWord, tableWord_toNat]
  cases decode v with
  | ok j => simp
  | error r => simp

/-- Settles O2: a command's word decodes to it, and the two fields of a word that decodes are those of the command. -/
theorem decodeEncodeAgree : Obligations.DecodeEncodeAgree := by
  unfold Obligations.DecodeEncodeAgree
  intro i v
  obtain ⟨hwf, -⟩ := encodedFields i
  exact ⟨hwf, decode_eq_ok_iff, decodeTableWord_eq_some_iff.trans decode_eq_ok_iff⟩

/-- Settles O1: each of the ten words is the encoding of its command. -/
theorem tenWordsDecode : Obligations.TenWordsDecode := by
  unfold Obligations.TenWordsDecode
  exact ⟨decode_encode .cfg, decode_encode .tnorm, decode_encode .t2b, decode_encode .repx, decode_encode .fmod,
    decode_encode .cmod, decode_encode .fdem, decode_encode .cdem, decode_encode .repc, decode_encode .b2t⟩

/-! ## Legal and illegal words -/

/-- The ten codes are the codes of the ten commands (30_encoding.md R71). -/
theorem mem_codes_iff {c : BitVec 8} :
    c ∈ [0x01#8, 0x10, 0x11, 0x12, 0x13, 0x14, 0x20, 0x21, 0x22, 0x23] ↔ ∃ i : Instr, c = i.opcode := by
  constructor
  · intro h
    simp only [List.mem_cons, List.not_mem_nil, or_false] at h
    obtain rfl | rfl | rfl | rfl | rfl | rfl | rfl | rfl | rfl | rfl := h
    exacts [⟨.cfg, rfl⟩, ⟨.tnorm, rfl⟩, ⟨.t2b, rfl⟩, ⟨.repx, rfl⟩, ⟨.fmod, rfl⟩, ⟨.cmod, rfl⟩, ⟨.fdem, rfl⟩,
      ⟨.cdem, rfl⟩, ⟨.repc, rfl⟩, ⟨.b2t, rfl⟩]
  · rintro ⟨i, rfl⟩
    cases i <;> decide

/-- The words that 30_encoding.md R73 calls legal are those of the ten commands. -/
theorem legal_iff_encode :
    (v.extractLsb' 8 24 = 0#24 ∧
      v.extractLsb' 0 8 ∈ [0x01#8, 0x10, 0x11, 0x12, 0x13, 0x14, 0x20, 0x21, 0x22, 0x23]) ↔ ∃ i, v = encode i := by
  constructor
  · rintro ⟨hmbz, hopc⟩
    obtain ⟨i, hi⟩ := mem_codes_iff.mp hopc
    exact ⟨i, calc
      v = mbzField v ++ opcField v := (mbzField_append_opcField v).symm
      _ = encode i := congrArg₂ (· ++ ·) hmbz hi⟩
  · rintro ⟨i, rfl⟩
    obtain ⟨-, hmbz, hopc, -⟩ := encodedFields i
    exact ⟨hmbz, mem_codes_iff.mpr ⟨i, hopc⟩⟩

theorem command_of_not_decode (h : ∀ i, decode v ≠ .ok i) : command v s = .next (s.raise .eIllegal v) := by
  cases hd : decode v with
  | ok i => exact absurd hd (h i)
  | error r => simp only [command, hd, State.illegalCommand_eq]

/-- Settles O3: a legal word is that of a command, and any other word is answered before STATE is looked at. -/
theorem legalAndIllegalWords : Obligations.LegalAndIllegalWords := by
  unfold Obligations.LegalAndIllegalWords
  intro s v rest hp
  rw [step_command hp]
  split
  · next hlegal =>
    obtain ⟨i, rfl⟩ := legal_iff_encode.mp hlegal
    exact ⟨i, decode_encode i, command_of_decode (decode_encode i)⟩
  · next hillegal =>
    have hnone : ∀ i, decode v ≠ .ok i := fun i hd => hillegal (legal_iff_encode.mpr ⟨i, eq_encode_of_decode hd⟩)
    exact ⟨hnone, _, command_of_not_decode hnone, State.raise_raised _ _ _⟩

/-! ## One outcome -/

/-- No command faults or is refused (30_encoding.md R78). -/
theorem exec_served (i : Instr) (s : State) : ∃ t, exec i s = .next t := by
  cases i <;> exact ⟨_, rfl⟩

theorem command_served (v : Word) (s : State) : ∃ t, command v s = .next t := by
  cases hd : decode v with
  | ok i => exact command_of_decode (s := s) hd ▸ exec_served i s
  | error r => exact ⟨_, command_of_not_decode fun i hi => by simp [hd] at hi⟩

/-- Settles O8: with no move to come the step is idle; a move is a command or is served at once. -/
theorem everyStepIsServed : Obligations.EveryStepIsServed := by
  unfold Obligations.EveryStepIsServed
  intro s
  cases hp : s.pending with
  | nil => exact ⟨s, by simp only [step, hp]⟩
  | cons m rest =>
    cases hm : m.commandWord with
    | none => exact ⟨_, step_hostMove hp hm⟩
    | some v =>
      rw [step_command (eq_writeReg_of_commandWord hm ▸ hp)]
      exact command_served v _

/-- A command completes, or raises one error on a state in which only CFG's rejection has moved STATE. -/
theorem commandResult_outcome (hr : CommandResult s i t) :
    (t.last = .eNone ∧ t.errs = s.errs) ∨
      ∃ e info, e ≠ .eNone ∧ State.Raised e info { s with mode := t.mode } t ∧
        (t.mode = s.mode ∨ (i = .cfg ∧ e = .eConfig ∧ t.mode = .failed)) := by
  cases hr with
  | raised he _ => exact Or.inr ⟨_, _, he, s.raise_raised _ _, Or.inl rfl⟩
  | rejected => exact Or.inr ⟨.eConfig, _, nofun, State.raise_raised _ _ _, Or.inr ⟨rfl, rfl, rfl⟩⟩
  | accepted => exact Or.inl ⟨rfl, rfl⟩
  | text => exact Or.inl ⟨rfl, rfl⟩
  | bits => exact Or.inl ⟨rfl, rfl⟩
  | walked => exact Or.inl ⟨rfl, rfl⟩
  | wave => exact Or.inl ⟨rfl, rfl⟩

/-- Settles O7: every answer of a command is a completion or an error. -/
theorem oneOutcomePreciseErrors : Obligations.OneOutcomePreciseErrors := by
  unfold Obligations.OneOutcomePreciseErrors
  intro i s
  obtain ⟨t, ht⟩ := exec_served i s
  exact ⟨t, ht, commandResult_outcome (exec_result ht)⟩

theorem exec_wrong_state (h : if i = .cfg then s.mode ≠ .unconfigured else s.mode ≠ .ready) :
    exec i s = .next (s.raise .eState 0) := by
  split at h
  · next hi => exact hi ▸ exec_cfg_not_unconfigured h
  · next hi => exact exec_not_ready hi h

/-- Settles O9: the state check comes before anything else a command does. -/
theorem wrongStateRaisesEState : Obligations.WrongStateRaisesEState := by
  unfold Obligations.WrongStateRaisesEState
  intro i s h
  exact ⟨_, exec_wrong_state h, s.raise_raised .eState 0⟩

/-! ## Destinations -/

/-- The space a command writes (30_encoding.md R71). -/
def destSpace : Instr → Space
  | .cfg => .plan
  | .tnorm | .b2t => .txt
  | .t2b | .repx | .fdem | .cdem | .repc => .bits
  | .fmod | .cmod => .wave

/-- The register a command writes beside STATUS, ERRS and INFO: PLAN_DEN or a length register (10_state.md R21). -/
def destReg : Instr → Nat
  | .cfg => 18
  | .tnorm | .b2t => 5
  | .t2b | .repx | .fdem | .cdem | .repc => 6
  | .fmod | .cmod => 7

/-- A command leaves alone every register but STATUS, ERRS, INFO and its destination's and every element but its
destination's. -/
abbrev CommandFrame (i : Instr) (s t : State) : Prop := s.Frame [2, 3, 4, destReg i] [destSpace i] t

theorem setMode_frame (s : State) (m : Mode) : s.Frame [2] [] { s with mode := m } := by
  refine ⟨fun k hk => ?_, fun _ _ _ => rfl, rfl, rfl, rfl⟩
  have hk : k ≠ 2 := by simpa using hk
  unfold State.register
  split <;> first | rfl | omega

theorem raise_commandFrame (i : Instr) (s : State) (e : ErrCode) (info : Word) :
    CommandFrame i s (s.raise e info) := by
  obtain ⟨-, -, -, -, hframe⟩ := s.raise_raised e info
  exact hframe.mono (by simp +contextual) nofun

theorem complete_commandFrame (i : Instr) (s : State) (info : Word) : CommandFrame i s (s.complete info) :=
  (s.complete_frame info).mono (by simp +contextual) nofun

theorem setMode_commandFrame (i : Instr) (s : State) (m : Mode) : CommandFrame i s { s with mode := m } :=
  (setMode_frame s m).mono (by simp) nofun

theorem setWalkFlags_commandFrame (i : Instr) (s : State) (w p f n : Nat) :
    CommandFrame i s (s.setWalkFlags w p f n) :=
  (s.setWalkFlags_frame w p f n).mono (by simp) nofun

/-- A write of the destination alone is within the command's frame. -/
theorem commandFrame_of_dest (h : s.Frame [destReg i] [destSpace i] t) : CommandFrame i s t :=
  h.mono (by simp) fun _ hsp => hsp

theorem commandResult_frame (hr : CommandResult s i t) : CommandFrame i s t := by
  cases hr with
  | raised => exact raise_commandFrame i s _ _
  | rejected => exact (setMode_commandFrame .cfg s .failed).trans (raise_commandFrame _ _ _ _)
  | accepted =>
    have hput := commandFrame_of_dest (i := .cfg)
      (s.putPlan_frame (planDenOf s.nChan) (planOf s.freqMin.toNat s.freqMax.toNat s.nChan))
    exact (hput.trans (setMode_commandFrame _ _ .ready)).trans (complete_commandFrame _ _ _)
  | @text _ xs info _ hx =>
    refine State.Frame.trans (commandFrame_of_dest ?_) (complete_commandFrame i _ info)
    obtain ⟨rfl, -⟩ | ⟨rfl, -⟩ := hx
    · exact s.putText_frame xs
    · exact s.putText_frame xs
  | @bits _ xs info _ hx =>
    refine State.Frame.trans (commandFrame_of_dest ?_) (complete_commandFrame i _ info)
    obtain ⟨rfl, -⟩ | ⟨rfl, -⟩ | ⟨rfl, -⟩ | ⟨rfl, -⟩ := hx
    · exact s.putBits_frame xs
    · exact s.putBits_frame xs
    · exact s.putBits_frame xs
    · exact s.putBits_frame xs
  | walked =>
    have hput := commandFrame_of_dest (i := .cdem) (s.putBits_frame s.cdemResult.2)
    exact (hput.trans (setWalkFlags_commandFrame _ _ _ _ _ _)).trans (complete_commandFrame _ _ _)
  | @wave _ xs info _ hx =>
    refine State.Frame.trans (commandFrame_of_dest ?_) (complete_commandFrame i _ info)
    obtain ⟨rfl, -⟩ | ⟨rfl, -⟩ := hx
    · exact s.putWave_frame xs
    · exact s.putWave_frame xs

/-- Settles O10: every answer of a command has the frame of its destination. -/
theorem commandsWriteTheirDestinationOnly : Obligations.CommandsWriteTheirDestinationOnly := by
  unfold Obligations.CommandsWriteTheirDestinationOnly
  intro i s t h
  have hframe := commandResult_frame (exec_result h)
  cases i <;> exact hframe

end

end Sys2Proof.Proofs
end

section
/-! PROOFS. No command depends on an unspecified element (30_encoding.md R79, 20_memory.md R59): what a command reads of
a state, and that two states in which it reads the same agree after it. -/

namespace Sys2Proof.Proofs

open Sys2Proof.Machine Sys2Proof.Laws

/-- The state without its buffers, the host's moves to come and the latest reply: the registers and the parameters of
the block. -/
def control (s : State) : State := { s with mem := State.reset.mem, pending := [], reply := none }

/-- Two states with the same registers, the same parameters and the same valid sequences. -/
structure Agrees (s u : State) : Prop where
  control : control s = control u
  text : s.text = u.text
  bits : s.bits = u.bits
  wave : s.wave = u.wave
  plan : s.plan = u.plan

section
variable {s u : State}

/-! ## Registers -/

/-- Equal values of STATUS hold equal flags (10_state.md R24). -/
theorem flags_eq_of_statusWord (hstatus : s.statusWord = u.statusWord) :
    s.nosig = u.nosig ∧ s.caphit = u.caphit ∧ s.short = u.short := by
  obtain ⟨-, -, hnosig, hcaphit, hshort, -⟩ := statusFields s
  obtain ⟨-, -, hnosig', hcaphit', hshort', -⟩ := statusFields u
  rw [hstatus] at hnosig hcaphit hshort
  exact ⟨hnosig.symm.trans hnosig', hcaphit.symm.trans hcaphit', hshort.symm.trans hshort'⟩

/-- The nineteen registers, STATE, LAST and the parameters are all that `control` holds. -/
theorem control_eq_of_register (hmode : s.mode = u.mode) (hlast : s.last = u.last)
    (hreg : ∀ k, s.register k = u.register k) (hinst : s.inst = u.inst) : control s = control u := by
  obtain ⟨hnosig, hcaphit, hshort⟩ := flags_eq_of_statusWord (Option.some.inj (hreg 2))
  simp only [Proofs.control, State.mk.injEq]
  exact ⟨hmode, hnosig, hcaphit, hshort, hlast, Option.some.inj (hreg 1), Option.some.inj (hreg 3),
    Option.some.inj (hreg 4), Option.some.inj (hreg 5), Option.some.inj (hreg 6), Option.some.inj (hreg 7),
    Option.some.inj (hreg 8), Option.some.inj (hreg 9), Option.some.inj (hreg 10), Option.some.inj (hreg 11),
    Option.some.inj (hreg 12), Option.some.inj (hreg 13), Option.some.inj (hreg 14), Option.some.inj (hreg 15),
    Option.some.inj (hreg 16), Option.some.inj (hreg 17), Option.some.inj (hreg 18), trivial, hinst, trivial, trivial⟩

/-! ## What a command reads -/

namespace Agrees

variable (h : Agrees s u)
include h

theorem register (k : Nat) : s.register k = u.register k := (congrArg (State.register · k) h.control :)

theorem mode : s.mode = u.mode := (congrArg State.mode h.control :)
theorem inst : s.inst = u.inst := (congrArg State.inst h.control :)
theorem arg : s.arg = u.arg := (congrArg State.arg h.control :)
theorem txtLen : s.txtLen = u.txtLen := (congrArg State.txtLen h.control :)
theorem bitsLen : s.bitsLen = u.bitsLen := (congrArg State.bitsLen h.control :)
theorem freqMin : s.freqMin = u.freqMin := (congrArg State.freqMin h.control :)
theorem freqMax : s.freqMax = u.freqMax := (congrArg State.freqMax h.control :)
theorem configMask : s.configMask = u.configMask := (congrArg State.configMask h.control :)
theorem argNat : s.argNat = u.argNat := (congrArg State.argNat h.control :)
theorem fs : s.fs = u.fs := (congrArg State.fs h.control :)
theorem nChan : s.nChan = u.nChan := (congrArg State.nChan h.control :)
theorem fLen : s.fLen = u.fLen := (congrArg State.fLen h.control :)
theorem rCount : s.rCount = u.rCount := (congrArg State.rCount h.control :)
theorem pLen : s.pLen = u.pLen := (congrArg State.pLen h.control :)
theorem gLen : s.gLen = u.gLen := (congrArg State.gLen h.control :)
theorem cLen : s.cLen = u.cLen := (congrArg State.cLen h.control :)
theorem fp : s.fp = u.fp := (congrArg State.fp h.control :)
theorem den : s.den = u.den := (congrArg State.den h.control :)
theorem wLen : s.wLen = u.wLen := (congrArg State.wLen h.control :)

theorem frame (j : Nat) : s.frame j = u.frame j := by
  simp only [State.frame, h.fs, h.den, h.fLen, h.plan, h.bits, h.nChan]

theorem chunks : s.chunks = u.chunks := by simp only [State.chunks, h.bitsLen, h.nChan]

theorem preamble : s.preamble = u.preamble := by simp only [State.preamble, h.fs, h.fp, h.inst, h.pLen]

theorem carousel : s.carousel = u.carousel := by
  simp only [State.carousel, State.cycle, h.rCount, h.preamble, h.chunks, h.frame, h.gLen, h.cLen]

theorem carouselLen : s.carouselLen = u.carouselLen := by
  simp only [State.carouselLen, h.rCount, h.pLen, h.chunks, h.fLen, h.gLen, h.cLen]

theorem window (off : Nat) : s.window off = u.window off := by simp only [State.window, h.wave, h.fLen]

theorem fdemWindow (win : List Sample) : s.fdemWindow win = u.fdemWindow win := by
  simp only [State.fdemWindow, State.channelBins, h.plan, h.fs, h.fLen, h.den]

theorem walk (fuel cur : Nat) (out : List Bit) : s.walk fuel cur out = u.walk fuel cur out := by
  induction fuel generalizing cur out with
  | zero => rfl
  | succ fuel ih => simp only [State.walk, h.fLen, h.wLen, h.inst, h.gLen, h.window, h.fdemWindow, ih]

theorem cdemResult : s.cdemResult = u.cdemResult := by
  simp only [State.cdemResult, h.walk, h.wLen, h.pLen]

/-! ## What a command writes -/

theorem raise (e : ErrCode) (info : Word) : Agrees (s.raise e info) (u.raise e info) :=
  { h with control := congrArg (State.raise · e info) h.control }

theorem complete (info : Word) : Agrees (s.complete info) (u.complete info) :=
  { h with control := congrArg (State.complete · info) h.control }

theorem setMode (m : Mode) : Agrees { s with mode := m } { u with mode := m } :=
  { h with control := congrArg (fun c : State => { c with mode := m }) h.control }

theorem setWalkFlags (w p f n : Nat) : Agrees (s.setWalkFlags w p f n) (u.setWalkFlags w p f n) :=
  { h with control := congrArg (State.setWalkFlags · w p f n) h.control }

end Agrees

/-! ## Buffers written whole

A buffer written whole reads back what its length register counts of it, even where that is less than all. -/

theorem text_putText_eq_take (s : State) (xs : List Word) :
    (s.putText xs).text = xs.take (BitVec.ofNat 32 xs.length).toNat :=
  Buf.take_replace_le _ _ _ _ (toNat_ofNat_le le_rfl)

theorem bits_putBits_eq_take (s : State) (xs : List Bit) :
    (s.putBits xs).bits = xs.take (BitVec.ofNat 32 xs.length).toNat :=
  Buf.take_replace_le _ _ _ _ (toNat_ofNat_le le_rfl)

theorem wave_putWave_eq_take (s : State) (xs : List Sample) :
    (s.putWave xs).wave = xs.take (BitVec.ofNat 32 xs.length).toNat :=
  Buf.take_replace_le _ _ _ _ (toNat_ofNat_le le_rfl)

theorem plan_putPlan_eq_take {xs : List Numerator} (d : Nat) (hx : s.nChan ≤ xs.length) :
    (s.putPlan d xs).plan = (xs.take s.nChan).map BitVec.toNat :=
  congrArg (List.map BitVec.toNat) (Buf.take_replace_le _ _ _ _ hx)

namespace Agrees

variable (h : Agrees s u)
include h

theorem putText (xs : List Word) : Agrees (s.putText xs) (u.putText xs) :=
  { h with
    control := congrArg (fun c : State => { c with txtLen := BitVec.ofNat 32 xs.length }) h.control
    text := (text_putText_eq_take s xs).trans (text_putText_eq_take u xs).symm }

theorem putBits (xs : List Bit) : Agrees (s.putBits xs) (u.putBits xs) :=
  { h with
    control := congrArg (fun c : State => { c with bitsLen := BitVec.ofNat 32 xs.length }) h.control
    bits := (bits_putBits_eq_take s xs).trans (bits_putBits_eq_take u xs).symm }

theorem putWave (xs : List Sample) : Agrees (s.putWave xs) (u.putWave xs) :=
  { h with
    control := congrArg (fun c : State => { c with waveLen := BitVec.ofNat 32 xs.length }) h.control
    wave := (wave_putWave_eq_take s xs).trans (wave_putWave_eq_take u xs).symm }

theorem putPlan (d : Nat) {xs : List Numerator} (hx : u.nChan ≤ xs.length) : Agrees (s.putPlan d xs) (u.putPlan d xs) :=
  { h with
    control := congrArg (fun c : State => { c with planDen := BitVec.ofNat 32 d }) h.control
    plan := by rw [plan_putPlan_eq_take d hx, plan_putPlan_eq_take d (h.nChan ▸ hx), h.nChan] }

end Agrees

/-! ## The commands -/

theorem agrees_ite {c : Prop} [Decidable c] {a b a' b' : State} (h : Agrees a b) (h' : Agrees a' b') :
    Agrees (if c then a else a') (if c then b else b') := by
  split
  · exact h
  · exact h'

theorem agrees_exec_cfg (h : Agrees s u) (hm : s.mode = .unconfigured) :
    ∃ s' u', exec .cfg s = .next s' ∧ exec .cfg u = .next u' ∧ Agrees s' u' := by
  refine ⟨_, _, exec_cfg hm, exec_cfg (h.mode ▸ hm), ?_⟩
  have hput : Agrees (s.putPlan (planDenOf s.nChan) (planOf s.freqMin.toNat s.freqMax.toNat s.nChan))
      (u.putPlan (planDenOf u.nChan) (planOf u.freqMin.toNat u.freqMax.toNat u.nChan)) := by
    rw [h.nChan, h.freqMin, h.freqMax]
    exact h.putPlan _ (planOf_length _ _ _).ge
  rw [h.configMask]
  exact agrees_ite ((h.setMode .failed).raise _ _) ((hput.setMode .ready).complete _)

theorem agrees_exec_ready {i : Instr} (h : Agrees s u) (hi : i ≠ .cfg) (hm : s.mode = .ready) :
    ∃ s' u', exec i s = .next s' ∧ exec i u = .next u' ∧ Agrees s' u' := by
  have hm' : u.mode = .ready := h.mode ▸ hm
  cases i with
  | cfg => exact absurd rfl hi
  | tnorm =>
    refine ⟨_, _, exec_tnorm hm, exec_tnorm hm', ?_⟩
    rw [h.text]
    exact (h.putText _).complete _
  | t2b =>
    refine ⟨_, _, exec_t2b hm, exec_t2b hm', ?_⟩
    rw [h.text, h.inst, h.txtLen]
    cases firstWide u.text with
    | some j => exact h.raise _ _
    | none => exact agrees_ite (h.raise _ _) ((h.putBits _).complete _)
  | repx =>
    refine ⟨_, _, exec_repx hm, exec_repx hm', ?_⟩
    rw [h.inst, h.bitsLen, h.bits]
    exact agrees_ite (h.raise _ _) ((h.putBits _).complete _)
  | fmod =>
    refine ⟨_, _, exec_fmod hm, exec_fmod hm', ?_⟩
    rw [h.inst, h.bitsLen, h.nChan, h.argNat, h.arg, h.fLen, h.frame]
    exact agrees_ite (h.raise _ _) (agrees_ite (h.raise _ _) ((h.putWave _).complete _))
  | cmod =>
    refine ⟨_, _, exec_cmod hm, exec_cmod hm', ?_⟩
    rw [h.inst, h.carouselLen, h.carousel, h.chunks]
    exact agrees_ite (h.raise _ _) ((h.putWave _).complete _)
  | fdem =>
    refine ⟨_, _, exec_fdem hm, exec_fdem hm', ?_⟩
    rw [h.inst, h.wLen, h.argNat, h.arg, h.fLen, h.nChan, h.window, h.fdemWindow]
    exact agrees_ite (h.raise _ _) (agrees_ite (h.raise _ _) ((h.putBits _).complete _))
  | cdem =>
    refine ⟨_, _, exec_cdem hm, exec_cdem hm', ?_⟩
    rw [h.cdemResult, h.wLen, h.pLen, h.fLen]
    exact ((h.putBits _).setWalkFlags _ _ _ _).complete _
  | repc =>
    refine ⟨_, _, exec_repc hm, exec_repc hm', ?_⟩
    rw [h.bits]
    exact (h.putBits _).complete _
  | b2t =>
    refine ⟨_, _, exec_b2t hm, exec_b2t hm', ?_⟩
    rw [h.inst, h.bits]
    exact agrees_ite (h.raise _ _) ((h.putText _).complete _)

/-- Two states that agree still agree after any command: in the wrong STATE both take E_STATE, in the right one the
command's rule reads the same of both. -/
theorem agrees_exec (h : Agrees s u) (i : Instr) :
    ∃ s' u', exec i s = .next s' ∧ exec i u = .next u' ∧ Agrees s' u' := by
  by_cases hwrong : if i = .cfg then s.mode ≠ .unconfigured else s.mode ≠ .ready
  · exact ⟨_, _, exec_wrong_state hwrong, exec_wrong_state (h.mode ▸ hwrong), h.raise _ _⟩
  · split at hwrong
    · next hi => exact hi ▸ agrees_exec_cfg h (not_not.mp hwrong)
    · next hi => exact agrees_exec_ready h hi (not_not.mp hwrong)

/-- Settles O14: agreement is of the registers and the valid sequences alone, and every command keeps it. -/
theorem unspecifiedElementsNeverMatter : Obligations.UnspecifiedElementsNeverMatter := by
  unfold Obligations.UnspecifiedElementsNeverMatter
  intro i s u s' u' hmode hlast hreg hinst htext hbits hwave hplan hs hu
  have h : Agrees s u := ⟨control_eq_of_register hmode hlast hreg hinst, htext, hbits, hwave, hplan⟩
  obtain ⟨a, b, ha, hb, hab⟩ := agrees_exec h i
  obtain rfl : s' = a := Host.Outcome.next.inj (hs.symm.trans ha)
  obtain rfl : u' = b := Host.Outcome.next.inj (hu.symm.trans hb)
  exact ⟨hab.register, hab.text, hab.bits, hab.wave, hab.plan⟩

end

end Sys2Proof.Proofs
end

section
/-! PROOFS. CFG and the plan (40_config_plan.md R100 to R102): what each bit of the cause mask says, the state that CFG
leaves when it accepts, and the frequencies of the plan in that state. -/

namespace Sys2Proof.Proofs

open Sys2Proof.Machine Sys2Proof.Laws

/-! ## The cause mask -/

theorem maskOf_cons (b : Bool) (l : List Bool) : maskOf (b :: l) = Nat.bit b (maskOf l) := by
  rw [maskOf, Nat.bit_val, Nat.add_comm]

/-- Each bit of the mask is the check of that place. -/
theorem testBit_maskOf (l : List Bool) (k : Nat) : (maskOf l).testBit k = l.getD k false := by
  induction l generalizing k with
  | nil => exact Nat.zero_testBit k
  | cons b l ih =>
    rw [maskOf_cons]
    cases k with
    | zero => exact Nat.testBit_bit_zero b _
    | succ k => exact (Nat.testBit_bit_succ k b _).trans (ih k)

theorem maskOf_eq_zero_iff {l : List Bool} : maskOf l = 0 ↔ ∀ b ∈ l, b = false := by
  refine ⟨maskOf_eq_zero, fun h => Nat.eq_of_testBit_eq fun k => ?_⟩
  rw [testBit_maskOf, Nat.zero_testBit, List.getD_eq_getElem?_getD]
  cases hk : l[k]? with
  | none => rfl
  | some b => exact h b (List.mem_of_getElem? hk)

section
variable {s t : State}

/-- INFO of E_CONFIG has 32 bits, so none of the ten checks is cut off it. -/
theorem configInfo_getLsbD (s : State) (k : Nat) :
    (BitVec.ofNat 32 s.configMask).getLsbD k = s.configChecks.getD k false := by
  rw [BitVec.getLsbD_ofNat, State.configMask, testBit_maskOf]
  by_cases hk : k < 32
  · rw [decide_eq_true hk, Bool.true_and]
  · have hlen : s.configChecks.length ≤ k := le_trans (by decide : 10 ≤ 32) (not_lt.mp hk)
    rw [decide_eq_false hk, Bool.false_and, List.getD_eq_default _ _ hlen]

/-- The mask is 0 exactly when the configuration passes the ten checks (40_config_plan.md R100). -/
theorem configMask_eq_zero_iff : s.configMask = 0 ↔
    1 ≤ s.fs ∧ 1 ≤ s.nChan ∧ s.nChan ≤ s.inst.nMax ∧ s.freqMin.toNat < s.freqMax.toNat ∧ 1 ≤ s.fLen ∧ 1 ≤ s.pLen ∧
      1 ≤ s.gLen ∧ 1 ≤ s.cLen ∧ 1 ≤ s.rCount ∧ s.freqMax.toNat < s.fp := by
  simp only [State.configMask, maskOf_eq_zero_iff, State.configChecks, List.forall_mem_cons, List.not_mem_nil,
    false_imp_iff, implies_true, and_true, decide_eq_false_iff_not, not_lt, not_le]
  exact Iff.rfl

/-! ## The numerators -/

/-- The highest numerator is `FREQ_MAX · PLAN_DEN`, so each fits an entry of PLAN (10_state.md R39). -/
theorem numerator_lt {fmin fmax n i : Nat} (hle : fmin ≤ fmax) (hmax : fmax < 2 ^ 32) (hn : n < 2 ^ 32) (hi : i < n) :
    fmin * planDenOf n + i * (fmax - fmin) < 2 ^ 64 := by
  have hi : i ≤ planDenOf n := le_trans (Nat.le_sub_one_of_lt hi) (le_max_left _ _)
  calc fmin * planDenOf n + i * (fmax - fmin)
    _ ≤ fmin * planDenOf n + planDenOf n * (fmax - fmin) := Nat.add_le_add_left (Nat.mul_le_mul_right _ hi) _
    _ = fmax * planDenOf n := by rw [Nat.mul_comm (planDenOf n), ← Nat.add_mul, Nat.add_sub_cancel' hle]
    _ < 2 ^ 32 * 2 ^ 32 := Nat.mul_lt_mul'' hmax (planDenOf_lt hn)
    _ = 2 ^ 64 := by norm_num

theorem planOf_getElem? {fmin fmax n i : Nat} (hi : i < n) :
    (planOf fmin fmax n)[i]? = some (BitVec.ofNat 64 (fmin * planDenOf n + i * (fmax - fmin))) := by
  rw [planOf, List.getElem?_map, List.getElem?_range hi, Option.map_some]

/-! ## The state CFG leaves when it accepts -/

/-- PLAN and PLAN_DEN written, STATE moved to READY, and the command complete (40_config_plan.md R100). -/
def accepted (s : State) : State :=
  State.complete
    { s.putPlan (planDenOf s.nChan) (planOf s.freqMin.toNat s.freqMax.toNat s.nChan) with mode := .ready } 0

theorem exec_cfg_accepts (hm : s.mode = .unconfigured) (hmask : s.configMask = 0) : exec .cfg s = .next (accepted s) := by
  rw [exec_cfg hm, if_neg (not_not.mpr hmask), accepted]

theorem exec_cfg_rejects (hm : s.mode = .unconfigured) (hmask : s.configMask ≠ 0) :
    exec .cfg s = .next (State.raise { s with mode := .failed } .eConfig (BitVec.ofNat 32 s.configMask)) := by
  rw [exec_cfg hm, if_pos hmask]

/-- CFG reaches READY only by accepting. -/
theorem eq_accepted_of_exec_cfg (hm : s.mode = .unconfigured) (h : exec .cfg s = .next t) (ht : t.mode = .ready) :
    s.configMask = 0 ∧ t = accepted s := by
  by_cases hmask : s.configMask = 0
  · exact ⟨hmask, Host.Outcome.next.inj (h.symm.trans (exec_cfg_accepts hm hmask))⟩
  · obtain rfl := Host.Outcome.next.inj (h.symm.trans (exec_cfg_rejects hm hmask))
    exact absurd ht nofun

theorem complete_putPlan_frame (s : State) (d : Nat) (xs : List Numerator) (m : Mode) (info : Word) :
    s.Frame [2, 4, 18] [.plan] (State.complete { s.putPlan d xs with mode := m } info) := by
  have hput := (s.putPlan_frame d xs).mono (regs' := [2, 4, 18]) (by simp) fun _ hsp => hsp
  have hmode := (setMode_frame (s.putPlan d xs) m).mono (regs' := [2, 4, 18]) (sps' := [.plan]) (by simp) nofun
  exact (hput.trans hmode).trans ((State.complete_frame _ info).mono (by simp +contextual) nofun)

theorem accepted_completed (s : State) : s.Completed 0 18 .plan (accepted s) :=
  ⟨rfl, rfl, complete_putPlan_frame s _ _ _ _⟩

theorem accepted_den (s : State) : (accepted s).den = planDenOf s.nChan :=
  (BitVec.toNat_ofNat _ _).trans (Nat.mod_eq_of_lt (planDenOf_lt s.channelCount.isLt))

theorem accepted_element {i : Nat} (hf : s.freqMin.toNat ≤ s.freqMax.toNat) (hi : i < s.nChan) :
    (accepted s).element .plan i =
      s.freqMin.toNat * planDenOf s.nChan + i * (s.freqMax.toNat - s.freqMin.toNat) := by
  have hget : (accepted s).mem.plan.get .plan i = BitVec.ofNat 64
      (s.freqMin.toNat * planDenOf s.nChan + i * (s.freqMax.toNat - s.freqMin.toNat)) :=
    (Buf.get_replace _ _ _ i).trans (by rw [planOf_getElem? hi, Option.getD_some])
  rw [State.element, hget, BitVec.toNat_ofNat]
  exact Nat.mod_eq_of_lt (numerator_lt hf s.freqMax.isLt s.channelCount.isLt hi)

/-- The numerators a command reads of the accepted plan are its elements. -/
theorem accepted_plan_getD {i : Nat} (hi : i < s.nChan) : (accepted s).plan.getD i 0 = (accepted s).element .plan i := by
  have hwf : (accepted s).mem.plan.wf := Buf.replace_wf _ _
  have hplan : (accepted s).plan = (List.range s.nChan).map ((accepted s).element .plan) :=
    (congrArg (List.map BitVec.toNat) (Buf.take_eq _ _ hwf s.nChan)).trans List.map_map
  rw [hplan, List.getD_eq_getElem?_getD, List.getElem?_map, List.getElem?_range hi, Option.map_some, Option.getD_some]

/-! ## The frequencies of an accepted plan -/

/-- The distance in hertz between neighbouring frequencies of the plan (40_config_plan.md R101, R102). -/
def planStep (s : State) : ℚ := ((s.freqMax.toNat : ℚ) - s.freqMin.toNat) / planDenOf s.nChan

theorem planDenOf_pos (n : Nat) : 0 < planDenOf n := lt_max_of_lt_right Nat.one_pos

theorem planDenOf_cast {n : Nat} (hn : 2 ≤ n) : (planDenOf n : ℚ) = n - 1 := by
  rw [planDenOf, max_eq_left (by omega : 1 ≤ n - 1), Nat.cast_pred (by omega)]

theorem planStep_pos (hf : s.freqMin.toNat < s.freqMax.toNat) : 0 < planStep s :=
  div_pos (sub_pos.mpr (Nat.cast_lt.mpr hf)) (Nat.cast_pos.mpr (planDenOf_pos _))

/-- From FREQ_MIN, PLAN_DEN steps reach FREQ_MAX. -/
theorem planDenOf_mul_planStep (s : State) :
    (planDenOf s.nChan : ℚ) * planStep s = (s.freqMax.toNat : ℚ) - s.freqMin.toNat :=
  mul_div_cancel₀ _ (Nat.cast_ne_zero.mpr (planDenOf_pos _).ne')

/-- `f[i] = FREQ_MIN + i · step` (40_config_plan.md R101). -/
theorem accepted_frequency {i : Nat} (hf : s.freqMin.toNat < s.freqMax.toNat) (hi : i < s.nChan) :
    ((accepted s).plan.getD i 0 : ℚ) / (accepted s).den = s.freqMin.toNat + i * planStep s := by
  have hden : (planDenOf s.nChan : ℚ) ≠ 0 := Nat.cast_ne_zero.mpr (planDenOf_pos _).ne'
  rw [accepted_plan_getD hi, accepted_element hf.le hi, accepted_den, planStep, Nat.cast_add, Nat.cast_mul, Nat.cast_mul,
    Nat.cast_sub hf.le]
  field_simp

/-- Every channel lies at most PLAN_DEN steps above FREQ_MIN, so no frequency is above FREQ_MAX. -/
theorem accepted_frequency_le {i : Nat} (hf : s.freqMin.toNat < s.freqMax.toNat) (hi : i < s.nChan) :
    ((accepted s).plan.getD i 0 : ℚ) / (accepted s).den ≤ s.freqMax.toNat := by
  have hi' : i ≤ planDenOf s.nChan := le_trans (Nat.le_sub_one_of_lt hi) (le_max_left _ _)
  have hsteps := mul_le_mul_of_nonneg_right (Nat.cast_le (α := ℚ).mpr hi') (planStep_pos hf).le
  rw [planDenOf_mul_planStep] at hsteps
  rw [accepted_frequency hf hi]
  linarith

/-! ## CFG -/

/-- Settles O29: a configuration that passes the checks has mask 0, and the accepted state has the plan. -/
theorem cfgAcceptsAndPlans : Obligations.CfgAcceptsAndPlans := by
  unfold Obligations.CfgAcceptsAndPlans
  intro s hm hfs hn hmax hf hfl hp hg hc hr hfp
  have hmask : s.configMask = 0 := configMask_eq_zero_iff.mpr ⟨hfs, hn, hmax, hf, hfl, hp, hg, hc, hr, hfp⟩
  exact ⟨accepted s, exec_cfg_accepts hm hmask, accepted_completed s, rfl, rfl, rfl, rfl, accepted_den s,
    fun i hi => accepted_element hf.le hi⟩

/-- Settles O30: the mask is not 0, so CFG raises E_CONFIG with it, and each of its bits is one check. -/
theorem cfgRejectsWithMask : Obligations.CfgRejectsWithMask := by
  unfold Obligations.CfgRejectsWithMask
  intro s hm hfails
  have hmask : s.configMask ≠ 0 := by
    rw [Ne, configMask_eq_zero_iff]
    omega
  have hbit := configInfo_getLsbD s
  refine ⟨_, exec_cfg_rejects hm hmask, rfl, State.raise_raised _ _ _, fun k => ?_⟩
  match k with
  | 0 => exact hbit 0
  | 1 => exact hbit 1
  | 2 => exact hbit 2
  | 3 => exact hbit 3
  | 4 => exact hbit 4
  | 5 => exact hbit 5
  | 6 => exact hbit 6
  | 7 => exact hbit 7
  | 8 => exact hbit 8
  | 9 => exact hbit 9
  | k + 10 => exact hbit (k + 10)

/-- Settles O31: the frequencies are FREQ_MIN and equal positive steps, the last of them PLAN_DEN steps up. -/
theorem planProperties : Obligations.PlanProperties := by
  unfold Obligations.PlanProperties
  intro s t hm hexec ht
  obtain ⟨hmask, rfl⟩ := eq_accepted_of_exec_cfg hm hexec ht
  obtain ⟨-, hn, -, hf, -, -, -, -, -, hfp⟩ := configMask_eq_zero_iff.mp hmask
  have hstep (h2 : 2 ≤ s.nChan) : ((s.freqMax.toNat : ℚ) - s.freqMin.toNat) / (s.nChan - 1) = planStep s := by
    rw [planStep, planDenOf_cast h2]
  refine ⟨State.plan_length _, ?first, fun h2 => ?last, fun i hi => ?even, fun i hi => ?below⟩
  case first => rw [accepted_frequency hf hn, Nat.cast_zero, zero_mul, add_zero]
  case last =>
    rw [accepted_frequency hf (by omega), Nat.cast_pred hn, ← planDenOf_cast h2, planDenOf_mul_planStep,
      add_sub_cancel]
  case even =>
    rw [hstep (by omega), accepted_frequency hf hi, accepted_frequency hf (by omega), Nat.cast_succ]
    exact ⟨by ring, planStep_pos hf⟩
  case below => exact (accepted_frequency_le hf hi).trans_lt (Nat.cast_lt.mpr hfp)

end

end Sys2Proof.Proofs
end

section
/-! PROOFS. The BitEncoder (41_bit_encoder.md R110 to R113): what TNORM, T2B and REPX leave in their destinations when
they complete, the normal form of a text, and the three commands one after another. -/

namespace Sys2Proof.Proofs

open Sys2Proof.Machine Sys2Proof.Laws

/-! ## The normal form of a text -/

section
variable {t out : List Word}

/-- What `dropWhile` leaves begins, if it leaves anything, with a character that is no whitespace. -/
theorem head?_dropWhile_isWs (t : List Word) : ∀ c ∈ (t.dropWhile isWs).head?, ¬ IsWhitespace c := by
  intro c hc
  have hhead := List.head?_dropWhile_not isWs t
  rw [Option.mem_def.mp hc] at hhead
  exact fun hws => absurd ((isWs_iff c).mpr hws) (by simp [hhead])

/-- `collapse` answers the normalised form: a text is a copied character or a maximal run, and then a shorter text. -/
theorem collapse_normalised : ∀ t : List Word, Normalised t (collapse false t)
  | [] => .empty
  | c :: t => by
    by_cases hc : isWs c = true
    · have hrun : ∀ d ∈ c :: t.takeWhile isWs, IsWhitespace d := by
        intro d hd
        obtain rfl | hd := List.mem_cons.mp hd
        · exact (isWs_iff d).mp hc
        · exact (isWs_iff d).mp (List.mem_takeWhile_imp hd)
      have hsplit : c :: t = (c :: t.takeWhile isWs) ++ t.dropWhile isWs := by
        rw [List.cons_append, List.takeWhile_append_dropWhile]
      have hout : collapse false (c :: t) = 0x20 :: collapse false (t.dropWhile isWs) := calc
        collapse false (c :: t) = 0x20 :: collapse true t := by rw [collapse, if_pos hc]; rfl
        _ = 0x20 :: collapse true (t.takeWhile isWs ++ t.dropWhile isWs) := by rw [List.takeWhile_append_dropWhile]
        _ = 0x20 :: collapse false (t.dropWhile isWs) := by
          rw [collapse_run _ _ fun d hd => hrun d (List.mem_cons_of_mem c hd),
            collapse_true_eq _ (head?_dropWhile_isWs t)]
      rw [hout, hsplit]
      exact .run (List.cons_ne_nil _ _) hrun (head?_dropWhile_isWs t) (collapse_normalised (t.dropWhile isWs))
    · rw [collapse, if_neg hc]
      exact .copy (mt (isWs_iff c).mpr hc) (collapse_normalised t)
termination_by t => t.length
decreasing_by
  · exact Nat.lt_succ_of_le (List.length_dropWhile_le isWs t)
  · exact Nat.lt_succ_self _

/-- A normalised text begins with whitespace only if the text did. -/
theorem normalised_head_not_whitespace (h : Normalised t out) (ht : ∀ c ∈ t.head?, ¬ IsWhitespace c) :
    ∀ c ∈ out.head?, ¬ IsWhitespace c := by
  cases h with
  | empty => exact ht
  | copy hc _ => simpa using hc
  | @run r _ _ hr hws _ _ =>
    obtain ⟨c, r, rfl⟩ := List.exists_cons_of_ne_nil hr
    exact absurd (hws c (by simp)) (ht c (by simp))

/-- The only whitespace of a normalised text is the space. -/
theorem normalised_eq_space (h : Normalised t out) : ∀ c ∈ out, IsWhitespace c → c = 0x20 := by
  induction h with
  | empty => nofun
  | copy hc _ ih => exact List.forall_mem_cons.mpr ⟨fun hws => absurd hws hc, ih⟩
  | run _ _ _ _ ih => exact List.forall_mem_cons.mpr ⟨fun _ => rfl, ih⟩

/-- Two neighbours in a normalised text are not both whitespace. -/
theorem normalised_isChain (h : Normalised t out) : out.IsChain fun c d => ¬ (IsWhitespace c ∧ IsWhitespace d) := by
  induction h with
  | empty => exact .nil
  | copy hc _ ih => exact List.isChain_cons.mpr ⟨fun _ _ hws => hc hws.1, ih⟩
  | run _ _ ht h ih =>
    exact List.isChain_cons.mpr ⟨fun d hd hws => normalised_head_not_whitespace h ht d hd hws.2, ih⟩

/-- A normalised text is its own normal form: each of its spaces is a run by itself. -/
theorem normalised_self (h : Normalised t out) : Normalised out out := by
  induction h with
  | empty => exact .empty
  | copy hc _ ih => exact .copy hc ih
  | run _ _ ht h ih =>
    exact .run (r := [0x20]) (List.cons_ne_nil _ _) (by simp [IsWhitespace]) (normalised_head_not_whitespace h ht) ih

end

/-! ## Destinations after a completion -/

section
variable {s t : State}

/-- A command that writes its destination and then completes has changed nothing else (20_memory.md R55). -/
theorem completed_of_frame {reg : Nat} {sp : Space} (h : s.Frame [reg] [sp] t) (info : Word) :
    s.Completed info reg sp (t.complete info) :=
  ⟨rfl, rfl, (h.mono (by simp) fun _ hsp => hsp).trans ((t.complete_frame info).mono (by simp +contextual) nofun)⟩

theorem bits_complete_putBits {xs : List Bit} (hlen : xs.length < 2 ^ 32) (info : Word) :
    ((s.putBits xs).complete info).bits = xs := by
  rw [State.bits_complete, State.bits_putBits _ _ hlen]

/-! ## TNORM -/

/-- The normalised text is no longer than the text, so its length fits TXT_LEN. -/
theorem text_tnorm (s : State) (info : Word) :
    ((s.putText (collapse false s.text)).complete info).text = collapse false s.text := by
  have hle : (collapse false s.text).length ≤ s.txtLen.toNat :=
    (collapse_length_le false s.text).trans_eq s.text_length
  rw [State.text_complete, State.text_putText _ _ (hle.trans_lt s.txtLen.isLt)]

/-- Settles O32: TNORM writes `collapse` of the text, which is the text normalised. -/
theorem tnormNormalises : Obligations.TnormNormalises := by
  unfold Obligations.TnormNormalises
  intro s hm
  have htext := text_tnorm s 0
  refine ⟨_, exec_tnorm hm, completed_of_frame (s.putText_frame _) 0, ⟨rfl, rfl, rfl, rfl⟩, ?_,
    State.text_length _, ?_⟩
  · rw [htext]
    exact collapse_normalised s.text
  · rw [← State.text_length, ← State.text_length, htext]
    exact collapse_length_le false s.text

theorem mode_text_of_exec_tnorm (hm : s.mode = .ready) (h : exec .tnorm s = .next t) :
    t.mode = .ready ∧ t.text = collapse false s.text := by
  obtain rfl := Host.Outcome.next.inj (h.symm.trans (exec_tnorm hm))
  exact ⟨hm, text_tnorm s 0⟩

/-- Settles O33: the text after TNORM is a normal form, which the second TNORM normalises to itself. -/
theorem tnormIsIdempotent : Obligations.TnormIsIdempotent := by
  unfold Obligations.TnormIsIdempotent
  intro s t u hm hst htu
  obtain ⟨hmt, htext⟩ := mode_text_of_exec_tnorm hm hst
  obtain ⟨-, hutext⟩ := mode_text_of_exec_tnorm hmt htu
  have hnorm : Normalised s.text t.text := htext ▸ collapse_normalised s.text
  exact ⟨hutext.trans (normalised_collapse (normalised_self hnorm)), normalised_eq_space hnorm, fun _ _ _ _ hsplit =>
    List.isChain_iff_forall_rel_of_append_cons_cons.mp (normalised_isChain hnorm) hsplit⟩

/-! ## T2B -/

theorem firstWide_eq_none {t : List Word} (h : ∀ c ∈ t, c.toNat ≤ 255) : firstWide t = none :=
  List.findIdx?_eq_none_iff.mpr fun c hc => decide_eq_false (not_lt.mpr (h c hc))

theorem firstWide_eq_some {t : List Word} (hi : i < t.length) (hwide : 255 < (t.getD i 0).toNat)
    (hfirst : ∀ j, j < i → (t.getD j 0).toNat ≤ 255) : firstWide t = some i := by
  refine List.findIdx?_eq_some_iff_getElem.mpr ⟨hi, ?_, fun j hj => ?_⟩
  · rw [← List.getD_eq_getElem t 0 hi]
    exact decide_eq_true hwide
  · rw [← List.getD_eq_getElem t 0 (hj.trans hi)]
    simpa using hfirst j hj

theorem exec_t2b_completes (hm : s.mode = .ready) (hnarrow : ∀ c ∈ s.text, c.toNat ≤ 255)
    (hfits : 8 * s.txtLen.toNat ≤ s.inst.bitMax) :
    exec .t2b s = .next ((s.putBits (textBits s.text)).complete 0) := by
  rw [exec_t2b hm, firstWide_eq_none hnarrow]
  exact congrArg Host.Outcome.next (if_neg (not_lt.mpr hfits))

/-- Settles O34: T2B writes the bits of the characters one after another, eight for each. -/
theorem t2bWritesBits : Obligations.T2bWritesBits := by
  unfold Obligations.T2bWritesBits
  intro s hm hwf hnarrow hfits
  have hlen : (textBits s.text).length = 8 * s.txtLen.toNat := by rw [textBits_length, State.text_length]
  have hbits := bits_complete_putBits (s := s) (hlen.trans_lt (hfits.trans_lt (bitMax_lt_of_wf hwf))) 0
  refine ⟨_, exec_t2b_completes hm hnarrow hfits, completed_of_frame (s.putBits_frame _) 0, ⟨rfl, rfl, rfl, rfl⟩,
    ?_, fun c b _ hb => ?_⟩
  · rw [← State.bits_length, hbits, hlen]
  · rw [hbits, textBits_getD _ _ _ hb]

/-- Settles O35: the search for a wide character comes before the capacity check, and finds the first. -/
theorem t2bRejectsWideCharacter : Obligations.T2bRejectsWideCharacter := by
  unfold Obligations.T2bRejectsWideCharacter
  intro s i hm hi hwide hfirst
  have hsome : firstWide s.text = some i := firstWide_eq_some (hi.trans_eq s.text_length.symm) hwide hfirst
  refine ⟨s.raise .eDomain (BitVec.ofNat 32 i), ?_, State.raise_raised _ _ _⟩
  rw [exec_t2b hm, hsome]

/-! ## REPX -/

theorem exec_repx_completes (hm : s.mode = .ready) (hfits : 2 * s.bitsLen.toNat ≤ s.inst.bitMax) :
    exec .repx s = .next ((s.putBits (doubleBits s.bits)).complete 0) := by
  rw [exec_repx hm, if_neg (not_lt.mpr hfits)]

/-- Settles O36: REPX writes each bit of the stream and then the same bit again. -/
theorem repxDoublesBits : Obligations.RepxDoublesBits := by
  unfold Obligations.RepxDoublesBits
  intro s hm hwf hfits
  have hlen : (doubleBits s.bits).length = 2 * s.bitsLen.toNat := by rw [doubleBits_length, State.bits_length]
  have hbits := bits_complete_putBits (s := s) (hlen.trans_lt (hfits.trans_lt (bitMax_lt_of_wf hwf))) 0
  refine ⟨_, exec_repx_completes hm hfits, completed_of_frame (s.putBits_frame _) 0, ⟨rfl, rfl, rfl, rfl⟩,
    ?_, fun i _ => ?_⟩
  · rw [← State.bits_length, hbits, hlen]
  · rw [hbits]
    exact doubleBits_getD s.bits i

/-! ## The three commands together -/

/-- BITS holds the protected stream of every text that TXT holds (00_scope.md R5). -/
theorem protected_le_bitMax_of_wf {c : Instance} (h : c.wf = true) : 16 * c.txtMax ≤ c.bitMax := by
  obtain ⟨-, -, hbit, -⟩ := (wf_iff c).mp h
  simp only [Instance.bitMaxOk, Bool.and_eq_true, decide_eq_true_eq] at hbit
  exact hbit.1.1

/-- Settles O38: a text that TXT holds is not lengthened by TNORM, so both streams fit and each command completes. -/
theorem bitEncoderAsAWhole : Obligations.BitEncoderAsAWhole := by
  unfold Obligations.BitEncoderAsAWhole
  intro s t u v hm hwf htxt hst hnarrow htu huv
  obtain ⟨t', ht', ⟨-, -, -, -, hinst, -⟩, ⟨hmt, -⟩, -, -, hle⟩ := tnormNormalises s hm
  obtain rfl := Host.Outcome.next.inj (hst.symm.trans ht')
  have hmax : 16 * t.txtLen.toNat ≤ t.inst.bitMax := by
    have hcap := protected_le_bitMax_of_wf hwf
    rw [hinst]
    omega
  obtain ⟨u', hu', ⟨-, -, -, -, hinst', -⟩, ⟨hmu, -⟩, hulen, hubits⟩ :=
    t2bWritesBits t (hmt.trans hm) (hinst ▸ hwf) hnarrow (by omega)
  obtain rfl := Host.Outcome.next.inj (htu.symm.trans hu')
  obtain ⟨v', hv', ⟨hlast, -, -⟩, -, hvlen, hvbits⟩ :=
    repxDoublesBits u (hmu.trans (hmt.trans hm)) (by rwa [hinst', hinst]) (by rw [hinst']; omega)
  obtain rfl := Host.Outcome.next.inj (huv.symm.trans hv')
  refine ⟨hlast, by omega, fun i b hi hb => ?_⟩
  obtain ⟨heven, hodd⟩ := hvbits (8 * i + b) (by omega)
  rw [show 16 * i + 2 * b = 2 * (8 * i + b) by ring, heven, hodd]
  exact ⟨hubits i b hi hb, hubits i b hi hb⟩

end

end Sys2Proof.Proofs
end

section
/-! PROOFS. The FrameModulator (42_frame_modulator.md R120 to R125): the normalised tone sum over the real numbers, the
frame FMOD writes, and the argument errors of FMOD and FDEM (44_frame_demodulator.md R146). -/

namespace Sys2Proof.Proofs

open Sys2Proof.Machine Sys2Proof.Laws

/-! ## The normalised tone sum -/

section
variable {y : ℕ → ℝ} {f n : ℕ}

theorem normalise_of_peak_zero (h : Signal.peak y f = 0) : Signal.normalise y f n = 0 := if_pos h

theorem normalise_of_peak_ne_zero (h : Signal.peak y f ≠ 0) : Signal.normalise y f n = y n / Signal.peak y f := if_neg h

theorem normalise_of_eq_zero (h : y n = 0) : Signal.normalise y f n = 0 := by
  rw [Signal.normalise, h, zero_div, ite_self]

/-- No sample lies above the peak, so none of the quotients lies above 1. -/
theorem abs_normalise_le_one (hn : n < f) : |Signal.normalise y f n| ≤ 1 := by
  by_cases h : Signal.peak y f = 0
  · rw [normalise_of_peak_zero h, abs_zero]
    exact zero_le_one
  · rw [normalise_of_peak_ne_zero h, abs_div, abs_of_nonneg (peak_nonneg f y)]
    exact div_le_one_of_le₀ (abs_le_peak y hn) (peak_nonneg f y)

theorem exists_abs_eq_peak (h : Signal.peak y f ≠ 0) : ∃ m, m < f ∧ |y m| = Signal.peak y f := by
  obtain h0 | hmem := supOf_mem ((List.range f).map fun m => |y m|)
  · exact absurd h0 h
  · obtain ⟨m, hm, hpeak⟩ := List.mem_map.mp hmem
    exact ⟨m, List.mem_range.mp hm, hpeak⟩

/-- The sample that makes the peak is normalised to an end of the range. -/
theorem exists_normalise_eq_one (h : Signal.peak y f ≠ 0) :
    ∃ m, m < f ∧ (Signal.normalise y f m = 1 ∨ Signal.normalise y f m = -1) := by
  obtain ⟨m, hm, hpeak⟩ := exists_abs_eq_peak h
  refine ⟨m, hm, eq_or_eq_neg_of_abs_eq ?_⟩
  rw [normalise_of_peak_ne_zero h, abs_div, hpeak, abs_of_nonneg (peak_nonneg f y), div_self h]

end

/-- Every tone starts at phase 0 (42_frame_modulator.md R121). -/
theorem toneSum_zero (fs den : ℕ) (plan : List ℕ) (c : List Bit) : Signal.toneSum fs den plan c 0 = 0 := by
  simp [Signal.toneSum]

theorem quantise_one : Signal.quantise 1 = 32767 := by
  simpa [Signal.quantise] using rne_intCast 32767

theorem quantise_neg_one : Signal.quantise (-1) = -32767 := by
  simpa [Signal.quantise] using rne_intCast (-32767)

/-! ## The frame of a chunk -/

section
variable {s : State} {j n : ℕ}

/-- The peak of the tone sum of chunk `j` (42_frame_modulator.md R122). -/
noncomputable abbrev framePeak (s : State) (j : ℕ) : ℝ :=
  Signal.peak (Signal.toneSum s.fs s.den s.plan (chunk s.bits s.nChan j)) s.fLen

theorem frameSignal_bounds (hn : n < s.fLen) : -32767 ≤ frameSignal s j n ∧ frameSignal s j n ≤ 32767 :=
  quantise_bounds (abs_normalise_le_one hn)

theorem frameSignal_zero : frameSignal s j 0 = 0 := by
  rw [frameSignal, normalise_of_eq_zero (toneSum_zero _ _ _ _), quantise_zero]

theorem frameSignal_of_peak_zero (h : framePeak s j = 0) : frameSignal s j n = 0 := by
  rw [frameSignal, normalise_of_peak_zero h, quantise_zero]

theorem exists_frameSignal_fullScale (h : framePeak s j ≠ 0) :
    ∃ n, n < s.fLen ∧ (frameSignal s j n = 32767 ∨ frameSignal s j n = -32767) := by
  obtain ⟨n, hn, hend⟩ := exists_normalise_eq_one h
  refine ⟨n, hn, hend.imp (fun h1 => ?_) fun h1 => ?_⟩
  · rw [frameSignal, h1, quantise_one]
  · rw [frameSignal, h1, quantise_neg_one]

theorem frame_getD (hfs : 0 < s.fs) (hden : 0 < s.den) (hn : n < s.fLen) (d : Sample) :
    (s.frame j).getD n d = BitVec.ofInt 16 (frameSignal s j n) := by
  rw [frame_eq s j hfs hden]
  simp [hn]

theorem mem_frame (hfs : 0 < s.fs) (hden : 0 < s.den) {q : Sample} :
    q ∈ s.frame j ↔ ∃ n, n < s.fLen ∧ BitVec.ofInt 16 (frameSignal s j n) = q := by
  rw [frame_eq s j hfs hden]
  simp only [List.mem_map, List.mem_range]

/-- No sample of a frame is lost in its 16 bits (42_frame_modulator.md R123). -/
theorem frameSample_toInt (hn : n < s.fLen) :
    (BitVec.ofInt 16 (frameSignal s j n)).toInt = frameSignal s j n :=
  sample_toInt (frameSignal_bounds hn)

/-! ## FMOD -/

variable {t : State}

theorem wave_complete_putWave {xs : List Sample} (hlen : xs.length < 2 ^ 32) (info : Word) :
    ((s.putWave xs).complete info).wave = xs := by
  rw [State.wave_complete, State.wave_putWave _ _ hlen]

/-- A frame that fits WAVE has a length that fits WAVE_LEN. -/
theorem frame_length_lt (hwf : s.inst.wf = true) (hfits : s.fLen ≤ s.inst.waveMax) : (s.frame j).length < 2 ^ 32 :=
  ((frame_length_le s j).trans hfits).trans_lt (waveMax_lt_of_wf hwf)

theorem exec_fmod_completes (hm : s.mode = .ready) (hj : s.argNat < chunkCount s.bitsLen.toNat s.nChan)
    (hfits : s.fLen ≤ s.inst.waveMax) :
    exec .fmod s = .next ((s.putWave (s.frame s.argNat)).complete 0) := by
  rw [exec_fmod hm, if_neg (not_le.mpr hj), if_neg (not_lt.mpr hfits)]

/-- Settles O39: FMOD writes the frame of chunk ARG, and no sample of it is changed by its 16 bits. -/
theorem fmodWritesFrame : Obligations.FmodWritesFrame := by
  unfold Obligations.FmodWritesFrame
  intro s hm hwf hfs hden hN hj hfits
  have hwave := wave_complete_putWave (s := s) (frame_length_lt (j := s.argNat) hwf hfits) 0
  refine ⟨_, exec_fmod_completes hm ((lt_chunkCount _ _ _ hN).mpr hj) hfits,
    completed_of_frame (s.putWave_frame _) 0, ⟨rfl, rfl, rfl, rfl⟩, ?_, fun n hn => ?_⟩
  · rw [← State.wave_length, hwave, frame_length s _ hfs hden]
  · rw [hwave, frame_getD hfs hden hn]
    exact frameSample_toInt hn

/-- WAVE after an FMOD that completes is the frame of chunk ARG (42_frame_modulator.md R124). -/
theorem fmod_wave (hm : s.mode = .ready) (hwf : s.inst.wf = true) (h : exec .fmod s = .next t)
    (hlast : t.last = .eNone) : t.wave = s.frame s.argNat := by
  rw [exec_fmod hm, Host.Outcome.next.injEq] at h
  split at h
  · subst h
    cases hlast
  · split at h
    · subst h
      cases hlast
    · next hfits => rw [← h, wave_complete_putWave (frame_length_lt hwf (not_lt.mp hfits))]

/-- Settles O40: a frame is the quantised quotients of a tone sum by its own peak, which some sample makes. -/
theorem frameIsSilentOrFullScale : Obligations.FrameIsSilentOrFullScale := by
  unfold Obligations.FrameIsSilentOrFullScale
  intro s t hm hwf hfs hden h hlast
  rw [fmod_wave hm hwf h hlast]
  refine ⟨fun q hq => ?_, fun hf => ?_, ?_⟩
  · obtain ⟨n, hn, rfl⟩ := (mem_frame hfs hden).mp hq
    rw [frameSample_toInt hn]
    exact frameSignal_bounds hn
  · rw [frame_getD hfs hden hf, frameSignal_zero]
    rfl
  · split
    · next hpeak =>
      intro q hq
      obtain ⟨n, -, rfl⟩ := (mem_frame hfs hden).mp hq
      rw [frameSignal_of_peak_zero hpeak]
      rfl
    · next hpeak =>
      obtain ⟨n, hn, hend⟩ := exists_frameSignal_fullScale hpeak
      refine ⟨_, (mem_frame hfs hden).mpr ⟨n, hn, rfl⟩, ?_⟩
      rwa [frameSample_toInt hn]

/-! ## Argument errors -/

/-- Settles O41: in READY the check of ARG comes first, in FMOD against the chunk count. -/
theorem argumentErrors : Obligations.ArgumentErrors := by
  unfold Obligations.ArgumentErrors
  refine fun s hm => ⟨fun hN hpast => ?_, fun hpast => ?_⟩
  · have hcount : chunkCount s.bitsLen.toNat s.nChan ≤ s.argNat :=
      not_lt.mp ((lt_chunkCount _ _ _ hN).not.mpr (not_lt.mpr hpast))
    refine ⟨_, ?_, s.raise_raised .eArg s.arg⟩
    rw [exec_fmod hm, if_pos hcount]
  · refine ⟨_, ?_, s.raise_raised .eArg s.arg⟩
    rw [exec_fdem hm, if_pos hpast]

end

end Sys2Proof.Proofs
end

section
/-! PROOFS. The CarouselModulator (43_carousel_modulator.md R130 to R135): the length of the carousel CMOD writes, and
the place of every preamble, frame and gap in it. -/

namespace Sys2Proof.Proofs

open Sys2Proof.Machine Sys2Proof.Laws

/-- In blocks of one length `m`, laid end to end, block `i` begins at `i · m`. -/
theorem flatten_getD_of_length_eq {α : Type} {xss : List (List α)} {m n : ℕ} (hlen : ∀ xs ∈ xss, xs.length = m)
    (hn : n < m) (i : ℕ) (d : α) : xss.flatten.getD (i * m + n) d = (xss.getD i []).getD n d := by
  induction xss generalizing i with
  | nil => simp
  | cons xs t ih =>
    obtain ⟨hx, ht⟩ := List.forall_mem_cons.mp hlen
    rw [List.flatten_cons]
    cases i with
    | zero => rw [Nat.zero_mul, Nat.zero_add, List.getD_append _ _ _ _ (hn.trans_eq hx.symm), List.getD_cons_zero]
    | succ i =>
      have hpast : (i + 1) * m + n = xs.length + (i * m + n) := by rw [hx]; ring
      rw [hpast, List.getD_append_right _ _ _ _ (Nat.le_add_right _ _), Nat.add_sub_cancel_left, ih ht,
        List.getD_cons_succ]

theorem zeroSamples_getD {m n : ℕ} (hn : n < m) (d : Sample) : (zeroSamples m).getD n d = 0 := by
  simp [zeroSamples, hn]

section
variable {s t : State} {r j n : ℕ} {d : Sample}

/-! ## One cycle -/

/-- The frame of chunk `j` and the gap after it (43_carousel_modulator.md R132). -/
def chunkSegment (s : State) (j : ℕ) : List Sample := s.frame j ++ zeroSamples s.gLen

/-- `P + K·(F + G) + C` (43_carousel_modulator.md R134). -/
def cycleLen (s : State) : ℕ := s.pLen + s.chunks * (s.fLen + s.gLen) + s.cLen

theorem cycle_eq (s : State) :
    s.cycle = s.preamble ++ (((List.range s.chunks).map (chunkSegment s)).flatten ++ zeroSamples s.cLen) :=
  List.append_assoc _ _ _

theorem carouselLen_eq (s : State) : s.carouselLen = s.rCount * cycleLen s := rfl

/-- A sample of a chunk's segment lies before the end of the last one. -/
theorem chunkSegment_offset_lt (hj : j < s.chunks) (hn : n < s.fLen + s.gLen) :
    j * (s.fLen + s.gLen) + n < s.chunks * (s.fLen + s.gLen) := by
  rw [Nat.mul_comm j]
  exact Nat.mul_add_lt_mul_of_lt_of_lt hj hn

section
variable (hfs : 0 < s.fs) (hden : 0 < s.den)
include hfs hden

theorem chunkSegment_length (j : ℕ) : (chunkSegment s j).length = s.fLen + s.gLen := by
  rw [chunkSegment, List.length_append, frame_length s j hfs hden, zeroSamples, List.length_replicate]

theorem chunkSegment_getD_frame (hn : n < s.fLen) : (chunkSegment s j).getD n d = (s.frame j).getD n d :=
  List.getD_append _ _ _ _ (hn.trans_eq (frame_length s j hfs hden).symm)

theorem chunkSegment_getD_gap (hn : n < s.gLen) : (chunkSegment s j).getD (s.fLen + n) d = 0 := by
  rw [chunkSegment, ← frame_length s j hfs hden, List.getD_append_right _ _ _ _ (Nat.le_add_right _ _),
    Nat.add_sub_cancel_left, zeroSamples_getD hn]

theorem chunkSegments_length :
    (((List.range s.chunks).map (chunkSegment s)).flatten).length = s.chunks * (s.fLen + s.gLen) := by
  simp [List.length_flatten, Function.comp_def, chunkSegment_length hfs hden]

theorem chunkSegments_getD (hj : j < s.chunks) (hn : n < s.fLen + s.gLen) :
    (((List.range s.chunks).map (chunkSegment s)).flatten).getD (j * (s.fLen + s.gLen) + n) d =
      (chunkSegment s j).getD n d := by
  have hlen : ∀ xs ∈ (List.range s.chunks).map (chunkSegment s), xs.length = s.fLen + s.gLen :=
    List.forall_mem_map.mpr fun j _ => chunkSegment_length hfs hden j
  rw [flatten_getD_of_length_eq hlen hn]
  simp [hj]

variable (hok : s.inst.preAmpOk = true)
include hok

theorem cycle_length : s.cycle.length = cycleLen s := by
  rw [cycle_eq, List.length_append, List.length_append, preamble_length s hfs hok, chunkSegments_length hfs hden,
    zeroSamples, List.length_replicate, cycleLen, Nat.add_assoc]

omit hden in
theorem cycle_getD_preamble (hn : n < s.pLen) : s.cycle.getD n d = s.preamble.getD n d := by
  rw [cycle_eq, List.getD_append _ _ _ _ (hn.trans_eq (preamble_length s hfs hok).symm)]

omit hden in
/-- What follows the preamble: the chunks with their gaps, then the cycle gap. -/
theorem cycle_getD_after_preamble (k : ℕ) : s.cycle.getD (s.pLen + k) d =
    (((List.range s.chunks).map (chunkSegment s)).flatten ++ zeroSamples s.cLen).getD k d := by
  rw [cycle_eq, ← preamble_length s hfs hok, List.getD_append_right _ _ _ _ (Nat.le_add_right _ _),
    Nat.add_sub_cancel_left]

theorem cycle_getD_chunkSegment (hj : j < s.chunks) (hn : n < s.fLen + s.gLen) :
    s.cycle.getD (s.pLen + (j * (s.fLen + s.gLen) + n)) d = (chunkSegment s j).getD n d := by
  have hbefore := (chunkSegment_offset_lt hj hn).trans_eq (chunkSegments_length hfs hden).symm
  rw [cycle_getD_after_preamble hfs hok, List.getD_append _ _ _ _ hbefore, chunkSegments_getD hfs hden hj hn]

theorem cycle_getD_cycleGap (hn : n < s.cLen) :
    s.cycle.getD (s.pLen + (s.chunks * (s.fLen + s.gLen) + n)) d = 0 := by
  rw [cycle_getD_after_preamble hfs hok, ← chunkSegments_length hfs hden,
    List.getD_append_right _ _ _ _ (Nat.le_add_right _ _), Nat.add_sub_cancel_left, zeroSamples_getD hn]

/-! ## The carousel -/

theorem carousel_length : s.carousel.length = s.carouselLen := by
  rw [State.carousel, List.length_flatten, List.map_replicate, List.sum_replicate, cycle_length hfs hden hok,
    smul_eq_mul, carouselLen_eq]

theorem carousel_getD (hr : r < s.rCount) (hn : n < cycleLen s) :
    s.carousel.getD (r * cycleLen s + n) d = s.cycle.getD n d := by
  have hlen : ∀ xs ∈ List.replicate s.rCount s.cycle, xs.length = cycleLen s := fun xs hxs =>
    List.eq_of_mem_replicate hxs ▸ cycle_length hfs hden hok
  rw [State.carousel, flatten_getD_of_length_eq hlen hn]
  simp [hr]

/-- The preamble of cycle `r`. -/
theorem carousel_getD_preamble (hr : r < s.rCount) (hn : n < s.pLen) :
    s.carousel.getD (r * cycleLen s + n) d = s.preamble.getD n d := by
  have hin : n < cycleLen s := by rw [cycleLen]; omega
  rw [carousel_getD hfs hden hok hr hin, cycle_getD_preamble hfs hok hn]

/-- The segment of chunk `j` in cycle `r`. -/
theorem carousel_getD_chunkSegment (hr : r < s.rCount) (hj : j < s.chunks) (hn : n < s.fLen + s.gLen) :
    s.carousel.getD (r * cycleLen s + s.pLen + j * (s.fLen + s.gLen) + n) d = (chunkSegment s j).getD n d := by
  have hin : s.pLen + (j * (s.fLen + s.gLen) + n) < cycleLen s := by
    have := chunkSegment_offset_lt hj hn
    rw [cycleLen]
    omega
  rw [Nat.add_assoc, Nat.add_assoc, carousel_getD hfs hden hok hr hin, cycle_getD_chunkSegment hfs hden hok hj hn]

/-- The cycle gap of cycle `r`. -/
theorem carousel_getD_cycleGap (hr : r < s.rCount) (hn : n < s.cLen) :
    s.carousel.getD (r * cycleLen s + s.pLen + s.chunks * (s.fLen + s.gLen) + n) d = 0 := by
  have hin : s.pLen + (s.chunks * (s.fLen + s.gLen) + n) < cycleLen s := by rw [cycleLen]; omega
  rw [Nat.add_assoc, Nat.add_assoc, carousel_getD hfs hden hok hr hin, cycle_getD_cycleGap hfs hden hok hn]
end

/-! ## CMOD -/

/-- Settles O42: the carousel CMOD writes has exactly the length that the capacity check admits. -/
theorem cmodLength : Obligations.CmodLength := by
  unfold Obligations.CmodLength
  intro s hm hwf hfs hden hfits
  rw [ceil_div] at hfits ⊢
  have hlen := carousel_length hfs hden (preAmpOk_of_wf hwf)
  have hlt : s.carousel.length < 2 ^ 32 := hlen ▸ hfits.trans_lt (waveMax_lt_of_wf hwf)
  refine ⟨(s.putWave s.carousel).complete (BitVec.ofNat 32 s.chunks), ?_, completed_of_frame (s.putWave_frame _) _,
    ⟨rfl, rfl, rfl, rfl⟩, ?_⟩
  · exact (exec_cmod hm).trans (congrArg _ (if_neg (not_lt.mpr hfits)))
  · rw [← State.wave_length, wave_complete_putWave hlt, hlen]
    rfl

/-- A CMOD that completes has passed the capacity check (43_carousel_modulator.md R133). -/
theorem carouselLen_le_of_cmod (hm : s.mode = .ready) (h : exec .cmod s = .next t) (hlast : t.last = .eNone) :
    s.carouselLen ≤ s.inst.waveMax := by
  rw [exec_cmod hm, Host.Outcome.next.injEq] at h
  split at h
  · subst h
    cases hlast
  · next hfits => exact not_lt.mp hfits

/-- A frame is part of the carousel it belongs to. -/
theorem fLen_le_carouselLen (hr : r < s.rCount) (hj : j < s.chunks) : s.fLen ≤ s.carouselLen := by
  have hframe : s.fLen + s.gLen ≤ s.chunks * (s.fLen + s.gLen) := Nat.le_mul_of_pos_left _ (Nat.zero_lt_of_lt hj)
  have hcycle : cycleLen s ≤ s.carouselLen := Nat.le_mul_of_pos_left _ (Nat.zero_lt_of_lt hr)
  rw [cycleLen] at hcycle
  omega

/-- Every chunk's number fits ARG. -/
theorem lt_two_pow_of_lt_chunks (hj : j < s.chunks) : j < 2 ^ 32 := by
  have hN : 0 < s.nChan := Nat.pos_of_ne_zero fun h0 => by simp [State.chunks, chunkCount, h0] at hj
  calc j ≤ j * s.nChan := Nat.le_mul_of_pos_right _ hN
    _ < s.bitsLen.toNat := (lt_chunkCount _ _ _ hN).mp hj
    _ < 2 ^ 32 := s.bitsLen.isLt

/-- FMOD of a chunk of the stream, its number in ARG. -/
theorem fmod_chunk {u : State} (hm : s.mode = .ready) (hwf : s.inst.wf = true) (hj : j < s.chunks)
    (hfits : s.fLen ≤ s.inst.waveMax) (h : exec .fmod { s with arg := BitVec.ofNat 32 j } = .next u) :
    u.last = .eNone ∧ u.wave = s.frame j := by
  have harg : State.argNat { s with arg := BitVec.ofNat 32 j } = j :=
    (BitVec.toNat_ofNat _ _).trans (Nat.mod_eq_of_lt (lt_two_pow_of_lt_chunks hj))
  rw [exec_fmod_completes (s := { s with arg := BitVec.ofNat 32 j }) hm (harg.trans_lt hj) hfits, harg,
    Host.Outcome.next.injEq] at h
  subst h
  exact ⟨rfl, wave_complete_putWave (frame_length_lt (s := s) hwf hfits) 0⟩

/-- Settles O43: WAVE is the carousel, and each of its cycles is the preamble, the segments of the chunks and the cycle
gap. -/
theorem cmodLayout : Obligations.CmodLayout := by
  unfold Obligations.CmodLayout
  intro s t K S r hm hwf hfs hden hK hS hr h hlast
  obtain rfl : K = s.chunks := hK.trans (ceil_div _ _)
  obtain rfl : S = cycleLen s := hS
  have hok := preAmpOk_of_wf hwf
  rw [cmod_wave hm hwf h hlast]
  refine ⟨fun n hn => ?_, fun j u hj hu => ?_, fun n hn => ?_⟩
  · rw [carousel_getD_preamble hfs hden hok hr hn, preamble_getD_toInt hfs hok hn]
  · have hfits := (fLen_le_carouselLen hr hj).trans (carouselLen_le_of_cmod hm h hlast)
    obtain ⟨hulast, huwave⟩ := fmod_chunk hm hwf hj hfits hu
    refine ⟨hulast, fun n hn => ?_, fun n hn => ?_⟩
    · rw [carousel_getD_chunkSegment hfs hden hok hr hj (by omega), chunkSegment_getD_frame hfs hden hn, huwave]
    · rw [Nat.add_assoc _ s.fLen, carousel_getD_chunkSegment hfs hden hok hr hj (by omega),
        chunkSegment_getD_gap hfs hden hn]
  · exact carousel_getD_cycleGap hfs hden hok hr hn

end

end Sys2Proof.Proofs
end

section
/-! PROOFS. The FrameDemodulator (44_frame_demodulator.md R140 to R146): the bits FDEM writes are the one `fdem` of its
window, and the walk of CDEM (45_carousel_demodulator.md R151) is the one walk of the rules. -/

namespace Sys2Proof.Proofs

open Sys2Proof.Machine Sys2Proof.Laws

section
variable {s t : State}

/-! ## FDEM -/

theorem exec_fdem_completes (hm : s.mode = .ready) (hin : s.argNat + s.fLen ≤ s.wLen)
    (hfits : s.nChan ≤ s.inst.bitMax) :
    exec .fdem s = .next ((s.putBits (s.fdemWindow (s.window s.argNat))).complete 0) := by
  rw [exec_fdem hm, if_neg (not_lt.mpr hin), if_neg (not_lt.mpr hfits)]

/-- An FDEM that completes has passed the check of ARG and the capacity check (44_frame_demodulator.md R146). -/
theorem fdem_checks_of_completes (hm : s.mode = .ready) (h : exec .fdem s = .next t) (hlast : t.last = .eNone) :
    s.argNat + s.fLen ≤ s.wLen ∧ s.nChan ≤ s.inst.bitMax := by
  rw [exec_fdem hm, Host.Outcome.next.injEq] at h
  split at h
  · subst h
    cases hlast
  · next hin =>
    split at h
    · subst h
      cases hlast
    · next hfits => exact ⟨not_lt.mp hin, not_lt.mp hfits⟩

/-- Settles O45: the bits FDEM writes are an `fdem` of the window, and a window has no other. -/
theorem fdemDecidesBits : Obligations.FdemDecidesBits := by
  unfold Obligations.FdemDecidesBits
  intro s hm hwf hf hden hin hfits
  have hfdem : s.IsFdem (s.window s.argNat) (s.fdemWindow (s.window s.argNat)) :=
    fdemWindow_isFdem s _ (window_length s _ hin) hf hden
  have hlen : (s.fdemWindow (s.window s.argNat)).length = s.nChan := hfdem.1
  have hbits := bits_complete_putBits (s := s) (hlen.trans_lt (hfits.trans_lt (bitMax_lt_of_wf hwf))) 0
  refine ⟨_, exec_fdem_completes hm hin hfits, completed_of_frame (s.putBits_frame _) 0, ⟨rfl, rfl, rfl, rfl⟩, ?_, ?_,
    fun b hb => ?_⟩
  · rw [← State.bits_length, hbits, hlen]
  · rw [hbits]
    exact hfdem
  · rw [hbits]
    exact isFdem_unique hfdem hb

/-! ## The walk of CDEM -/

section
variable {fuel cur cur' : Nat} {out out' : List Bit}

/-- ACT_THR lies below 1 (00_scope.md R5), so its denominator is not 0. -/
theorem actThrDen_pos_of_wf {c : Instance} (h : c.wf = true) : 0 < c.actThrDen := by
  obtain ⟨-, -, -, -, -, hthr, -⟩ := (wf_iff c).mp h
  exact Nat.zero_lt_of_lt (decide_eq_true_eq.mp hthr)

theorem walk_of_stop (h : ¬ s.WalkGoesOn cur out) : s.walk fuel cur out = (cur, out) := by
  cases fuel with
  | zero => rfl
  | succ fuel => exact if_neg h

theorem walk_of_active (hwf : s.inst.wf = true) (h : s.WalkGoesOn cur out) (hact : s.IsActive (s.window cur)) :
    s.walk (fuel + 1) cur out = s.walk fuel (cur + s.fLen + s.gLen) (out ++ s.fdemWindow (s.window cur)) :=
  (if_pos h).trans (if_pos ((active_iff s _ (actThrDen_pos_of_wf hwf)).mpr hact))

theorem walk_of_silent (hwf : s.inst.wf = true) (h : s.WalkGoesOn cur out) (hact : ¬ s.IsActive (s.window cur)) :
    s.walk (fuel + 1) cur out = s.walk fuel (cur + s.gLen) out :=
  (if_pos h).trans (if_neg ((active_iff s _ (actThrDen_pos_of_wf hwf)).not.mpr hact))

/-- The window that the loop inspects lies inside WAVE. -/
theorem window_inside_of_walkGoesOn (h : s.WalkGoesOn cur out) : cur + s.fLen < s.wLen := by
  obtain ⟨hin, -⟩ := h
  omega

/-- Every walk of the rules is the one CDEM makes: each pass moves the cursor, so that a pass for each sample from the
cursor to the end of WAVE is enough. -/
theorem walk_eq_of_walk (hwf : s.inst.wf = true) (hf : 0 < s.fLen) (hden : 0 < s.den) (hgap : 0 < s.gLen)
    (h : s.Walk cur out cur' out') (hfuel : s.wLen ≤ cur + fuel) : s.walk fuel cur out = (cur', out') := by
  induction h generalizing fuel with
  | stop hstop => exact walk_of_stop hstop
  | active hon hact hfdem _ ih =>
    have hin := window_inside_of_walkGoesOn hon
    obtain ⟨fuel, rfl⟩ := Nat.exists_eq_add_one_of_ne_zero (n := fuel) (by omega)
    have hbits := isFdem_unique (fdemWindow_isFdem s _ (window_length s _ hin.le) hf hden) hfdem
    rw [walk_of_active hwf hon hact, hbits]
    exact ih (by omega)
  | silent hon hact _ ih =>
    have hin := window_inside_of_walkGoesOn hon
    obtain ⟨fuel, rfl⟩ := Nat.exists_eq_add_one_of_ne_zero (n := fuel) (by omega)
    rw [walk_of_silent hwf hon hact]
    exact ih (by omega)

end

/-! ## CDEM -/

/-- What a walk gathers fits BITS_LEN: BITS holds BIT_CAP bits and one window's more (00_scope.md R5). -/
theorem cdemResult_length_lt (hwf : s.inst.wf = true) (hn : s.nChan ≤ s.inst.nMax) :
    s.cdemResult.2.length < 2 ^ 32 := calc
  s.cdemResult.2.length ≤ s.inst.bitCap + s.nChan := walk_length_le s _ _ [] (Nat.zero_le _)
  _ ≤ s.inst.bitCap + s.inst.nMax := Nat.add_le_add_left hn _
  _ ≤ s.inst.bitMax := bitCap_add_nMax_le hwf
  _ < 2 ^ 32 := bitMax_lt_of_wf hwf

/-- BITS and INFO after CDEM are the output and the final cursor of its walk. -/
theorem bits_info_of_exec_cdem (hm : s.mode = .ready) (hwf : s.inst.wf = true) (hn : s.nChan ≤ s.inst.nMax)
    (h : exec .cdem s = .next t) :
    t.bits = s.cdemResult.2 ∧ t.info = BitVec.ofNat 32 (min s.cdemResult.1 (2 ^ 32 - 1)) := by
  obtain rfl := Host.Outcome.next.inj (h.symm.trans (exec_cdem hm))
  refine ⟨?_, State.complete_info _ _⟩
  rw [State.bits_complete, State.bits_setWalkFlags, State.bits_putBits _ _ (cdemResult_length_lt hwf hn)]

/-- Settles O46: FDEM's bits are the only `fdem` of its window (O45), and a walk of the rules is the walk CDEM makes. -/
theorem demodulationIsDetermined : Obligations.DemodulationIsDetermined := by
  unfold Obligations.DemodulationIsDetermined
  intro s t hm hwf hf hden
  refine ⟨fun b h hlast hb => ?_, fun cur out hgap hn h hwalk => ?_⟩
  · obtain ⟨hin, hfits⟩ := fdem_checks_of_completes hm h hlast
    obtain ⟨t', ht', -, -, hlen, -, hunique⟩ := fdemDecidesBits s hm hwf hf hden hin hfits
    obtain rfl := Host.Outcome.next.inj (h.symm.trans ht')
    exact ⟨hunique b hb, hlen⟩
  · have hresult : s.cdemResult = (cur, out) := walk_eq_of_walk hwf hf hden hgap hwalk (Nat.le_add_left _ _)
    obtain ⟨hbits, hinfo⟩ := bits_info_of_exec_cdem hm hwf hn h
    rw [hresult] at hbits hinfo
    exact ⟨hbits, hinfo⟩

end

end Sys2Proof.Proofs
end

section
/-! PROOFS. The CarouselDemodulator (45_carousel_demodulator.md R150 to R154): CDEM makes a walk of the rules, what bounds
a walk, and the walk over the block's own single-cycle carousel. -/

namespace Sys2Proof.Proofs

open Sys2Proof.Machine Sys2Proof.Laws

section
variable {s t : State}

/-! ## The walk of CDEM is a walk of the rules -/

section
variable {fuel cur cur' : Nat} {out out' : List Bit}

/-- A pass for each sample from the cursor to the end of WAVE is enough, so the fuel never cuts the walk short
(45_carousel_demodulator.md R152). -/
theorem walk_follows_rules (hwf : s.inst.wf = true) (hf : 0 < s.fLen) (hden : 0 < s.den) (hgap : 0 < s.gLen)
    (hfuel : s.wLen ≤ cur + fuel) : s.Walk cur out (s.walk fuel cur out).1 (s.walk fuel cur out).2 := by
  induction fuel generalizing cur out with
  | zero => exact .stop fun hon => absurd (window_inside_of_walkGoesOn hon) (by omega)
  | succ fuel ih =>
    by_cases hon : s.WalkGoesOn cur out
    · have hin := (window_inside_of_walkGoesOn hon).le
      by_cases hact : s.IsActive (s.window cur)
      · rw [walk_of_active hwf hon hact]
        exact .active hon hact (fdemWindow_isFdem s _ (window_length s _ hin) hf hden) (ih (by omega))
      · rw [walk_of_silent hwf hon hact]
        exact .silent hon hact (ih (by omega))
    · rw [walk_of_stop hon]
      exact .stop hon

/-- BITS, the flags and the completion of CDEM leave everything else as it was (45_carousel_demodulator.md R151). -/
theorem completed_walk (s : State) (xs : List Bit) (w p f n : Nat) (info : Word) :
    s.Completed info 6 .bits (((s.putBits xs).setWalkFlags w p f n).complete info) := by
  have hbits : s.Frame [2, 4, 6] [.bits] (s.putBits xs) := (s.putBits_frame xs).mono (by simp) fun _ hsp => hsp
  have hflags : (s.putBits xs).Frame [2, 4, 6] [.bits] ((s.putBits xs).setWalkFlags w p f n) :=
    (State.setWalkFlags_frame _ w p f n).mono (by simp) nofun
  have hcomplete := (State.complete_frame ((s.putBits xs).setWalkFlags w p f n) info).mono
    (regs' := [2, 4, 6]) (sps' := [.bits]) (by simp +contextual) nofun
  exact ⟨rfl, rfl, (hbits.trans hflags).trans hcomplete⟩

/-- Settles O48: the walk CDEM makes is a walk of the rules, and BITS, INFO and the flags are made of its result. -/
theorem cdemWalks : Obligations.CdemWalks := by
  unfold Obligations.CdemWalks
  intro s hm hwf hf hgap hden hn
  obtain ⟨hbits, -⟩ := bits_info_of_exec_cdem hm hwf hn (exec_cdem hm)
  refine ⟨_, s.cdemResult.1, exec_cdem hm, completed_walk s _ _ _ _ _ _, ?_, (State.bits_length _).symm, rfl, rfl, ?_, ?_⟩
  · rw [hbits]
    exact walk_follows_rules hwf hf hden hgap (Nat.le_add_left _ _)
  · rw [hbits]
    rfl
  · rw [hbits]
    rfl

/-! ## Bounds of a walk -/

theorem walk_result_of_stop (h : s.Walk cur out cur' out') (hstop : ¬ s.WalkGoesOn cur out) :
    cur' = cur ∧ out' = out := by
  cases h with
  | stop => exact ⟨rfl, rfl⟩
  | active hon => exact absurd hon hstop
  | silent hon => exact absurd hon hstop

/-- The loop test lets one window's bits past BIT_CAP, no more. -/
theorem walk_output_length_le (h : s.Walk cur out cur' out') (hout : out.length ≤ s.inst.bitCap + s.nChan) :
    out'.length ≤ s.inst.bitCap + s.nChan := by
  induction h with
  | stop => exact hout
  | active hon _ hfdem _ ih =>
    obtain ⟨-, hcap⟩ := hon
    obtain ⟨hlen, -⟩ := hfdem
    exact ih (by rw [List.length_append, hlen]; exact Nat.add_le_add_right hcap _)
  | silent _ _ _ ih => exact ih hout

/-- The last window inspected ends before the last sample, and the cursor then moves past it by one gap at most. -/
theorem walk_cursor_le (h : s.Walk cur out cur' out') (hcur : cur ≤ s.wLen + s.gLen - 1) :
    cur' ≤ s.wLen + s.gLen - 1 := by
  induction h with
  | stop => exact hcur
  | active hon _ _ _ ih =>
    have hin := window_inside_of_walkGoesOn hon
    exact ih (by omega)
  | silent hon _ _ ih =>
    have hin := window_inside_of_walkGoesOn hon
    exact ih (by omega)

end

/-- What CFG has checked of the configuration of a state in READY (40_config_plan.md R100). -/
theorem config_of_inv_ready (h : s.Inv) (hm : s.mode = .ready) :
    0 < s.fs ∧ s.nChan ≤ s.inst.nMax ∧ 0 < s.fLen ∧ 0 < s.gLen ∧ 0 < s.den := by
  obtain ⟨hmask, hden, -⟩ := h.planned hm
  obtain ⟨hfs, -, hn, -, hf, -, hgap, -⟩ := configMask_eq_zero_iff.mp hmask
  exact ⟨hfs, hn, hf, hgap, (planDenOf_pos s.nChan).trans_eq hden.symm⟩

theorem cdem_walks_of_inv (h : s.Inv) (hm : s.mode = .ready) (ht : exec .cdem s = .next t) :
    ∃ cur, t.info = BitVec.ofNat 32 (min cur (2 ^ 32 - 1)) ∧ s.Walk s.pLen [] cur t.bits ∧
      t.bitsLen.toNat = t.bits.length ∧ t.short = decide ((s.wLen : Int) - s.pLen ≤ s.fLen) ∧
      t.nosig = decide (t.bits.length = 0) := by
  obtain ⟨-, hn, hf, hgap, hden⟩ := config_of_inv_ready h hm
  obtain ⟨t', cur, ht', ⟨-, hinfo, -⟩, hwalk, hlen, -, hshort, hnosig, -⟩ := cdemWalks s hm h.instWf hf hgap hden hn
  obtain rfl := Host.Outcome.next.inj (ht.symm.trans ht')
  exact ⟨cur, hinfo, hwalk, hlen, hshort, hnosig⟩

/-- Settles O49: the bounds hold of every walk of the rules, so of the one CDEM makes. -/
theorem cdemBounds : Obligations.CdemBounds := by
  unfold Obligations.CdemBounds
  intro s t hinv hm ht
  obtain ⟨cur, hinfo, hwalk, hlen, hshort, hnosig⟩ := cdem_walks_of_inv hinv hm ht
  have hbounds : ∀ cur out, s.Walk s.pLen [] cur out → out.length ≤ s.inst.bitCap + s.nChan ∧
      (t.short = true → cur = s.pLen ∧ out = []) ∧ (t.short = false → cur ≤ s.wLen + s.gLen - 1) := by
    refine fun cur out h => ⟨walk_output_length_le h (Nat.zero_le _), fun hs => ?_, fun hs => ?_⟩
    · rw [hshort, decide_eq_true_eq] at hs
      exact walk_result_of_stop h fun hon => absurd hon.1 (not_lt.mpr hs)
    · rw [hshort, decide_eq_false_iff_not] at hs
      exact walk_cursor_le h (by omega)
  obtain ⟨hcap, hstop, hcur⟩ := hbounds cur t.bits hwalk
  have hmax : s.inst.bitCap + s.nChan ≤ s.inst.bitMax :=
    (Nat.add_le_add_left (config_of_inv_ready hinv hm).2.1 _).trans (bitCap_add_nMax_le hinv.instWf)
  refine ⟨hlen.trans_le hcap, hlen.trans_le (hcap.trans hmax), fun hs => ?_, fun hs => ?_, hbounds⟩
  · obtain ⟨rfl, hempty⟩ := hstop hs
    rw [hempty, List.length_nil] at hlen hnosig
    refine ⟨?_, BitVec.eq_of_toNat_eq hlen, hnosig⟩
    have hfits : s.pLen ≤ 2 ^ 32 - 1 := Nat.le_pred_of_lt s.preLen.isLt
    rw [hinfo, min_eq_left hfits, State.pLen, BitVec.ofNat_toNat, BitVec.setWidth_eq]
  · rw [hinfo]
    exact toNat_ofNat_le ((min_le_left _ _).trans (hcur hs))

/-! ## CDEM on the block's own carousel -/

section
variable {cur cur' : Nat} {out out' : List Bit}

/-- Where every window from the cursor on is silent, nothing more is gathered. -/
theorem walk_output_of_silent (h : s.Walk cur out cur' out') (hsilent : ∀ c, cur ≤ c → ¬ s.IsActive (s.window c)) :
    out' = out := by
  induction h with
  | stop => rfl
  | active _ hact => exact absurd hact (hsilent _ le_rfl)
  | silent _ _ _ ih => exact ih fun c hc => hsilent c ((Nat.le_add_right _ _).trans hc)

/-- One pass over an active window appends its `fdem` and moves the cursor past the frame and its gap. -/
theorem walk_after_active (h : s.Walk cur out cur' out') (hon : s.WalkGoesOn cur out)
    (hact : s.IsActive (s.window cur)) (hf : 0 < s.fLen) (hden : 0 < s.den) :
    s.Walk (cur + s.fLen + s.gLen) (out ++ s.fdemWindow (s.window cur)) cur' out' := by
  cases h with
  | stop hstop => exact absurd hon hstop
  | active _ _ hfdem hrest =>
    have hlen := window_length s cur (window_inside_of_walkGoesOn hon).le
    rwa [isFdem_unique (fdemWindow_isFdem s _ hlen hf hden) hfdem]
  | silent _ hnot => exact absurd hact hnot

end

theorem not_isActive_of_zeros {win : List Sample} (h : ∀ q ∈ win, q = 0) : ¬ s.IsActive win := by
  rintro ⟨q, hq, hlt⟩
  have hzero : q.toInt = 0 := by rw [h q hq]; rfl
  rw [hzero, Int.cast_zero, abs_zero, zero_div] at hlt
  exact absurd hlt (not_lt.mpr (by positivity))

/-- A window is its samples in WAVE, from the cursor on. -/
theorem window_getD {off n : Nat} (hn : n < s.fLen) (d : Sample) :
    (s.window off).getD n d = s.wave.getD (off + n) d := by
  simp [State.window, List.getD_eq_getElem?_getD, List.getElem?_take_of_lt hn]

/-- In blocks of one length `m`, laid end to end, the `m` elements from `i · m` on are block `i`. -/
theorem drop_take_flatten_of_length_eq {α : Type} {xss : List (List α)} {m : ℕ} (hlen : ∀ xs ∈ xss, xs.length = m)
    (i : ℕ) (hi : i < xss.length) : (xss.flatten.drop (i * m)).take m = xss[i] := by
  induction xss generalizing i with
  | nil => simp at hi
  | cons xs t ih =>
    obtain ⟨hx, ht⟩ := List.forall_mem_cons.mp hlen
    cases i with
    | zero => simp [← hx]
    | succ i =>
      have hpast : (i + 1) * m = xs.length + i * m := by rw [hx]; ring
      rw [List.flatten_cons, hpast, ← List.drop_drop, List.drop_left, List.getElem_cons_succ]
      exact ih ht i (Nat.lt_of_succ_lt_succ hi)

/-- The bits of the first `n` frames, each demodulated (45_carousel_demodulator.md R154). -/
def frameBits (s : State) (n : ℕ) : List Bit := ((List.range n).map fun j => s.fdemWindow (s.frame j)).flatten

theorem frameBits_succ (s : State) (n : ℕ) : frameBits s (n + 1) = frameBits s n ++ s.fdemWindow (s.frame n) := by
  simp [frameBits, List.range_succ]

section
variable (hfs : 0 < s.fs) (hden : 0 < s.den) (hf : 0 < s.fLen)
include hfs hden hf

theorem fdemWindow_frame_isFdem (j : ℕ) : s.IsFdem (s.frame j) (s.fdemWindow (s.frame j)) :=
  fdemWindow_isFdem s _ (frame_length s j hfs hden) hf hden

theorem fdemWindow_frame_length (j : ℕ) : (s.fdemWindow (s.frame j)).length = s.nChan :=
  (fdemWindow_frame_isFdem hfs hden hf j).1

theorem frameBits_length (n : ℕ) : (frameBits s n).length = n * s.nChan := by
  simp [frameBits, List.length_flatten, Function.comp_def, fdemWindow_frame_length hfs hden hf]

/-- The bits of frame `j` in the output. -/
theorem frameBits_isFdem {n j : ℕ} (hj : j < n) :
    s.IsFdem (s.frame j) (((frameBits s n).drop (j * s.nChan)).take s.nChan) := by
  have hlen : ∀ b ∈ (List.range n).map fun j => s.fdemWindow (s.frame j), b.length = s.nChan :=
    List.forall_mem_map.mpr fun j _ => fdemWindow_frame_length hfs hden hf j
  rw [frameBits, drop_take_flatten_of_length_eq hlen j (by simpa using hj)]
  simpa using fdemWindow_frame_isFdem hfs hden hf j

end

/-- A frame that is not all zero reaches an end of the range (42_frame_modulator.md R125), which is above ACT_THR. -/
theorem frame_isActive {j : ℕ} (hfs : 0 < s.fs) (hden : 0 < s.den)
    (hthr : (s.inst.actThrNum : ℚ) / s.inst.actThrDen < 32767 / 32768) (hsound : ∃ q ∈ s.frame j, q ≠ 0) :
    s.IsActive (s.frame j) := by
  have hpeak : framePeak s j ≠ 0 := fun hzero => by
    obtain ⟨q, hq, hne⟩ := hsound
    obtain ⟨n, -, rfl⟩ := (mem_frame hfs hden).mp hq
    exact hne (by rw [frameSignal_of_peak_zero hzero]; rfl)
  obtain ⟨n, hn, hend⟩ := exists_frameSignal_fullScale hpeak
  refine ⟨_, (mem_frame hfs hden).mpr ⟨n, hn, rfl⟩, ?_⟩
  have habs : |frameSignal s j n| = 32767 := by
    obtain h | h := hend
    · rw [h]; rfl
    · rw [h]; rfl
  rw [frameSample_toInt hn, ← Int.cast_abs, habs]
  exact hthr

/-- The state after a CMOD that completes (43_carousel_modulator.md R133). -/
def afterCmod (s : State) : State := (s.putWave s.carousel).complete (BitVec.ofNat 32 s.chunks)

theorem eq_afterCmod (hm : s.mode = .ready) (h : exec .cmod s = .next t) (hlast : t.last = .eNone) :
    t = afterCmod s := by
  have hfits := carouselLen_le_of_cmod hm h hlast
  rw [exec_cmod hm, if_neg (not_lt.mpr hfits)] at h
  exact (Host.Outcome.next.inj h).symm

/-- The carousel is one cycle and fits WAVE, in a configuration that CFG accepts (45_carousel_demodulator.md R154,
40_config_plan.md R100). -/
structure SingleCycle (s : State) : Prop where
  wf : s.inst.wf = true
  fs_pos : 0 < s.fs
  den_pos : 0 < s.den
  fLen_pos : 0 < s.fLen
  gLen_pos : 0 < s.gLen
  once : s.rCount = 1
  fits : s.carouselLen ≤ s.inst.waveMax

theorem singleCycle_of_cmod (hinv : s.Inv) (hm : s.mode = .ready) (hR : s.rCount = 1) (h : exec .cmod s = .next t)
    (hlast : t.last = .eNone) : SingleCycle s := by
  obtain ⟨hfs, -, hf, hgap, hden⟩ := config_of_inv_ready hinv hm
  exact ⟨hinv.instWf, hfs, hden, hf, hgap, hR, carouselLen_le_of_cmod hm h hlast⟩

section
variable (h : SingleCycle s)
include h

theorem SingleCycle.rCount_pos : 0 < s.rCount := h.once ▸ Nat.zero_lt_one

theorem carousel_length_of_singleCycle : s.carousel.length = s.pLen + s.chunks * (s.fLen + s.gLen) + s.cLen := by
  rw [carousel_length h.fs_pos h.den_pos (preAmpOk_of_wf h.wf), carouselLen_eq, h.once, Nat.one_mul, cycleLen]

theorem afterCmod_wave : (afterCmod s).wave = s.carousel :=
  wave_complete_putWave (((carousel_length h.fs_pos h.den_pos (preAmpOk_of_wf h.wf)).trans_le h.fits).trans_lt
    (waveMax_lt_of_wf h.wf)) _

/-- A single cycle fills WAVE (43_carousel_modulator.md R134). -/
theorem afterCmod_wLen : (afterCmod s).wLen = s.pLen + s.chunks * (s.fLen + s.gLen) + s.cLen := by
  rw [State.wLen, ← State.wave_length, afterCmod_wave h, carousel_length_of_singleCycle h]

/-- Frame `j` and its gap begin `j · (F + G)` samples after the preamble (43_carousel_modulator.md R135). -/
theorem afterCmod_getD_chunkSegment {j n : ℕ} (hj : j < s.chunks) (hn : n < s.fLen + s.gLen) (d : Sample) :
    (afterCmod s).wave.getD (s.pLen + j * (s.fLen + s.gLen) + n) d = (chunkSegment s j).getD n d := by
  have hsample := carousel_getD_chunkSegment (d := d) h.fs_pos h.den_pos (preAmpOk_of_wf h.wf) h.rCount_pos hj hn
  rwa [Nat.zero_mul, Nat.zero_add, ← afterCmod_wave h] at hsample

theorem afterCmod_getD_cycleGap {n : ℕ} (hn : n < s.cLen) (d : Sample) :
    (afterCmod s).wave.getD (s.pLen + s.chunks * (s.fLen + s.gLen) + n) d = 0 := by
  have hsample := carousel_getD_cycleGap (d := d) h.fs_pos h.den_pos (preAmpOk_of_wf h.wf) h.rCount_pos hn
  rwa [Nat.zero_mul, Nat.zero_add, ← afterCmod_wave h] at hsample

/-- The window at the cursor of frame `j` ends before the last sample: a gap follows it. -/
theorem frame_inside {j : ℕ} (hj : j < s.chunks) :
    s.pLen + j * (s.fLen + s.gLen) + s.fLen < (afterCmod s).wLen := by
  have hlt := chunkSegment_offset_lt hj (Nat.lt_add_of_pos_right h.gLen_pos)
  rw [afterCmod_wLen h]
  omega

/-- The window at the cursor of frame `j` is the frame, from its first to its last sample. -/
theorem window_eq_frame {j : ℕ} (hj : j < s.chunks) :
    (afterCmod s).window (s.pLen + j * (s.fLen + s.gLen)) = s.frame j := by
  have hlen : ((afterCmod s).window (s.pLen + j * (s.fLen + s.gLen))).length = s.fLen :=
    window_length _ _ (frame_inside h hj).le
  refine List.ext_getElem (hlen.trans (frame_length s j h.fs_pos h.den_pos).symm) fun n hn hn' => ?_
  have hnF : n < s.fLen := hn.trans_eq hlen
  rw [← List.getD_eq_getElem _ 0 hn, ← List.getD_eq_getElem _ 0 hn', window_getD (s := afterCmod s) hnF,
    afterCmod_getD_chunkSegment h hj (hnF.trans_le (Nat.le_add_right _ _)),
    chunkSegment_getD_frame h.fs_pos h.den_pos hnF]

/-- Past the last frame and its gap there is only silence. -/
theorem window_past_frames_silent {c : ℕ} (hc : s.pLen + s.chunks * (s.fLen + s.gLen) ≤ c) :
    ¬ (afterCmod s).IsActive ((afterCmod s).window c) := by
  refine not_isActive_of_zeros fun q hq => ?_
  obtain ⟨i, hi, rfl⟩ := List.mem_iff_getElem.mp (List.mem_of_mem_take hq)
  obtain ⟨m, hm⟩ := Nat.exists_eq_add_of_le (hc.trans (Nat.le_add_right c i))
  rw [List.length_drop, afterCmod_wave h, carousel_length_of_singleCycle h] at hi
  rw [List.getElem_drop, ← List.getD_eq_getElem _ 0, hm]
  exact afterCmod_getD_cycleGap h (by omega) 0

variable (hact : ∀ j < s.chunks, s.IsActive (s.frame j)) (hcap : (s.chunks - 1) * s.nChan ≤ s.inst.bitCap)
include hact hcap

/-- The cursor of a walk comes to each frame in turn, with the bits of the frames before it (45_carousel_demodulator.md
R154). -/
theorem walk_reaches_frame {cur n : ℕ} {out : List Bit} (hwalk : (afterCmod s).Walk s.pLen [] cur out)
    (hn : n ≤ s.chunks) : (afterCmod s).Walk (s.pLen + n * (s.fLen + s.gLen)) (frameBits s n) cur out := by
  induction n with
  | zero => simpa [frameBits] using hwalk
  | succ n ih =>
    have hwin := window_eq_frame h hn
    have hbits : (frameBits s n).length ≤ s.inst.bitCap := calc
      (frameBits s n).length = n * s.nChan := frameBits_length h.fs_pos h.den_pos h.fLen_pos n
      _ ≤ (s.chunks - 1) * s.nChan := Nat.mul_le_mul_right _ (Nat.le_pred_of_lt hn)
      _ ≤ s.inst.bitCap := hcap
    have hon : (afterCmod s).WalkGoesOn (s.pLen + n * (s.fLen + s.gLen)) (frameBits s n) :=
      ⟨lt_tsub_iff_left.mpr (by exact_mod_cast frame_inside h hn), hbits⟩
    have hnext := walk_after_active (ih (Nat.le_of_succ_le hn)) hon (hwin.symm ▸ hact n hn) h.fLen_pos h.den_pos
    rw [hwin] at hnext
    rw [frameBits_succ, Nat.succ_mul, ← Nat.add_assoc, ← Nat.add_assoc]
    exact hnext

/-- A walk of the carousel gathers the bits of every frame, in order. -/
theorem walk_output_eq_frameBits {cur : ℕ} {out : List Bit} (hwalk : (afterCmod s).Walk s.pLen [] cur out) :
    out = frameBits s s.chunks :=
  walk_output_of_silent (walk_reaches_frame h hact hcap hwalk le_rfl) fun _ hc => window_past_frames_silent h hc

end

/-- Settles O50: the walk comes to each frame in turn and finds it active, then only silence. -/
theorem cdemOnOwnCarousel : Obligations.CdemOnOwnCarousel := by
  unfold Obligations.CdemOnOwnCarousel
  intro s w t K hinv hm hR hK hw hlast hsound hthr hcap ht
  obtain rfl : K = s.chunks := hK.trans (ceil_div _ _)
  have h := singleCycle_of_cmod hinv hm hR hw hlast
  have hfmod : ∀ j u, j < s.chunks → exec .fmod { s with arg := BitVec.ofNat 32 j } = .next u → u.wave = s.frame j :=
    fun j u hj hu => (fmod_chunk hm h.wf hj ((fLen_le_carouselLen h.rCount_pos hj).trans h.fits) hu).2
  have hact : ∀ j < s.chunks, s.IsActive (s.frame j) := fun j hj => by
    obtain ⟨u, hu⟩ := exec_served .fmod { s with arg := BitVec.ofNat 32 j }
    exact frame_isActive h.fs_pos h.den_pos hthr (hfmod j u hj hu ▸ hsound j u hj hu)
  have hwinv : w.Inv := inv_commandResult hinv (exec_result hw)
  obtain rfl := eq_afterCmod hm hw hlast
  obtain ⟨cur, -, hwalk, hlen, -⟩ := cdem_walks_of_inv hwinv hm ht
  have hbits := walk_output_eq_frameBits h hact hcap hwalk
  rw [hbits] at hlen ⊢
  refine ⟨hlen.trans (frameBits_length h.fs_pos h.den_pos h.fLen_pos _), fun j u hj hu => ?_⟩
  rw [hfmod j u hj hu]
  exact frameBits_isFdem h.fs_pos h.den_pos h.fLen_pos hj

end

end Sys2Proof.Proofs
end

section
/-! PROOFS. The BitDecoder (46_bit_decoder.md R160 to R162): the pairs REPC collapses, the groups B2T reads, and the
round trip of the bit path with the BitEncoder. -/

namespace Sys2Proof.Proofs

open Sys2Proof.Machine Sys2Proof.Laws

/-! ## Pairs -/

/-- Doubled bits fill whole pairs, so what follows them is paired as if it stood alone. -/
theorem collapsePairs_doubleBits_append (b z : List Bit) :
    collapsePairs (doubleBits b ++ z) = b ++ collapsePairs z := by
  induction b with
  | nil => rfl
  | cons x b ih => calc
      collapsePairs (doubleBits (x :: b) ++ z) = (x ||| x) :: collapsePairs (doubleBits b ++ z) := rfl
      _ = x :: b ++ collapsePairs z := by rw [ih, BitVec.or_self, List.cons_append]

theorem collapsePairs_replicate_zero : ∀ k : ℕ, collapsePairs (List.replicate k 0) = List.replicate (k / 2) 0
  | 0 => rfl
  | 1 => rfl
  | k + 2 => by
    rw [Nat.add_div_right k Nat.two_pos, List.replicate_succ, List.replicate_succ, collapsePairs,
      collapsePairs_replicate_zero k, List.replicate_succ, BitVec.or_self]

/-! ## Groups -/

/-- The byte value of group `g` of the stream `b` (46_bit_decoder.md R161), as the rule writes it. -/
def groupSum (b : List Bit) (g : ℕ) : ℕ := ∑ k ∈ Finset.range 8, (b.getD (8 * g + k) 0).toNat * 2 ^ (7 - k)

theorem groupSum_lt (b : List Bit) (g : ℕ) : groupSum b g < 2 ^ 32 := calc
  groupSum b g ≤ ∑ k ∈ Finset.range 8, 1 * 2 ^ (7 - k) :=
    Finset.sum_le_sum fun _ _ => Nat.mul_le_mul_right _ (Nat.le_of_lt_succ (BitVec.isLt _))
  _ < 2 ^ 32 := by decide

/-- The characters of a stream are the values of its complete groups without the zeros, none cut by its 32 bits. -/
theorem bitsText_toNat (b : List Bit) :
    (bitsText b).map BitVec.toNat = ((List.range (b.length / 8)).map (groupSum b)).filter (· ≠ 0) := by
  have hgroups : (List.range (b.length / 8)).map (fun g => groupValue ((b.drop (8 * g)).take 8)) =
      (List.range (b.length / 8)).map (groupSum b) :=
    List.map_congr_left fun g hg => groupValue_sum b g (by have := List.mem_range.mp hg; omega)
  rw [bitsText, groupChars_eq, hgroups, List.map_map]
  refine (List.map_congr_left fun v hv => ?_).trans (List.map_id _)
  obtain ⟨g, -, rfl⟩ := List.mem_map.mp (List.mem_of_mem_filter hv)
  exact (BitVec.toNat_ofNat _ _).trans (Nat.mod_eq_of_lt (groupSum_lt b g))

/-- The eight bits of a character that is a byte have that byte as their value. -/
theorem groupValue_charBits {c : Word} (hc : c.toNat ≤ 255) : groupValue (charBits c) = c.toNat := by
  simp only [charBits, List.map_cons, List.map_nil, groupValue_eight, BitVec.extractLsb'_toNat,
    Nat.shiftRight_eq_div_pow]
  omega

theorem groupValue_replicate_zero (n : ℕ) : groupValue (List.replicate n 0) = 0 := by
  induction n with
  | zero => rfl
  | succ n ih => exact ih

theorem groupChars_replicate_zero (n k : ℕ) : groupChars n (List.replicate k 0) = [] := by
  induction n generalizing k with
  | zero => rfl
  | succ n ih => rw [groupChars, List.take_replicate, if_pos (groupValue_replicate_zero _), List.drop_replicate, ih]

/-- A character at the head of a stream is read back, unless it is 0. -/
theorem bitsText_charBits_append {c : Word} (hc : c.toNat ≤ 255) (b : List Bit) :
    bitsText (charBits c ++ b) = if c = 0 then bitsText b else c :: bitsText b := by
  have height : (charBits c).length = 8 := rfl
  have hgroups : (charBits c ++ b).length / 8 = b.length / 8 + 1 := by
    rw [List.length_append, height]
    omega
  rw [bitsText, hgroups, groupChars, List.take_left' height, List.drop_left' height, groupValue_charBits hc,
    BitVec.ofNat_toNat, BitVec.setWidth_eq]
  exact if_congr (BitVec.toNat_inj (y := 0)) rfl rfl

/-- The text read from the bits of a text and zero bits after them is the text without its characters 0. -/
theorem bitsText_textBits_append {t : List Word} (ht : ∀ c ∈ t, c.toNat ≤ 255) (k : ℕ) :
    bitsText (textBits t ++ List.replicate k 0) = t.filter (· ≠ 0) := by
  induction t with
  | nil => exact groupChars_replicate_zero _ k
  | cons c t ih =>
    obtain ⟨hc, ht⟩ := List.forall_mem_cons.mp ht
    have hcons : textBits (c :: t) = charBits c ++ textBits t := List.flatMap_cons
    rw [hcons, List.append_assoc, bitsText_charBits_append hc, ih ht]
    by_cases h : c = 0
    · rw [if_pos h, List.filter_cons_of_neg (by simpa using h)]
    · rw [if_neg h, List.filter_cons_of_pos (by simpa using h)]

section
variable {s t : State}

/-! ## REPC -/

/-- REPC shortens the stream, so the new length fits BITS_LEN. -/
theorem bits_repc (s : State) (info : Word) :
    ((s.putBits (collapsePairs s.bits)).complete info).bits = collapsePairs s.bits := by
  have hle : (collapsePairs s.bits).length ≤ s.bitsLen.toNat := by
    rw [collapsePairs_length, State.bits_length]
    exact Nat.div_le_self _ _
  exact bits_complete_putBits (hle.trans_lt s.bitsLen.isLt) info

/-- Settles O51: REPC writes `collapsePairs` of the stream, whose bits are the ORs of the pairs. -/
theorem repcOrsPairs : Obligations.RepcOrsPairs := by
  unfold Obligations.RepcOrsPairs
  intro s hm
  have hbits := bits_repc s 0
  refine ⟨_, exec_repc hm, completed_of_frame (s.putBits_frame _) 0, ⟨rfl, rfl, rfl, rfl⟩, ?_, fun i hi => ?_⟩
  · rw [← State.bits_length, hbits, collapsePairs_length, State.bits_length]
  · rw [hbits, collapsePairs_getD _ _ (s.bits_length.symm ▸ hi)]
    exact bit_or_eq_one _ _

theorem bits_of_exec_repc (hm : s.mode = .ready) (h : exec .repc s = .next t) :
    t.mode = .ready ∧ t.inst = s.inst ∧ t.bits = collapsePairs s.bits := by
  obtain rfl := Host.Outcome.next.inj (h.symm.trans (exec_repc hm))
  exact ⟨hm, rfl, bits_repc s 0⟩

/-! ## REPC after REPX -/

/-- A REPX that completes has passed its capacity check (41_bit_encoder.md R112). -/
theorem repx_fits_of_completes (hm : s.mode = .ready) (h : exec .repx s = .next t) (hlast : t.last = .eNone) :
    2 * s.bitsLen.toNat ≤ s.inst.bitMax := by
  rw [exec_repx hm, Host.Outcome.next.injEq] at h
  split at h
  · subst h
    cases hlast
  · next hfits => exact not_lt.mp hfits

theorem bits_of_exec_repx (hm : s.mode = .ready) (hwf : s.inst.wf = true) (hfits : 2 * s.bitsLen.toNat ≤ s.inst.bitMax)
    (h : exec .repx s = .next t) : t.mode = .ready ∧ t.bits = doubleBits s.bits := by
  obtain rfl := Host.Outcome.next.inj (h.symm.trans (exec_repx_completes hm hfits))
  have hlen : (doubleBits s.bits).length = 2 * s.bitsLen.toNat := by rw [doubleBits_length, State.bits_length]
  exact ⟨hm, bits_complete_putBits (hlen.trans_lt (hfits.trans_lt (bitMax_lt_of_wf hwf))) 0⟩

/-- Settles O52: each pair REPC collapses is one bit REPX wrote twice. -/
theorem repcUndoesRepx : Obligations.RepcUndoesRepx := by
  unfold Obligations.RepcUndoesRepx
  intro s t u hm hwf hst hlast htu
  obtain ⟨hmt, htbits⟩ := bits_of_exec_repx hm hwf (repx_fits_of_completes hm hst hlast) hst
  obtain ⟨-, -, hubits⟩ := bits_of_exec_repc hmt htu
  have hbits : u.bits = s.bits := by rw [hubits, htbits, collapsePairs_doubleBits]
  exact ⟨hbits, BitVec.eq_of_toNat_eq (by rw [← State.bits_length, ← State.bits_length, hbits])⟩

/-! ## B2T -/

theorem exec_b2t_completes (hm : s.mode = .ready) (hfits : (bitsText s.bits).length ≤ s.inst.txtMax) :
    exec .b2t s = .next ((s.putText (bitsText s.bits)).complete 0) := by
  rw [exec_b2t hm, if_neg (not_lt.mpr hfits)]

/-- A text that fits TXT has a length that fits TXT_LEN. -/
theorem text_b2t (hwf : s.inst.wf = true) (hfits : (bitsText s.bits).length ≤ s.inst.txtMax) (info : Word) :
    ((s.putText (bitsText s.bits)).complete info).text = bitsText s.bits := by
  rw [State.text_complete, State.text_putText _ _ (hfits.trans_lt (txtMax_lt_of_wf hwf))]

/-- Settles O53: B2T writes `bitsText` of the stream, whose characters are the values of its groups without the zeros. -/
theorem b2tReadsGroups : Obligations.B2tReadsGroups := by
  unfold Obligations.B2tReadsGroups
  intro s vs hm hwf hvs hfits
  have hmap : (bitsText s.bits).map BitVec.toNat = vs := by
    rw [bitsText_toNat, State.bits_length]
    exact hvs.symm
  have hlen : (bitsText s.bits).length = vs.length := by rw [← hmap, List.length_map]
  have htext := text_b2t hwf (hlen.trans_le hfits) 0
  refine ⟨_, exec_b2t_completes hm (hlen.trans_le hfits), completed_of_frame (s.putText_frame _) 0,
    ⟨rfl, rfl, rfl, rfl⟩, ?_, ?_⟩
  · rw [← State.text_length, htext, hlen]
  · rw [htext, hmap]

/-! ## The round trip of the bit path -/

theorem bits_of_exec_t2b (hm : s.mode = .ready) (hwf : s.inst.wf = true) (hnarrow : ∀ c ∈ s.text, c.toNat ≤ 255)
    (hfits : 8 * s.txtLen.toNat ≤ s.inst.bitMax) (h : exec .t2b s = .next t) :
    t.mode = .ready ∧ t.inst = s.inst ∧ t.bits = textBits s.text := by
  obtain rfl := Host.Outcome.next.inj (h.symm.trans (exec_t2b_completes hm hnarrow hfits))
  have hlen : (textBits s.text).length = 8 * s.txtLen.toNat := by rw [textBits_length, State.text_length]
  exact ⟨hm, rfl, bits_complete_putBits (hlen.trans_lt (hfits.trans_lt (bitMax_lt_of_wf hwf))) 0⟩

theorem last_text_of_exec_b2t (hm : s.mode = .ready) (hwf : s.inst.wf = true)
    (hfits : (bitsText s.bits).length ≤ s.inst.txtMax) (h : exec .b2t s = .next t) :
    t.last = .eNone ∧ t.text = bitsText s.bits := by
  obtain rfl := Host.Outcome.next.inj (h.symm.trans (exec_b2t_completes hm hfits))
  exact ⟨rfl, text_b2t hwf hfits 0⟩

/-- Settles O54: REPC takes the padding to padding of the raw stream, and B2T reads nothing from that. -/
theorem bitPathRoundTrip : Obligations.BitPathRoundTrip := by
  unfold Obligations.BitPathRoundTrip
  intro s a b c d e k hm hwf htxt hnarrow hsa hab hmc hinst hcbits hcd hde
  have hcap := protected_le_bitMax_of_wf hwf
  obtain ⟨hma, hainst, habits⟩ := bits_of_exec_t2b hm hwf hnarrow (by omega) hsa
  have halen : a.bitsLen.toNat = 8 * s.txtLen.toNat := by
    rw [← State.bits_length, habits, textBits_length, State.text_length]
  obtain ⟨-, hbbits⟩ := bits_of_exec_repx hma (hainst ▸ hwf) (by rw [hainst]; omega) hab
  obtain ⟨hmd, hdinst, hdbits⟩ := bits_of_exec_repc hmc hcd
  have htext : bitsText d.bits = s.text.filter (· ≠ 0) := by
    rw [hdbits, hcbits, hbbits, habits, collapsePairs_doubleBits_append, collapsePairs_replicate_zero,
      bitsText_textBits_append hnarrow]
  have hfits : (bitsText d.bits).length ≤ d.inst.txtMax := calc
    (bitsText d.bits).length ≤ s.text.length := htext ▸ List.length_filter_le _ _
    _ ≤ d.inst.txtMax := by rwa [State.text_length, hdinst, hinst]
  obtain ⟨hlast, hetext⟩ := last_text_of_exec_b2t hmd (by rwa [hdinst, hinst]) hfits hde
  refine ⟨hlast, hetext.trans htext, fun hpos => (hetext.trans htext).trans (List.filter_eq_self.mpr fun x hx => ?_)⟩
  exact decide_eq_true fun hzero => absurd (hpos x hx) (by simp [hzero])

end

end Sys2Proof.Proofs
end

section
/-! PROOFS. The exceptions (60_exceptions.md R170, R173): a command whose result would not fit its destination raises
E_CAPACITY and leaves everything else as it was. -/

namespace Sys2Proof.Proofs

open Sys2Proof.Machine Sys2Proof.Laws

/-! ## The length of the text of a stream -/

/-- A group is not the character 0 exactly when one of its bits is set (46_bit_decoder.md R161). -/
theorem groupSum_ne_zero_iff {b : List Bit} {g : ℕ} : groupSum b g ≠ 0 ↔ ∃ k < 8, b.getD (8 * g + k) 0 = 1 := by
  have bit_ne_zero : ∀ x : Bit, x.toNat ≠ 0 ↔ x = 1 := by decide
  simp only [groupSum, ne_eq, Finset.sum_eq_zero_iff, Finset.mem_range, Nat.mul_eq_zero, pow_eq_zero_iff', two_ne_zero,
    false_and, or_false, not_forall, exists_prop]
  exact exists_congr fun k => and_congr_right fun _ => bit_ne_zero _

/-- B2T writes one character for each complete group with a set bit. -/
theorem bitsText_length (b : List Bit) : (bitsText b).length =
    ((List.range (b.length / 8)).filter fun g => (List.range 8).any fun k => b.getD (8 * g + k) 0 = 1).length := by
  rw [← List.length_map BitVec.toNat, bitsText_toNat, List.filter_map, List.length_map]
  refine congrArg List.length (List.filter_congr fun g _ => Bool.eq_iff_iff.mpr ?_)
  simp only [Function.comp_apply, decide_eq_true_eq, List.any_eq_true, List.mem_range]
  exact groupSum_ne_zero_iff

/-! ## Capacity errors -/

section
variable {s : State} (hm : s.mode = .ready)
include hm

theorem exec_t2b_overflows (hnarrow : ∀ c ∈ s.text, c.toNat ≤ 255) (hover : s.inst.bitMax < 8 * s.txtLen.toNat) :
    exec .t2b s = .next (s.raise .eCapacity 0) := by
  rw [exec_t2b hm, firstWide_eq_none hnarrow]
  exact congrArg Host.Outcome.next (if_pos hover)

theorem exec_repx_overflows (hover : s.inst.bitMax < 2 * s.bitsLen.toNat) :
    exec .repx s = .next (s.raise .eCapacity 0) := by
  rw [exec_repx hm, if_pos hover]

theorem exec_fmod_overflows (hj : s.argNat < chunkCount s.bitsLen.toNat s.nChan) (hover : s.inst.waveMax < s.fLen) :
    exec .fmod s = .next (s.raise .eCapacity 0) := by
  rw [exec_fmod hm, if_neg (not_le.mpr hj), if_pos hover]

theorem exec_cmod_overflows (hover : s.inst.waveMax < s.carouselLen) :
    exec .cmod s = .next (s.raise .eCapacity 0) := by
  rw [exec_cmod hm, if_pos hover]

theorem exec_fdem_overflows (hin : s.argNat + s.fLen ≤ s.wLen) (hover : s.inst.bitMax < s.nChan) :
    exec .fdem s = .next (s.raise .eCapacity 0) := by
  rw [exec_fdem hm, if_neg (not_lt.mpr hin), if_pos hover]

theorem exec_b2t_overflows (hover : s.inst.txtMax < (bitsText s.bits).length) :
    exec .b2t s = .next (s.raise .eCapacity 0) := by
  rw [exec_b2t hm, if_pos hover]

end

/-- Settles O37: each command's capacity check compares the length the rules give its result; the checks before it
pass. -/
theorem capacityErrors : Obligations.CapacityErrors := by
  unfold Obligations.CapacityErrors
  intro s hm
  have hraised : State.Raised .eCapacity 0 s (s.raise .eCapacity 0) := s.raise_raised .eCapacity 0
  refine ⟨fun hnarrow hover => ⟨_, exec_t2b_overflows hm hnarrow hover, hraised⟩,
    fun hover => ⟨_, exec_repx_overflows hm hover, hraised⟩,
    fun hN hj hover => ⟨_, exec_fmod_overflows hm ((lt_chunkCount _ _ _ hN).mpr hj) hover, hraised⟩,
    fun hover => ⟨_, exec_cmod_overflows hm ?carousel, hraised⟩,
    fun hin hover => ⟨_, exec_fdem_overflows hm hin hover, hraised⟩,
    fun hover => ⟨_, exec_b2t_overflows hm ?text, hraised⟩⟩
  case carousel =>
    rw [ceil_div] at hover
    exact hover
  case text => rwa [bitsText_length, State.bits_length]

end Sys2Proof.Proofs
end

section
/-! PROOFS. Reset (70_reset_and_hazards.md R190) and the very short frames (R204). -/

namespace Sys2Proof.Proofs

open Sys2Proof.Machine Sys2Proof.Laws

/-! ## Reset -/

/-- The state right after reset keeps the invariant for every well-formed instance. -/
theorem inv_reset {c : Instance} (h : c.wf = true) : State.Inv { State.reset with inst := c } where
  instWf := h
  memWf := ⟨.nil, .nil, .nil, .nil⟩
  cellsBelow := ⟨nofun, nofun, nofun, nofun⟩
  lengths := ⟨Nat.zero_le _, Nat.zero_le _, Nat.zero_le _⟩
  errsReserved := BitVec.zero_and
  lastRecorded := fun hl => absurd rfl hl
  flags := ⟨nofun, nofun⟩
  unplanned := fun _ => rfl
  rejected := nofun
  planned := nofun

/-- Settles O16: the reference values are one well-formed instance. -/
theorem invariantAtReset : Obligations.InvariantAtReset := by
  unfold Obligations.InvariantAtReset
  have href : Config.reference.wf = true := by decide
  exact ⟨inv_reset href, fun _ hc => inv_reset hc⟩

theorem hostReset_register {s : State} {k : ℕ} (hk : k < 19) : s.hostReset.register k = some 0 := by
  interval_cases k <;> rfl

/-- Settles O20: a reset is a move that is no command, and what it leaves is `hostReset`. -/
theorem resetEffect : Obligations.ResetEffect := by
  unfold Obligations.ResetEffect
  intro s rest hp
  exact ⟨_, step_hostMove hp rfl, fun _ hk => hostReset_register hk, rfl, rfl, rfl, rfl, rfl, rfl, rfl, rfl, rfl, rfl,
    rfl, rfl⟩

/-! ## Windows of length 2 -/

section
variable {q : List ℤ} {n : ℕ}

/-- Both ends of the symmetric Hann window are 0, and a window of length 2 has nothing else. -/
theorem hann_two (hn : n < 2) : Signal.hann 2 n = 0 := by
  interval_cases n <;> norm_num [Signal.hann]

theorem windowed_of_length_two (hq : q.length = 2) (hn : n < 2) : Signal.windowed q n = 0 := by
  rw [Signal.windowed, hq, hann_two hn, mul_zero]

theorem magnitude_of_length_two (hq : q.length = 2) (k : ℕ) : Signal.magnitude q k = 0 := by
  have htransform : Signal.transform q k = 0 := by
    refine Finset.sum_eq_zero fun n hn => ?_
    rw [windowed_of_length_two hq (hq ▸ Finset.mem_range.mp hn), Complex.ofReal_zero, zero_mul]
  rw [Signal.magnitude, htransform, norm_zero]

theorem threshold_nonneg (q : List ℤ) : 0 ≤ Signal.threshold q :=
  mul_nonneg (by norm_num) (supOf_nonneg _)

end

/-! ## Very short frames -/

section
variable {s t : State}

/-- The only sample of a frame of length 1 is the first of the tone sum, which is 0. -/
theorem frame_of_fLen_one (hfs : 0 < s.fs) (hden : 0 < s.den) (hf : s.fLen = 1) (j : ℕ) : s.frame j = [0] := by
  rw [frame_eq s j hfs hden, hf, List.range_one, List.map_singleton, frameSignal_zero]
  rfl

/-- No magnitude of a window of length 2 is above the threshold. -/
theorem fdemWindow_of_fLen_two {win : List Sample} (hden : 0 < s.den) (hf : s.fLen = 2) (hw : win.length = s.fLen) :
    s.fdemWindow win = List.replicate s.nChan 0 := by
  have hq : (win.map BitVec.toInt).length = 2 := by rw [List.length_map, hw, hf]
  have hbelow (k : ℕ) : ¬ Signal.threshold (win.map BitVec.toInt) < Signal.magnitude (win.map BitVec.toInt) k := by
    rw [magnitude_of_length_two hq]
    exact not_lt.mpr (threshold_nonneg _)
  rw [fdemWindow_eq s win hw (by omega) hden]
  simp only [hbelow, if_false, List.map_const', State.plan_length]

/-- BITS after an FDEM that completes is `fdem` of the window at ARG (44_frame_demodulator.md R146). -/
theorem fdem_bits (hm : s.mode = .ready) (hwf : s.inst.wf = true) (h : exec .fdem s = .next t)
    (hlast : t.last = .eNone) : t.bits = s.fdemWindow (s.window s.argNat) := by
  obtain ⟨hin, hfits⟩ := fdem_checks_of_completes hm h hlast
  obtain rfl := Host.Outcome.next.inj (h.symm.trans (exec_fdem_completes hm hin hfits))
  exact bits_complete_putBits (((fdemWindow_length_le s _).trans hfits).trans_lt (bitMax_lt_of_wf hwf)) 0

/-- Settles O47: FMOD writes a frame whose only sample is 0, and FDEM decides a window that the Hann window makes 0. -/
theorem veryShortFrames : Obligations.VeryShortFrames := by
  unfold Obligations.VeryShortFrames
  intro s t hm hwf hfs hden hlast
  refine ⟨fun hf h => ?_, fun hf h => ?_⟩
  · rw [fmod_wave hm hwf h hlast, frame_of_fLen_one hfs hden hf]
  · obtain ⟨hin, -⟩ := fdem_checks_of_completes hm h hlast
    rw [fdem_bits hm hwf h hlast, fdemWindow_of_fLen_two hden hf (window_length s _ hin)]

end

end Sys2Proof.Proofs
end
